-- ==== Sys2Proof/Word.lean ====
section
/-! DEFINITION. The word types of the block (00_scope.md R7, R11) and the type of its sparse register arrays. -/

namespace Sys2Proof

/-- An 8-bit value: a pin number, an index, a register number, a bus byte, an error `src` or `cause` (R7). -/
abbrev Byte := BitVec 8

/-- A 32-bit value: a host register datum, a time in milliseconds, a counter (R7, R9). -/
abbrev Word := BitVec 32

/-- `true` is HIGH, `false` is LOW (30_encoding.md R118). -/
abbrev Level := Bool

/-- A register array held sparsely: the entries that differ from the array's reset value, by rising index.
Its operations and its canonical form are in Machine/Table.lean. -/
abbrev Table (α : Type) := List (Nat × α)

end Sys2Proof
end

