-- ==== Sys2Proof/Config.lean ====
section
/-! DEFINITION. What an instance of the block fixes (00_scope.md R6 to R8, 45_expander.md R203), and the free values of
the model: constants without a body, so that nothing can be proved of them. -/

namespace Sys2Proof

/-- When a write of the expander initialisation table is made (45_expander.md R203). -/
inductive InitCond where
  | always
  | ifPullups
  | ifInterrupt
deriving DecidableEq, Repr

/-- One write of `EXP_INIT_TABLE` (R203). -/
structure InitWrite where
  reg   : Byte
  value : Byte
  cond  : InitCond
deriving DecidableEq, Repr

/-- The expander register addresses `EXP_REG_*` (R203). -/
structure ExpRegs where
  iodira   : Byte
  iodirb   : Byte
  gpintena : Byte
  gpintenb : Byte
  iocon    : Byte
  gppua    : Byte
  gppub    : Byte
  gpioa    : Byte
deriving DecidableEq, Repr

/-- The parameters of one hardware instance (R6, R8, R203). They are no state of the block (10_state.md R20): State
carries them so that a statement holds for every instance and a test can name one (log 2). -/
structure Params where
  /-- `MAX_ROWS`, 0 to 255 (R6). -/
  maxRows : Byte
  /-- `MAX_COLS`, 0 to 255 (R6). -/
  maxCols : Byte
  /-- `MAX_GPIO`, 0 to 255 (R6). -/
  maxGpio : Byte
  /-- `MAX_ENC`, 0 to 255 (R6). -/
  maxEnc  : Byte
  /-- `MAX_EXP`, 0 to 255 (R6). -/
  maxExp  : Byte
  /-- `MALFUNCTION_THRESHOLD`, at least 1 (R8). -/
  malfunctionThreshold : Nat
  /-- `EXP_TIMEOUT_MS` (R8). -/
  expTimeoutMs : Word
  /-- `MATRIX_SETTLE_US` (R8). -/
  matrixSettleUs : Nat
  /-- `SPEED_IDLE_TIMEOUT_MS` (R8). -/
  speedIdleTimeoutMs : Word
  /-- `ENC_SETTLE_STATE` (R8). -/
  encSettleState : BitVec 2
  /-- Bit `p` is `pin_valid(p)` (R8). -/
  pinValid : BitVec 256
  /-- `EXP_REG_*` (R203). -/
  expRegs : ExpRegs
  /-- `EXP_INIT_TABLE` (R203). -/
  expInit : List InitWrite
deriving DecidableEq, Repr

namespace Config

/-- `MAX_ROWS`, OPEN (R6). -/
opaque maxRows : Byte
/-- `MAX_COLS`, OPEN (R6). -/
opaque maxCols : Byte
/-- `MAX_GPIO`, OPEN (R6). -/
opaque maxGpio : Byte
/-- `MAX_ENC`, OPEN (R6). -/
opaque maxEnc : Byte
/-- `MAX_EXP`, OPEN (R6). -/
opaque maxExp : Byte
/-- `MALFUNCTION_THRESHOLD - 1`, OPEN (R8: an integer at least 1). -/
opaque malfunctionThresholdLess1 : Nat
/-- `EXP_TIMEOUT_MS`, OPEN (R8). -/
opaque expTimeoutMs : Word
/-- `MATRIX_SETTLE_US`, OPEN (R8). -/
opaque matrixSettleUs : Nat
/-- `pin_valid` of the pins 0 to 254, OPEN (R8: pin `0xFF` is never valid). -/
opaque pinValidBelow255 : BitVec 255

/-- `SPEED_NUM` (R8). -/
def speedNum : Nat := 1000
/-- `SPEED_MULT` (R8). -/
def speedMult : Nat := 4

/-- The default register addresses of R203, which the spec gives as general knowledge of the MCP23017.
PRESUMED (log 3), unsafe. -/
def defaultExpRegs : ExpRegs where
  iodira := 0x00#8
  iodirb := 0x01#8
  gpintena := 0x04#8
  gpintenb := 0x05#8
  iocon := 0x0A#8
  gppua := 0x0C#8
  gppub := 0x0D#8
  gpioa := 0x12#8

/-- The default initialisation table of R203 over the addresses `r`. PRESUMED (log 3), unsafe. -/
def initTable (r : ExpRegs) : List InitWrite :=
  [⟨r.iocon, 0x00#8, .always⟩,
   ⟨r.iodira, 0xFF#8, .always⟩,
   ⟨r.iodirb, 0xFF#8, .always⟩,
   ⟨r.gppua, 0xFF#8, .ifPullups⟩,
   ⟨r.gppub, 0xFF#8, .ifPullups⟩,
   ⟨r.gpintena, 0xFF#8, .ifInterrupt⟩,
   ⟨r.gpintenb, 0xFF#8, .ifInterrupt⟩]

/-- The parameters of this instance: the OPEN ones free, the others at the values of R8 and R203. -/
def params : Params where
  maxRows := maxRows
  maxCols := maxCols
  maxGpio := maxGpio
  maxEnc := maxEnc
  maxExp := maxExp
  malfunctionThreshold := malfunctionThresholdLess1 + 1
  expTimeoutMs := expTimeoutMs
  matrixSettleUs := matrixSettleUs
  speedIdleTimeoutMs := 1000#32
  encSettleState := 3#2
  pinValid := pinValidBelow255.zeroExtend 256
  expRegs := defaultExpRegs
  expInit := initTable defaultExpRegs

/-! The free values (log 1, 8, 9). The argument is `State.env.draws`, which every use advances. -/

/-- What `PinRead` answers (R12) where no answer is scripted. DESIGN CHOICE (log 1), safe. -/
opaque freePin : Nat → Level
/-- What `Now` answers (R9, R12) where no answer is scripted. DESIGN CHOICE (log 1), safe. -/
opaque freeNow : Nat → Word
/-- What `BusEnd` answers (R12) where no answer is scripted. DESIGN CHOICE (log 1), safe. -/
opaque freeStatus : Nat → Byte
/-- What `BusRead` answers (R12) where no answer is scripted. DESIGN CHOICE (log 1), safe. -/
opaque freeByte : Nat → Byte
/-- Whether an unscripted wait of BF_READ2 ends with data (R206). DESIGN CHOICE (log 9), safe. -/
opaque freeWaitReady : Nat → Bool
/-- Whether an unscripted `Timeout(n)` of BF_READ2 has `n = 1` rather than 0 (R206). DESIGN CHOICE (log 9), safe. -/
opaque freeWaitOne : Nat → Bool
/-- The datum of a racing RD (10_state.md R36, 20_memory.md R82). DESIGN CHOICE (log 8), safe. -/
opaque freeRead : Nat → Word

end Config

/-- What R6 and R8 require of the parameters beyond their widths. -/
def Params.wf (p : Params) : Bool :=
  decide (1 ≤ p.malfunctionThreshold) && !p.pinValid.getLsbD 255

end Sys2Proof
end

