-- ==== Sys2Proof/Syntax.lean ====
section
/-! DEFINITION. The operations of the block: one constructor per row of spec/opcode_table.json (30_encoding.md R119). -/

namespace Sys2Proof

/-- An operation (00_scope.md R2): a host command, an engine micro-operation or sub-operation, a bus frame, or an event
record. The micro-operations have no operand fields (R107): their operands are `ix`, `jx` and the state; those of the
three sub-operations are held in `State.call`. -/
inductive Instr where
  -- host commands, CMD64 (R101, R102)
  | nop
  | rd (reg i j : Byte)
  | wr (reg i j : Byte) (imm : Word)
  | beginCmd
  | tryUpdate
  | update
  | clearError
  -- micro-operations, UOP5 (R108)
  | uIdle
  | uValidate
  | uPinInit
  | uStateInit
  | uExpInit
  | uPsChk
  | uPsEnter
  | uExpRead
  | uExpDeb
  | uMatRow
  | uMatDeb
  | uGpio
  | uEncStep
  | uEncBtn
  | uFin
  | uPsExit
  -- sub-operations, UOP5 (R108)
  | debounce
  | raise
  | emit
  -- bus frames (R109)
  | bfWriteReg (a : BitVec 7) (r v : Byte)
  | bfSetPointer (a : BitVec 7) (r : Byte)
  | bfRead2 (a : BitVec 7)
  -- event records, EVT32 (R110)
  | evMatrix (profile a b : Byte) (v : BitVec 4)
  | evGpio (profile a b : Byte) (v : BitVec 4)
  | evEncRotate (profile a b : Byte) (v : BitVec 4)
  | evEncButton (profile a b : Byte) (v : BitVec 4)
  | evExpander (profile a b : Byte) (v : BitVec 4)
  | evError (profile a b : Byte) (v : BitVec 4)
deriving DecidableEq, Repr

/-- The encoding formats of spec/opcode_table.json (R100). -/
inductive Fmt where
  | cmd64
  | uop5
  | bfW2
  | bfW1
  | bfR2
  | evt32
deriving DecidableEq, Repr

end Sys2Proof
end

