-- ==== Sys2Proof/WellFormed.lean ====
section
/-! DEFINITION. Which operations the block can hold or produce. The widths of the fields are in Instr's types; what is
left to check is the contents of an event record (30_encoding.md R110). -/

namespace Sys2Proof

/-- The `v` of a toggle event: `{0b000, pressed}` (R110). -/
def toggleValue (v : BitVec 4) : Bool := v == 0#4 || v == 1#4

/-- The `v` of a rotation event: `0b0001` or `0b0011` (R110). -/
def rotateValue (v : BitVec 4) : Bool := v == 1#4 || v == 3#4

/-- The `v` of an error event: a kind that RAISE raises (R110, 60_exceptions.md R280). -/
def errorValue (v : BitVec 4) : Bool := [1#4, 2#4, 3#4, 4#4, 6#4, 7#4].contains v

/-- An operation the block can hold or produce: every command, micro-operation and bus frame, and the event records
whose fields are as R110 lists them. -/
def Instr.wf : Instr → Bool
  | .evMatrix _ _ _ v    => toggleValue v
  | .evGpio _ _ b v      => b == 0#8 && toggleValue v
  | .evEncRotate _ _ b v => b == 0#8 && rotateValue v
  | .evEncButton _ _ b v => b == 0#8 && toggleValue v
  | .evExpander _ _ b v  => decide (b.toNat < 16) && toggleValue v
  | .evError p _ _ v     => p == 0#8 && errorValue v
  | .nop | .rd .. | .wr .. | .beginCmd | .tryUpdate | .update | .clearError
  | .uIdle | .uValidate | .uPinInit | .uStateInit | .uExpInit | .uPsChk | .uPsEnter | .uExpRead | .uExpDeb
  | .uMatRow | .uMatDeb | .uGpio | .uEncStep | .uEncBtn | .uFin | .uPsExit
  | .debounce | .raise | .emit
  | .bfWriteReg .. | .bfSetPointer .. | .bfRead2 .. => true

end Sys2Proof
end

