-- ==== Sys2Proof/Decode.lean ====
section
/-! DEFINITION. The decoder of the six formats (30_encoding.md R100 to R110), total, rejecting by name; and the encoder. -/

namespace Sys2Proof

/-- Why a word names no operation. -/
inductive Reject where
  /-- An `op` value not in R102 (R105). -/
  | reservedOp
  /-- A listed `op` whose unused fields are not all zero (R103, R105). -/
  | unusedField
  /-- A micro-operation code from 0x13 to 0x1F (R108). -/
  | reservedUop
  /-- An event channel 0 or 7 to 15 (R110). -/
  | reservedChannel
  /-- A bit set above the format's width. -/
  | strayBits
deriving DecidableEq, Repr

/-- A command word, by `op` alone (R101, R102); unused fields must be zero (R103). -/
def decodeCmd (w : BitVec 64) : Except Reject Instr :=
  let op := w.extractLsb' 56 8
  let reg := w.extractLsb' 48 8
  let i := w.extractLsb' 40 8
  let j := w.extractLsb' 32 8
  let imm := w.extractLsb' 0 32
  let bare (c : Instr) : Except Reject Instr := if w.extractLsb' 0 56 = 0#56 then .ok c else .error .unusedField
  if op = 0x00#8 then bare .nop
  else if op = 0x01#8 then if imm = 0#32 then .ok (.rd reg i j) else .error .unusedField
  else if op = 0x02#8 then .ok (.wr reg i j imm)
  else if op = 0x10#8 then bare .beginCmd
  else if op = 0x11#8 then bare .tryUpdate
  else if op = 0x12#8 then bare .update
  else if op = 0x13#8 then bare .clearError
  else .error .reservedOp

/-- The micro-operation codes in the order of R108. -/
def uopList : List Instr :=
  [.uIdle, .uValidate, .uPinInit, .uStateInit, .uExpInit, .uPsChk, .uPsEnter, .uExpRead, .uExpDeb, .uMatRow, .uMatDeb,
   .uGpio, .uEncStep, .uEncBtn, .uFin, .uPsExit, .debounce, .raise, .emit]

/-- A micro-operation code (R108). -/
def decodeUop (c : BitVec 5) : Except Reject Instr :=
  match uopList[c.toNat]? with
  | some i => .ok i
  | none => .error .reservedUop

/-- An event record, by its channel (R110). -/
def decodeEvt (w : BitVec 32) : Except Reject Instr :=
  let ch := w.extractLsb' 28 4
  let p := w.extractLsb' 20 8
  let a := w.extractLsb' 12 8
  let b := w.extractLsb' 4 8
  let v := w.extractLsb' 0 4
  if ch = 1#4 then .ok (.evMatrix p a b v)
  else if ch = 2#4 then .ok (.evGpio p a b v)
  else if ch = 3#4 then .ok (.evEncRotate p a b v)
  else if ch = 4#4 then .ok (.evEncButton p a b v)
  else if ch = 5#4 then .ok (.evExpander p a b v)
  else if ch = 6#4 then .ok (.evError p a b v)
  else .error .reservedChannel

/-- `i` if the bits of `w` from `n` up are zero. -/
def within (n : Nat) (w : BitVec 64) (i : Except Reject Instr) : Except Reject Instr :=
  if w.toNat < 2 ^ n then i else .error .strayBits

/-- The operation that the word `w` of format `f` names. A bus frame's pattern string (R109) is read as one number with
its last character as bit 0. DEDUCED (log 12). -/
def decode (f : Fmt) (w : BitVec 64) : Except Reject Instr :=
  match f with
  | .cmd64 => decodeCmd w
  | .uop5  => within 5 w (decodeUop (w.extractLsb' 0 5))
  | .bfW2  => within 23 w (.ok (.bfWriteReg (w.extractLsb' 16 7) (w.extractLsb' 8 8) (w.extractLsb' 0 8)))
  | .bfW1  => within 15 w (.ok (.bfSetPointer (w.extractLsb' 8 7) (w.extractLsb' 0 8)))
  | .bfR2  => within 7 w (.ok (.bfRead2 (w.extractLsb' 0 7)))
  | .evt32 => within 32 w (decodeEvt (w.extractLsb' 0 32))

/-- The format of a table word of `nbits` bits. Eight bits are a micro-operation code where the three bits above it are
zero, else the device address of BF_READ2. DESIGN CHOICE (log 12), safe. -/
def fmtOf (nbits w : Nat) : Option Fmt :=
  if nbits = 64 then some .cmd64
  else if nbits = 32 then some .evt32
  else if nbits = 24 ∨ nbits = 23 then some .bfW2
  else if nbits = 16 ∨ nbits = 15 then some .bfW1
  else if nbits = 8 then some (if w < 32 then .uop5 else .bfR2)
  else if nbits = 7 then some .bfR2
  else if nbits = 5 then some .uop5
  else none

/-- The operation that the decoder reads from the table word `w` of `nbits` bits. -/
def decodeTableWord (nbits w : Nat) : Option Instr :=
  match fmtOf nbits w with
  | none => none
  | some f =>
    if w < 2 ^ 64 then
      match decode f (BitVec.ofNat 64 w) with
      | .ok i => some i
      | .error _ => none
    else none

/-! The encoder, from the same tables. -/

/-- A command word (R101). -/
def cmdWord (op reg i j : Byte) (imm : Word) : BitVec 64 := op ++ reg ++ i ++ j ++ imm

/-- An event record (R110). -/
def evtWord (ch : BitVec 4) (profile a b : Byte) (v : BitVec 4) : BitVec 32 := ch ++ profile ++ a ++ b ++ v

/-- A micro-operation code in its 64-bit carrier. -/
def uopWord (c : BitVec 5) : BitVec 64 := c.zeroExtend 64

/-- An event record in its 64-bit carrier. -/
def evtCarrier (ch : BitVec 4) (profile a b : Byte) (v : BitVec 4) : BitVec 64 :=
  (evtWord ch profile a b v).zeroExtend 64

/-- The format and the word of an operation. -/
def encode : Instr → Fmt × BitVec 64
  | .nop          => (.cmd64, cmdWord 0x00#8 0 0 0 0)
  | .rd reg i j   => (.cmd64, cmdWord 0x01#8 reg i j 0)
  | .wr reg i j v => (.cmd64, cmdWord 0x02#8 reg i j v)
  | .beginCmd     => (.cmd64, cmdWord 0x10#8 0 0 0 0)
  | .tryUpdate    => (.cmd64, cmdWord 0x11#8 0 0 0 0)
  | .update       => (.cmd64, cmdWord 0x12#8 0 0 0 0)
  | .clearError   => (.cmd64, cmdWord 0x13#8 0 0 0 0)
  | .uIdle        => (.uop5, uopWord 0x00#5)
  | .uValidate    => (.uop5, uopWord 0x01#5)
  | .uPinInit     => (.uop5, uopWord 0x02#5)
  | .uStateInit   => (.uop5, uopWord 0x03#5)
  | .uExpInit     => (.uop5, uopWord 0x04#5)
  | .uPsChk       => (.uop5, uopWord 0x05#5)
  | .uPsEnter     => (.uop5, uopWord 0x06#5)
  | .uExpRead     => (.uop5, uopWord 0x07#5)
  | .uExpDeb      => (.uop5, uopWord 0x08#5)
  | .uMatRow      => (.uop5, uopWord 0x09#5)
  | .uMatDeb      => (.uop5, uopWord 0x0A#5)
  | .uGpio        => (.uop5, uopWord 0x0B#5)
  | .uEncStep     => (.uop5, uopWord 0x0C#5)
  | .uEncBtn      => (.uop5, uopWord 0x0D#5)
  | .uFin         => (.uop5, uopWord 0x0E#5)
  | .uPsExit      => (.uop5, uopWord 0x0F#5)
  | .debounce     => (.uop5, uopWord 0x10#5)
  | .raise        => (.uop5, uopWord 0x11#5)
  | .emit         => (.uop5, uopWord 0x12#5)
  | .bfWriteReg a r v   => (.bfW2, (a ++ r ++ v : BitVec 23).zeroExtend 64)
  | .bfSetPointer a r   => (.bfW1, (a ++ r : BitVec 15).zeroExtend 64)
  | .bfRead2 a          => (.bfR2, a.zeroExtend 64)
  | .evMatrix p a b v    => (.evt32, evtCarrier 1#4 p a b v)
  | .evGpio p a b v      => (.evt32, evtCarrier 2#4 p a b v)
  | .evEncRotate p a b v => (.evt32, evtCarrier 3#4 p a b v)
  | .evEncButton p a b v => (.evt32, evtCarrier 4#4 p a b v)
  | .evExpander p a b v  => (.evt32, evtCarrier 5#4 p a b v)
  | .evError p a b v     => (.evt32, evtCarrier 6#4 p a b v)

end Sys2Proof
end

