-- ==== Sys2Proof/Machine/State.lean ====
section
/-! DEFINITION. The state of the block (10_state.md R20 to R42), plain data, and its value after `rst`. -/

namespace Sys2Proof.Machine

/-- A DebouncedLine (R21): the previous poll's logical reading, the confirmed state, the time `raw` last changed. -/
structure Line where
  raw  : Bool
  conf : Bool
  ts   : Word
deriving DecidableEq, Repr

/-- The DebouncedLine after `rst` (R41). -/
def Line.reset : Line := ⟨false, false, 0#32⟩

/-- A direction (00_scope.md R11): 0, +1 (clockwise) or -1 (counter-clockwise). -/
inductive Dir where
  | none
  | cw
  | ccw
deriving DecidableEq, Repr

/-- An encoder record (R24). -/
structure Enc where
  lastState   : BitVec 2
  pendingDir  : Dir
  position    : Word
  lastDir     : Dir
  errorCount  : Word
  valid       : Bool
  malReported : Bool
  speed       : Word
  tChange     : Word
  tSpeed      : Word
  btn         : Line
deriving DecidableEq, Repr

/-- The encoder record after `rst` (R41). -/
def Enc.reset : Enc where
  lastState := 0#2
  pendingDir := .none
  position := 0#32
  lastDir := .none
  errorCount := 0#32
  valid := true
  malReported := false
  speed := 0#32
  tChange := 0#32
  tSpeed := 0#32
  btn := Line.reset

/-- An expander record (R25): lane `b` is the DebouncedLine (`last16[b]`, `conf16[b]`, `ts[b]`). -/
structure Exp where
  last16 : BitVec 16
  conf16 : BitVec 16
  ts     : Vector Word 16
deriving DecidableEq, Repr

/-- The expander record after `rst` (R41). -/
def Exp.reset : Exp := ⟨0#16, 0#16, Vector.replicate 16 0#32⟩

/-- An entry of `EXP_CFG` (R34). -/
structure ExpCfg where
  addr       : BitVec 7
  usePullups : Bool
  useInt     : Bool
deriving DecidableEq, Repr

/-- An `EXP_CFG` entry after `rst` (R34). -/
def ExpCfg.reset : ExpCfg := ⟨0#7, false, false⟩

/-- The configuration registers (R30, R32, R34). The entry of a pin table after `rst` is `0xFF`, that of `ENC_DIVISOR`
is 4. -/
structure HostCfg where
  psEnable      : Bool
  debounceMs    : Word
  encDebounceMs : Word
  psTimeoutMs   : Word
  profileCount  : Byte
  activeProfile : Byte
  numRows       : Byte
  numCols       : Byte
  numGpio       : Byte
  numEnc        : Byte
  numExp        : Byte
  evtEnable     : BitVec 6
  rowPin        : Table Byte
  colPin        : Table Byte
  gpioPin       : Table Byte
  encPinA       : Table Byte
  encPinB       : Table Byte
  encPinBtn     : Table Byte
  expCfg        : Table ExpCfg
  encDivisor    : Table (BitVec 3)
deriving DecidableEq, Repr

/-- The configuration registers after `rst` (R30, R32, R34, R41). -/
def HostCfg.reset : HostCfg where
  psEnable := false
  debounceMs := 0#32
  encDebounceMs := 0#32
  psTimeoutMs := 0#32
  profileCount := 0#8
  activeProfile := 0#8
  numRows := 0#8
  numCols := 0#8
  numGpio := 0#8
  numEnc := 0#8
  numExp := 0#8
  evtEnable := 0#6
  rowPin := []
  colPin := []
  gpioPin := []
  encPinA := []
  encPinB := []
  encPinBtn := []
  expCfg := []
  encDivisor := []

/-- The kinds of the last-error slot (30_encoding.md R111). -/
inductive ErrKind where
  | none
  | invalidPin
  | pinConflict
  | invalidConfig
  | encoderMalfunction
  | expanderFault
  | busError
  | timeoutError
deriving DecidableEq, Repr

/-- The six kinds that RAISE raises (60_exceptions.md R280, R284). -/
inductive FaultKind where
  | invalidPin
  | pinConflict
  | invalidConfig
  | encoderMalfunction
  | busError
  | timeoutError
deriving DecidableEq, Repr

/-- The six event channels (30_encoding.md R110). -/
inductive Channel where
  | matrix
  | gpio
  | encRotate
  | encButton
  | expander
  | error
deriving DecidableEq, Repr

/-- A pin mode (30_encoding.md R118). Mode 3 is reserved and never issued. -/
inductive PinMode where
  | input
  | inputPullup
  | output
deriving DecidableEq, Repr

/-- A response status (30_encoding.md R106). Status 3 is never produced. -/
inductive Status where
  | ok
  | busy
  | error
deriving DecidableEq, Repr

/-- A request to the environment (00_scope.md R12). -/
inductive Request where
  | pinMode (p : Byte) (m : PinMode)
  | pinWrite (p : Byte) (l : Level)
  | pinRead (p : Byte)
  | now
  | waitMicros (n : Nat)
  | busBegin (a : BitVec 7)
  | busWrite (b : Byte)
  | busEnd
  | busRequest (a : BitVec 7) (n : Nat)
  | busAvail
  | busRead
deriving DecidableEq, Repr

/-- What the block issues: a response on the command port (30_encoding.md R106), a record on the event port (R110), a
request to the environment (00_scope.md R12). -/
inductive Out where
  | response (st : Status) (data : Word)
  | record (rec : BitVec 32)
  | request (r : Request)
deriving DecidableEq, Repr

/-- What the outside does next at the block's ports (47_host_commands.md R260, R272; 70_reset_and_hazards.md R330).
The model's own (log 4). -/
inductive HostAct where
  /-- Present a command word. -/
  | cmd (w : BitVec 64)
  /-- Acknowledge the pending record with the bit `ack`. -/
  | ack (bit : Bool)
  /-- Do nothing for one step. -/
  | pass
  /-- Do nothing until the block is idle or presents a record. -/
  | await
  /-- Assert `rst` between two moves of the engine. -/
  | rst
  /-- Assert `rst` during the engine's next move, after the first `k` of what that move issues
  (93_implementation_defined.md U29; log 24). -/
  | rstAfter (k : Nat)
deriving DecidableEq, Repr

/-- A DebouncedLine of the block (R20 (a)): the operand `L` of DEBOUNCE (41_debounce.md R140). -/
inductive LineRef where
  | cell (r c : Byte)
  | gpio (i : Byte)
  | encBtn (e : Byte)
  | expLane (d : Byte) (b : BitVec 4)
deriving DecidableEq, Repr

/-- The result of BF_READ2 (45_expander.md R202). -/
inductive ReadResult where
  | ok (b0 b1 : Byte)
  | timeout (n : Byte)
deriving DecidableEq, Repr

/-- Where the operands and the results of the sub-operations, of the bus frames, of U_PSCHK and of U_VALIDATE stand.
The spec passes them as arguments and results of pseudocode calls (00_scope.md R12); the model's own (log 7). -/
structure Call where
  /-- DEBOUNCE: the line `L`. -/
  line    : LineRef
  /-- DEBOUNCE: the logical reading `r`. -/
  raw     : Bool
  /-- DEBOUNCE: the result `toggled`. -/
  toggled : Bool
  /-- RAISE: `kind`. -/
  kind    : FaultKind
  /-- RAISE: `src`. -/
  src     : Byte
  /-- RAISE: `cause`. -/
  cause   : Byte
  /-- EMIT: `channel`. -/
  channel : Channel
  /-- EMIT: `a`. -/
  evA     : Byte
  /-- EMIT: `b`. -/
  evB     : Byte
  /-- EMIT: `v`. -/
  evV     : BitVec 4
  /-- BF_WRITE_REG, BF_SET_POINTER: the result `st`. -/
  status  : Byte
  /-- BF_READ2: the result. -/
  read    : ReadResult
  /-- U_PSCHK: the result is "skip". -/
  skip    : Bool
  /-- U_VALIDATE: the result is "ok". -/
  valid   : Bool
deriving DecidableEq, Repr

/-- The operands and results before anything has run. DESIGN CHOICE (log 7), unsafe. -/
def Call.reset : Call where
  line := .gpio 0#8
  raw := false
  toggled := false
  kind := .invalidConfig
  src := 0#8
  cause := 0#8
  channel := .error
  evA := 0#8
  evB := 0#8
  evV := 0#4
  status := 0#8
  read := .timeout 0#8
  skip := false
  valid := false

/-- One entry of the engine's work list: the rest of the command in progress (46_update_cycle.md R232,
47_host_commands.md R265). The model's own refinement of `phase`, `ix`, `jx` (log 6). -/
inductive Task where
  /-- Run the operation with the word `w` of format `f`; for a per-item micro-operation `ix <- item` first (R232). -/
  | op (f : Fmt) (w : BitVec 64) (item : Option Byte)
  /-- Go on with U_MAT_DEB (42_matrix.md R153): `n` columns are left. -/
  | matCols (n : Nat)
  /-- Go on with U_EXP_DEB (45_expander.md R209): `n` lanes are left. -/
  | expLanes (n : Nat)
  /-- Go on with `commit` of U_ENC_STEP after its rotation event (44_quadrature.md R179). -/
  | commitRest
  /-- Branch on the result of U_PSCHK (R232). -/
  | afterGate
  /-- Branch on the result of U_VALIDATE (R265). -/
  | afterValidate
  /-- The end of a BEGIN that passed validation (R265, R270). -/
  | beginEnd
  /-- The end of an update cycle (46_update_cycle.md R230). -/
  | cycleEnd
deriving DecidableEq, Repr

/-- The mode and the last driven level of a pin, as the block has set them (R40 (a)); `none` where it has not. -/
structure PinDrive where
  mode  : Option PinMode
  level : Option Level
deriving DecidableEq, Repr

/-- A pin the block has not touched. DESIGN CHOICE (log 15), safe. -/
def PinDrive.reset : PinDrive := ⟨none, none⟩

/-- The environment's side (R40, 00_scope.md R12): the answers it will give, in the order they are asked for, kind by
kind, and the pins as the block has set them. Where a list has run out the answer is a free value (log 1). -/
structure Env where
  pinIn   : List Level
  nowIn   : List Word
  endIn   : List Byte
  availIn : List Byte
  byteIn  : List Byte
  /-- How many free values have been taken. -/
  draws   : Nat
  pins    : Table PinDrive
deriving DecidableEq, Repr

/-- An environment that has nothing scripted. DESIGN CHOICE (log 1), safe. -/
def Env.reset : Env := ⟨[], [], [], [], [], 0, []⟩

/-- The state of the machine. -/
structure State where
  /-- The parameters of the instance (00_scope.md R6 to R8). -/
  params      : Params
  /-- The configuration registers (R30 to R34). -/
  cfg         : HostCfg
  /-- `CELL[r][c]` (R22), indexed by `256 r + c`. -/
  cells       : Table Line
  /-- `GPIOL[i]` (R23). -/
  gpioLines   : Table Line
  /-- `ENC[e]` (R24). -/
  encs        : Table Enc
  /-- `EXP[d]` (R25). -/
  exps        : Table Exp
  /-- `phase` (R26). -/
  phase       : BitVec 5
  /-- `ix` (R26). -/
  ix          : Byte
  /-- `jx` (R26). -/
  jx          : Byte
  /-- `initialized` (R27). -/
  initialized : Bool
  /-- `busy` (R27). -/
  busy        : Bool
  /-- `ps_mode` (R27): `true` is PowerSaving. -/
  psMode      : Bool
  /-- `activity` (R27). -/
  activity    : Bool
  /-- `err_notified` (R27). -/
  errNotified : Bool
  /-- `err_kind` (R28). -/
  errKind     : ErrKind
  /-- `err_src` (R28). -/
  errSrc      : Byte
  /-- `err_cause` (R28). -/
  errCause    : Byte
  /-- `t_cycle` (R29). -/
  tCycle      : Word
  /-- `t_activity` (R29). -/
  tActivity   : Word
  /-- `COL_LATCH` (R29). -/
  colLatch    : Table Level
  /-- `EXP_WORD` (R29). -/
  expWord     : BitVec 16
  /-- `exp_ok` (R29). -/
  expOk       : Bool
  /-- The event record that waits for its acknowledge (R40 (d), 60_exceptions.md R290). -/
  evt         : Option (BitVec 32)
  /-- How many UPDATE commands wait for `busy = 0` (46_update_cycle.md R245). -/
  updWait     : Nat
  /-- The rest of the command in progress. -/
  todo        : List Task
  /-- Operands and results of the sub-operations. -/
  call        : Call
  /-- What the host does next. -/
  host        : List HostAct
  /-- The environment's side. -/
  env         : Env
  /-- All the block has issued, newest first (log 16). -/
  out         : List Out
deriving DecidableEq, Repr

/-- Why the machine stops with a fault. No behaviour the spec describes does. -/
inductive Fault where
  /-- Raised by the step where the engine's work list holds a word that names no operation: a micro-operation code from
  0x13 to 0x1F (30_encoding.md R108), an event channel 0 or 7 to 15 (R110) or a word too wide for its format. The block
  never holds one and the model never puts one there (log 13). Safe. -/
  | reservedCode
deriving DecidableEq, Repr

/-- Why an instruction is refused. -/
inductive Refusal where
  /-- Raised by exec for an instruction whose meaning has not been written yet. Safe. No arm of exec answers it. -/
  | notModelled (mnemonic : String)
deriving DecidableEq, Repr

/-- The machine right after `rst` (R41, R330, R331), of an instance with the parameters `Config.params`. -/
def State.reset : State where
  params := Config.params
  cfg := HostCfg.reset
  cells := []
  gpioLines := []
  encs := []
  exps := []
  phase := 0#5
  ix := 0#8
  jx := 0#8
  initialized := false
  busy := false
  psMode := false
  activity := false
  errNotified := false
  errKind := .none
  errSrc := 0#8
  errCause := 0#8
  tCycle := 0#32
  tActivity := 0#32
  colLatch := []
  expWord := 0#16
  expOk := false
  evt := none
  updWait := 0
  todo := []
  call := Call.reset
  host := []
  env := Env.reset
  out := []

end Sys2Proof.Machine
end

