-- ==== Sys2Proof/Machine/Flags.lean ====
section
/-! DEFINITION. The tests and results the block computes from plain values: time comparisons (60_exceptions.md R298), the
debounce step (41_debounce.md R141), the quadrature tables (44_quadrature.md R175, R174, R179), and the numeric codes of
the enumerations, each with its reading where a code is reserved (30_encoding.md R106, R110, R111, R118). -/

namespace Sys2Proof.Machine

/-- `elapsed(a, b) = (a - b) mod 2^32` (00_scope.md R9). -/
def elapsed (a b : Word) : Word := a - b

/-- The elapsed time is more than `limit`, unsigned and strict (R298). -/
def exceeds (a b limit : Word) : Bool := decide (limit.toNat < (elapsed a b).toNat)

/-- DEBOUNCE (R141): the line afterwards, and `toggled`. -/
def debounceLine (l : Line) (r : Bool) (now interval : Word) : Line × Bool :=
  let ts := if r ≠ l.raw then now else l.ts
  let toggled := exceeds now ts interval && (r != l.conf)
  (⟨r, if toggled then r else l.conf, ts⟩, toggled)

/-- The class of an encoder transition (R175). -/
inductive Transition where
  | same
  | legal (d : Dir)
  | illegal
deriving DecidableEq, Repr

/-- `classify(last, cur)`, the table of R175. -/
def classify (last cur : BitVec 2) : Transition :=
  match last.toNat, cur.toNat with
  | 0, 1 => .legal .cw
  | 1, 3 => .legal .cw
  | 3, 2 => .legal .cw
  | 2, 0 => .legal .cw
  | 0, 2 => .legal .ccw
  | 2, 3 => .legal .ccw
  | 3, 1 => .legal .ccw
  | 1, 0 => .legal .ccw
  | 0, 3 => .illegal
  | 3, 0 => .illegal
  | 1, 2 => .illegal
  | 2, 1 => .illegal
  | _, _ => .same

/-- The 2-bit code of a direction (00_scope.md R11). -/
def Dir.code : Dir → BitVec 2
  | .none => 0b00#2
  | .cw   => 0b01#2
  | .ccw  => 0b11#2

/-- The state of an encoder from the levels of its pins: `{A, B}` (R171). -/
def encState (a b : Level) : BitVec 2 := BitVec.ofBool a ++ BitVec.ofBool b

/-- `speed` after a state change `dt` milliseconds after the one before (R174). -/
def speedAfter (dt old : Word) : Word :=
  if dt = 0#32 then old else BitVec.ofNat 32 (Config.speedNum / (dt.toNat * Config.speedMult))

/-- `error_count` after an illegal transition, saturating (R176). -/
def bumpErrors (n : Word) : Word := BitVec.ofNat 32 (min (n.toNat + 1) 0xFFFFFFFF)

/-- `inc = 4 div ENC_DIVISOR` (R179). The divisor is 1 to 4 (10_state.md R34); for other values, which no register
holds, see log 20. -/
def positionStep (divisor : BitVec 3) : Word := BitVec.ofNat 32 (4 / divisor.toNat)

/-- `position` after a commit (R179). -/
def movePosition (position : Word) (d : Dir) (inc : Word) : Word :=
  match d with
  | .none => position
  | .cw   => position + inc
  | .ccw  => position - inc

/-- `error_count < MALFUNCTION_THRESHOLD` (R180). -/
def underThreshold (p : Params) (n : Word) : Bool := decide (n.toNat < p.malfunctionThreshold)

/-- The power-save gate (46_update_cycle.md R234): the result is "skip". -/
def gateSkips (s : State) : Bool :=
  !s.psMode && s.cfg.psEnable && exceeds s.tCycle s.tActivity s.cfg.psTimeoutMs

/-- The code of a response status (R106). -/
def Status.code : Status → BitVec 2
  | .ok    => 0#2
  | .busy  => 1#2
  | .error => 2#2

/-- The status that a code stands for (R106); 3 is never produced. -/
def Status.ofCode (c : BitVec 2) : Option Status :=
  match c.toNat with
  | 0 => some .ok
  | 1 => some .busy
  | 2 => some .error
  | _ => none

/-- The encoding of a response: `{ status: 2 bits, data: 32 bits }` (R100 (2), R106). The rule gives the two fields and
their widths and joins them to no one word; neither does this. -/
def responseFields (st : Status) (data : Word) : BitVec 2 × Word := (st.code, data)

/-- The code of a pin mode (R118). -/
def PinMode.code : PinMode → BitVec 2
  | .input       => 0#2
  | .inputPullup => 1#2
  | .output      => 2#2

/-- The pin mode that a code stands for (R118); 3 is reserved and never issued. -/
def PinMode.ofCode (c : BitVec 2) : Option PinMode :=
  match c.toNat with
  | 0 => some .input
  | 1 => some .inputPullup
  | 2 => some .output
  | _ => none

/-- The code of a level (R118): LOW 0, HIGH 1. -/
def levelCode (l : Level) : BitVec 1 := BitVec.ofBool l

/-- The code of an error kind (R111). -/
def ErrKind.code : ErrKind → BitVec 3
  | .none               => 0#3
  | .invalidPin         => 1#3
  | .pinConflict        => 2#3
  | .invalidConfig      => 3#3
  | .encoderMalfunction => 4#3
  | .expanderFault      => 5#3
  | .busError           => 6#3
  | .timeoutError       => 7#3

/-- The kind that the slot records for a fault (R111, 60_exceptions.md R284). -/
def FaultKind.toErr : FaultKind → ErrKind
  | .invalidPin         => .invalidPin
  | .pinConflict        => .pinConflict
  | .invalidConfig      => .invalidConfig
  | .encoderMalfunction => .encoderMalfunction
  | .busError           => .busError
  | .timeoutError       => .timeoutError

/-- The number of a channel (R110). -/
def Channel.code : Channel → BitVec 4
  | .matrix    => 1#4
  | .gpio      => 2#4
  | .encRotate => 3#4
  | .encButton => 4#4
  | .expander  => 5#4
  | .error     => 6#4

/-- The `EVT_ENABLE` bit of a channel: bit `channel - 1` (10_state.md R31). -/
def Channel.bit : Channel → Nat
  | .matrix    => 0
  | .gpio      => 1
  | .encRotate => 2
  | .encButton => 3
  | .expander  => 4
  | .error     => 5

/-- The `v` of a toggle event: `{0b000, pressed}` (R110). -/
def toggleCode (pressed : Bool) : BitVec 4 := 0#3 ++ BitVec.ofBool pressed

/-- The `v` of a rotation event: `{0b00, direction}` (R110). -/
def rotateCode (d : Dir) : BitVec 4 := 0#2 ++ d.code

/-- The `v` of an error event: `{0b0, err_kind}` (R110). -/
def errorCode (k : FaultKind) : BitVec 4 := 0#1 ++ k.toErr.code

/-- Bit `b` of `v` set to `x`. -/
def setBit16 (v : BitVec 16) (b : BitVec 4) (x : Bool) : BitVec 16 :=
  if x then v ||| (1#16 <<< b.toNat) else v &&& ~~~(1#16 <<< b.toNat)

end Sys2Proof.Machine
end

