-- ==== Sys2Proof/Machine/Table.lean ====
section
/-! DEFINITION. The sparse register arrays: the one read, the one write, and the canonical form. `d` is the array's reset
value: an index that is not listed reads as `d`, and writing `d` removes the entry (log 18). -/

namespace Sys2Proof

/-- The element at index `n`. -/
def Table.get {α : Type} (d : α) : Table α → Nat → α
  | [], _ => d
  | (k, v) :: t, n => if k = n then v else Table.get d t n

/-- The table without index `n`. -/
def Table.erase {α : Type} (n : Nat) : Table α → Table α
  | [] => []
  | (k, v) :: t => if k = n then Table.erase n t else (k, v) :: Table.erase n t

/-- The table with a new entry for index `n`, put before the first larger index. -/
def Table.insert {α : Type} (n : Nat) (x : α) : Table α → Table α
  | [] => [(n, x)]
  | (k, v) :: t => if n < k then (n, x) :: (k, v) :: t else (k, v) :: Table.insert n x t

/-- The table whose element at index `n` is `x`. -/
def Table.put {α : Type} [DecidableEq α] (d : α) (t : Table α) (n : Nat) (x : α) : Table α :=
  if x = d then Table.erase n t else Table.insert n x (Table.erase n t)

/-- The indices of `t` rise strictly from above `lo`, and no entry equals the reset value. -/
def Table.wfFrom {α : Type} [DecidableEq α] (d : α) : Option Nat → Table α → Bool
  | _, [] => true
  | lo, (k, v) :: t => (match lo with | none => true | some l => decide (l < k)) && decide (v ≠ d) && Table.wfFrom d (some k) t

/-- The canonical form: indices strictly rising, no entry equal to the reset value. -/
def Table.wf {α : Type} [DecidableEq α] (d : α) (t : Table α) : Bool := Table.wfFrom d none t

end Sys2Proof
end

