-- ==== Sys2Proof/Machine/Ops.lean ====
section
/-! DEFINITION. The named operations over the state: the register arrays, the ports, the requests to the environment, and
the sub-operations DEBOUNCE, RAISE and EMIT that the micro-operations share. -/

namespace Sys2Proof.Machine

/-! ## The register arrays -/

/-- The index of `CELL[r][c]` (10_state.md R22). -/
def cellIndex (r c : Byte) : Nat := 256 * r.toNat + c.toNat

/-- `CELL[r][c]` (R22). -/
def State.cell (s : State) (r c : Byte) : Line := Table.get Line.reset s.cells (cellIndex r c)

/-- `GPIOL[i]` (R23). -/
def State.gpioLine (s : State) (i : Byte) : Line := Table.get Line.reset s.gpioLines i.toNat

/-- `ENC[e]` (R24). -/
def State.enc (s : State) (e : Byte) : Enc := Table.get Enc.reset s.encs e.toNat

/-- `EXP[d]` (R25). -/
def State.exp (s : State) (d : Byte) : Exp := Table.get Exp.reset s.exps d.toNat

/-- The time stamp of lane `b` (R25). -/
def Exp.laneTs (x : Exp) (b : BitVec 4) : Word := x.ts[b.toNat]

/-- Lane `b` of an expander (R25). -/
def Exp.lane (x : Exp) (b : BitVec 4) : Line :=
  ⟨x.last16.getLsbD b.toNat, x.conf16.getLsbD b.toNat, x.laneTs b⟩

/-- The expander with lane `b` replaced. -/
def Exp.setLane (x : Exp) (b : BitVec 4) (l : Line) : Exp :=
  ⟨setBit16 x.last16 b l.raw, setBit16 x.conf16 b l.conf, x.ts.set b.toNat l.ts⟩

/-- `ROW_PIN[i]` (R32). -/
def HostCfg.rowPinAt (c : HostCfg) (i : Byte) : Byte := Table.get 0xFF#8 c.rowPin i.toNat
/-- `COL_PIN[i]` (R32). -/
def HostCfg.colPinAt (c : HostCfg) (i : Byte) : Byte := Table.get 0xFF#8 c.colPin i.toNat
/-- `GPIO_PIN[i]` (R32). -/
def HostCfg.gpioPinAt (c : HostCfg) (i : Byte) : Byte := Table.get 0xFF#8 c.gpioPin i.toNat
/-- `ENC_PIN_A[i]` (R32). -/
def HostCfg.encPinAAt (c : HostCfg) (i : Byte) : Byte := Table.get 0xFF#8 c.encPinA i.toNat
/-- `ENC_PIN_B[i]` (R32). -/
def HostCfg.encPinBAt (c : HostCfg) (i : Byte) : Byte := Table.get 0xFF#8 c.encPinB i.toNat
/-- `ENC_PIN_BTN[i]` (R32). -/
def HostCfg.encPinBtnAt (c : HostCfg) (i : Byte) : Byte := Table.get 0xFF#8 c.encPinBtn i.toNat
/-- `EXP_CFG[i]` (R34). -/
def HostCfg.expCfgAt (c : HostCfg) (i : Byte) : ExpCfg := Table.get ExpCfg.reset c.expCfg i.toNat
/-- `ENC_DIVISOR[i]` (R34). -/
def HostCfg.encDivisorAt (c : HostCfg) (i : Byte) : BitVec 3 := Table.get 4#3 c.encDivisor i.toNat

/-- `ENC[e] <- x`. -/
def setEnc (e : Byte) (x : Enc) (s : State) : State :=
  { s with encs := Table.put Enc.reset s.encs e.toNat x }

/-- `EXP[d] <- x`. -/
def setExp (d : Byte) (x : Exp) (s : State) : State :=
  { s with exps := Table.put Exp.reset s.exps d.toNat x }

/-- `GPIOL[i] <- l`. -/
def setGpioLine (i : Byte) (l : Line) (s : State) : State :=
  { s with gpioLines := Table.put Line.reset s.gpioLines i.toNat l }

/-- `CELL[r][c] <- l`. -/
def setCell (r c : Byte) (l : Line) (s : State) : State :=
  { s with cells := Table.put Line.reset s.cells (cellIndex r c) l }

/-- `COL_LATCH[c]` (R29). -/
def State.latchedLevel (s : State) (c : Nat) : Level := Table.get false s.colLatch c

/-- `COL_LATCH[c] <- l`. -/
def setColLatch (c : Nat) (l : Level) (s : State) : State :=
  { s with colLatch := Table.put false s.colLatch c l }

/-- The line that a reference names. -/
def State.line (s : State) : LineRef → Line
  | .cell r c    => s.cell r c
  | .gpio i      => s.gpioLine i
  | .encBtn e    => (s.enc e).btn
  | .expLane d b => (s.exp d).lane b

/-- The line that a reference names, replaced. -/
def setLine (ref : LineRef) (l : Line) (s : State) : State :=
  match ref with
  | .cell r c    => setCell r c l s
  | .gpio i      => setGpioLine i l s
  | .encBtn e    => setEnc e { s.enc e with btn := l } s
  | .expLane d b => setExp d ((s.exp d).setLane b l) s

/-- `f 0`, then `f 1`, ... then `f (n - 1)`: the spec's loops "ascending" over indices below `n`. -/
def forAsc (n : Nat) (f : Nat → State → State) (s : State) : State :=
  match n with
  | 0 => s
  | n + 1 => f n (forAsc n f s)

/-! ## The ports -/

/-- Return a response (30_encoding.md R106). -/
def respond (st : Status) (data : Word) (s : State) : State :=
  { s with out := .response st data :: s.out }

/-- Issue a request that has no answer and no state of the environment the model keeps (00_scope.md R12). -/
def request (r : Request) (s : State) : State :=
  { s with out := .request r :: s.out }

/-- Present a record on the event port and wait (60_exceptions.md R290). -/
def present (rec : BitVec 32) (s : State) : State :=
  { s with evt := some rec, out := .record rec :: s.out }

/-! ## Requests to the environment (00_scope.md R12) -/

/-- The pin `p` as the block has set it (10_state.md R40 (a)). -/
def State.pin (s : State) (p : Byte) : PinDrive := Table.get PinDrive.reset s.env.pins p.toNat

/-- `PinMode(p, m)`. -/
def pinMode (p : Byte) (m : PinMode) (s : State) : State :=
  request (.pinMode p m)
    { s with env.pins := Table.put PinDrive.reset s.env.pins p.toNat { s.pin p with mode := some m } }

/-- `PinWrite(p, l)`. -/
def pinWrite (p : Byte) (l : Level) (s : State) : State :=
  request (.pinWrite p l)
    { s with env.pins := Table.put PinDrive.reset s.env.pins p.toNat { s.pin p with level := some l } }

/-- The answer to the `k`-th `PinRead` from now, 0 the next: as scripted, then free (log 1). -/
def Env.pinAnswer (e : Env) (k : Nat) : Level :=
  match e.pinIn[k]? with
  | some l => l
  | none => Config.freePin (e.draws + (k - e.pinIn.length))

/-- The environment after one `PinRead`. -/
def Env.afterPin (e : Env) : Env :=
  match e.pinIn with
  | _ :: r => { e with pinIn := r }
  | [] => { e with draws := e.draws + 1 }

/-- The state after `PinRead(p)`; what it answers is `s.env.pinAnswer 0`. -/
def pinRead (p : Byte) (s : State) : State :=
  request (.pinRead p) { s with env := s.env.afterPin }

/-- The answer to the next `Now` (R9). -/
def Env.nowAnswer (e : Env) : Word :=
  match e.nowIn with
  | t :: _ => t
  | [] => Config.freeNow e.draws

/-- The environment after one `Now`. -/
def Env.afterNow (e : Env) : Env :=
  match e.nowIn with
  | _ :: r => { e with nowIn := r }
  | [] => { e with draws := e.draws + 1 }

/-- The state after `Now()`; what it answers is `s.env.nowAnswer`. -/
def now (s : State) : State :=
  request .now { s with env := s.env.afterNow }

/-- The answer to the `k`-th `BusEnd` from now, 0 the next: as scripted, then free (log 1). -/
def Env.endAnswer (e : Env) (k : Nat) : Byte :=
  match e.endIn[k]? with
  | some st => st
  | none => Config.freeStatus (e.draws + (k - e.endIn.length))

/-- The environment after one `BusEnd`. -/
def Env.afterEnd (e : Env) : Env :=
  match e.endIn with
  | _ :: r => { e with endIn := r }
  | [] => { e with draws := e.draws + 1 }

/-- `call.status <- BusEnd()`. -/
def busEnd (s : State) : State :=
  request .busEnd { s with env := s.env.afterEnd, call.status := s.env.endAnswer 0 }

/-- The environment after one `BusAvail`. -/
def Env.afterAvail (e : Env) : Env :=
  match e.availIn with
  | _ :: r => { e with availIn := r }
  | [] => { e with draws := e.draws + 1 }

/-- The answer to the next `BusRead`. -/
def Env.byteAnswer (e : Env) : Byte :=
  match e.byteIn with
  | b :: _ => b
  | [] => Config.freeByte e.draws

/-- The environment after one `BusRead`. -/
def Env.afterByte (e : Env) : Env :=
  match e.byteIn with
  | _ :: r => { e with byteIn := r }
  | [] => { e with draws := e.draws + 1 }

/-- The state after `BusRead()`; what it answers is `s.env.byteAnswer`. -/
def busRead (s : State) : State :=
  request .busRead { s with env := s.env.afterByte }

/-! ## Bus frames (30_encoding.md R109, 45_expander.md R200 to R202) -/

/-- The two `BusRead` of a frame whose data has arrived (R202). -/
def takeBytes (s : State) : State :=
  let s1 := busRead s
  let s2 := busRead s1
  { s2 with call.read := .ok s.env.byteAnswer s1.env.byteAnswer }

/-- The wait of BF_READ2 (R206) with the answers `avail` of `BusAvail` still scripted: availability is asked first, the
time second, and the limit is strict. Where no answer is scripted, the rest of the wait is one free outcome, as R206
allows; a limit of `0xFFFFFFFF` cannot be exceeded (70_reset_and_hazards.md R347). DESIGN CHOICE (log 9), safe. -/
def waitData (w0 : Word) (avail : List Byte) (s : State) : State :=
  match avail with
  | n :: rest =>
    let s1 := request .busAvail { s with env.availIn := rest }
    if 2 ≤ n.toNat then takeBytes s1
    else
      let s2 := now s1
      if exceeds s1.env.nowAnswer w0 s.params.expTimeoutMs then { s2 with call.read := .timeout n }
      else waitData w0 rest s2
  | [] =>
    let s1 := request .busAvail { s with env.draws := s.env.draws + 1 }
    if Config.freeWaitReady s.env.draws || s.params.expTimeoutMs == 0xFFFFFFFF#32 then takeBytes s1
    else
      let s2 := request .now s1
      { s2 with call.read := .timeout (if Config.freeWaitOne s.env.draws then 1#8 else 0#8) }

/-- BF_WRITE_REG (R200). -/
def writeRegFrame (a : BitVec 7) (r v : Byte) (s : State) : State :=
  busEnd (request (.busWrite v) (request (.busWrite r) (request (.busBegin a) s)))

/-- BF_SET_POINTER (R201). -/
def setPointerFrame (a : BitVec 7) (r : Byte) (s : State) : State :=
  busEnd (request (.busWrite r) (request (.busBegin a) s))

/-- BF_READ2 (R202). -/
def read2Frame (a : BitVec 7) (s : State) : State :=
  let s1 := request (.busRequest a 2) s
  let s2 := now s1
  waitData s1.env.nowAnswer s2.env.availIn s2

/-! ## DEBOUNCE, RAISE, EMIT -/

/-- DEBOUNCE on the operands in `call` (41_debounce.md R140, R141, R143): `now` is `t_cycle` and the interval is
`DEBOUNCE_MS` for every line. -/
def debounceOp (s : State) : State :=
  let d := debounceLine (s.line s.call.line) s.call.raw s.tCycle s.cfg.debounceMs
  setLine s.call.line d.1 { s with call.toggled := d.2 }

/-- DEBOUNCE called with its operands. -/
def callDebounce (ref : LineRef) (raw : Bool) (s : State) : State :=
  debounceOp { s with call.line := ref, call.raw := raw }

/-- The channel's enable bit (10_state.md R31). -/
def State.enabled (s : State) (ch : Channel) : Bool := s.cfg.evtEnable.getLsbD ch.bit

/-- The record of an event: the error channel carries profile 0 (60_exceptions.md R290). -/
def State.recordOf (s : State) (ch : Channel) (a b : Byte) (v : BitVec 4) : BitVec 32 :=
  evtWord ch.code (if ch = .error then 0#8 else s.cfg.activeProfile) a b v

/-- EMIT on the operands in `call` (R290). -/
def emitOp (s : State) : State :=
  if s.enabled s.call.channel then
    present (s.recordOf s.call.channel s.call.evA s.call.evB s.call.evV) s
  else s

/-- EMIT called with its operands. -/
def callEmit (ch : Channel) (a b : Byte) (v : BitVec 4) (s : State) : State :=
  emitOp { s with call.channel := ch, call.evA := a, call.evB := b, call.evV := v }

/-- RAISE on the operands in `call` (R284 to R286): taking a fault, the block's one exception entry (R294). The slot is
always overwritten; a malfunction bypasses the latch `err_notified`. -/
def raiseOp (s : State) : State :=
  let k := s.call.kind
  let s1 := { s with errKind := k.toErr, errSrc := s.call.src, errCause := s.call.cause }
  if k = .encoderMalfunction then callEmit .error s.call.src s.call.cause (errorCode k) s1
  else if s.errNotified then s1
  else callEmit .error s.call.src s.call.cause (errorCode k) { s1 with errNotified := true }

/-- RAISE called with its operands. -/
def callRaise (k : FaultKind) (src cause : Byte) (s : State) : State :=
  raiseOp { s with call.kind := k, call.src := src, call.cause := cause }

/-- The return from a callback (R292, R295): the acknowledge ends the wait; its bit is discarded. An acknowledge with no
record pending does nothing. DESIGN CHOICE (log 17), safe. -/
def acknowledge (_bit : Bool) (s : State) : State := { s with evt := none }

/-- Clear the last-error slot and its report latch (47_host_commands.md R265, R271). -/
def clearSlot (s : State) : State :=
  { s with errKind := .none, errSrc := 0#8, errCause := 0#8, errNotified := false }

/-- One poll of a line (42_matrix.md R153, 43_gpio.md R165, 44_quadrature.md R182, 45_expander.md R209): DEBOUNCE; on a
toggle `activity <- 1` (46_update_cycle.md R240) and EMIT with the new confirmed state. -/
def pollLine (ref : LineRef) (raw : Bool) (ch : Channel) (a b : Byte) (s : State) : State :=
  let s1 := callDebounce ref raw s
  if s1.call.toggled then callEmit ch a b (toggleCode (s1.line ref).conf) { s1 with activity := true } else s1

/-- After `pollLine`: its event was presented, so the micro-operation is suspended until the acknowledge (R290). -/
def State.suspended (s : State) (ch : Channel) : Bool := s.call.toggled && s.enabled ch

/-- Put a task at the front of the work list. -/
def pushTask (t : Task) (s : State) : State := { s with todo := t :: s.todo }

/-- A micro-operation of a sequence (46_update_cycle.md R232, 47_host_commands.md R265), with the item it works on. -/
def uopTask (code : BitVec 5) (item : Option Byte) : Task := .op .uop5 (uopWord code) item

/-- Back to U_IDLE: `busy <- 0; phase <- U_IDLE; ix <- 0; jx <- 0` (46_update_cycle.md R230, 47_host_commands.md R265). -/
def goIdle (s : State) : State := { s with busy := false, phase := 0#5, ix := 0#8, jx := 0#8 }

/-- The block's part of the state as after `rst`; the environment, the host's further actions and what has been issued
stay (70_reset_and_hazards.md R330, R332). -/
def resetBlock (s : State) : State :=
  { State.reset with params := s.params, host := s.host, env := s.env, out := s.out }

/-! ## `rst` in the middle of a micro-operation (70_reset_and_hazards.md R332, 93_implementation_defined.md U29) -/

/-- The environment after the request `r`: the pin is set, or an answer is taken (00_scope.md R12). -/
def Env.after (r : Request) (e : Env) : Env :=
  match r with
  | .pinMode p m =>
    { e with pins := Table.put PinDrive.reset e.pins p.toNat { Table.get PinDrive.reset e.pins p.toNat with mode := some m } }
  | .pinWrite p l =>
    { e with pins := Table.put PinDrive.reset e.pins p.toNat { Table.get PinDrive.reset e.pins p.toNat with level := some l } }
  | .pinRead _ => e.afterPin
  | .now => e.afterNow
  | .busEnd => e.afterEnd
  | .busAvail => e.afterAvail
  | .busRead => e.afterByte
  | .waitMicros _ | .busBegin _ | .busWrite _ | .busRequest _ _ => e

/-- The environment after the requests in `l`, oldest first. `ending` says that the request before was a `BusAvail` with
no scripted answer: the `Now` of that free ending takes no scripted time (log 9). -/
def Env.served (ending : Bool) (l : List Out) (e : Env) : Env :=
  match l with
  | [] => e
  | .request r :: rest =>
    Env.served (decide (r = .busAvail) && e.availIn.isEmpty) rest (if ending && decide (r = .now) then e else e.after r)
  | .response _ _ :: rest => Env.served false rest e
  | .record _ :: rest => Env.served false rest e

/-- What is issued on the way from `s` to `u`, oldest first. -/
def issuedBetween (s u : State) : List Out := (u.out.take (u.out.length - s.out.length)).reverse

/-- `rst` in the middle of the move that takes `s` to `u`, after the first `k` of what the move issues: those stay issued,
the environment is as they left it, and of everything else the move did nothing is left (R330, R332; log 24). -/
def resetAfter (k : Nat) (s u : State) : State :=
  let l := (issuedBetween s u).take k
  resetBlock { s with env := s.env.served false l, out := l.reverse ++ s.out }

end Sys2Proof.Machine
end

