-- ==== Sys2Proof/Machine/Operands.lean ====
section
/-! DEFINITION. The operands: how an address (reg, i, j) names a host register and how its fields lie in the 32-bit datum
(10_state.md R30 to R39), and the slot list of U_VALIDATE (47_host_commands.md R266). -/

namespace Sys2Proof.Machine

/-- A host register with its indices (10_state.md R30 to R39). -/
inductive HostReg where
  | ctrl
  | debounceMs
  | encDebounceMs
  | psTimeoutMs
  | profileCount
  | activeProfile
  | numRows
  | numCols
  | numGpio
  | numEnc
  | numExp
  | evtEnable
  | rowPin (i : Byte)
  | colPin (i : Byte)
  | gpioPin (i : Byte)
  | encPinA (i : Byte)
  | encPinB (i : Byte)
  | encPinBtn (i : Byte)
  | expCfg (i : Byte)
  | encDivisor (i : Byte)
  | encPosition (i : Byte)
  | status
  | error
  | tActivity
  | tCycle
  | matCell (i j : Byte)
  | matTs (i j : Byte)
  | gpioLine (i : Byte)
  | gpioTs (i : Byte)
  | encState (i : Byte)
  | encErrCnt (i : Byte)
  | encSpeed (i : Byte)
  | encTChange (i : Byte)
  | encTSpeed (i : Byte)
  | encBtn (i : Byte)
  | encBtnTs (i : Byte)
  | expLast (i : Byte)
  | expConf (i : Byte)
  | expTs (i : Byte) (b : BitVec 4)
deriving DecidableEq, Repr

/-- A register without an index: `i` and `j` must be 0 (R33). -/
def scalarReg (i j : Byte) (r : HostReg) : Option HostReg := if i = 0#8 ∧ j = 0#8 then some r else none

/-- A register with one index below `limit`: `j` must be 0 (R32, R33). -/
def indexedReg (limit i j : Byte) (r : HostReg) : Option HostReg :=
  if i.toNat < limit.toNat ∧ j = 0#8 then some r else none

/-- A register with two indices (R33, R39). -/
def doubleReg (limitI limitJ : Nat) (i j : Byte) (r : HostReg) : Option HostReg :=
  if i.toNat < limitI ∧ j.toNat < limitJ then some r else none

/-- The register that (reg, i, j) names, if it names one (R30 to R39). -/
def resolve (p : Params) (reg i j : Byte) : Option HostReg :=
  match reg.toNat with
  | 0x00 => scalarReg i j .ctrl
  | 0x01 => scalarReg i j .debounceMs
  | 0x02 => scalarReg i j .encDebounceMs
  | 0x03 => scalarReg i j .psTimeoutMs
  | 0x04 => scalarReg i j .profileCount
  | 0x05 => scalarReg i j .activeProfile
  | 0x06 => scalarReg i j .numRows
  | 0x07 => scalarReg i j .numCols
  | 0x08 => scalarReg i j .numGpio
  | 0x09 => scalarReg i j .numEnc
  | 0x0A => scalarReg i j .numExp
  | 0x0B => scalarReg i j .evtEnable
  | 0x10 => indexedReg p.maxRows i j (.rowPin i)
  | 0x11 => indexedReg p.maxCols i j (.colPin i)
  | 0x12 => indexedReg p.maxGpio i j (.gpioPin i)
  | 0x13 => indexedReg p.maxEnc i j (.encPinA i)
  | 0x14 => indexedReg p.maxEnc i j (.encPinB i)
  | 0x15 => indexedReg p.maxEnc i j (.encPinBtn i)
  | 0x16 => indexedReg p.maxExp i j (.expCfg i)
  | 0x17 => indexedReg p.maxEnc i j (.encDivisor i)
  | 0x18 => indexedReg p.maxEnc i j (.encPosition i)
  | 0x20 => scalarReg i j .status
  | 0x21 => scalarReg i j .error
  | 0x22 => scalarReg i j .tActivity
  | 0x23 => scalarReg i j .tCycle
  | 0x30 => doubleReg p.maxRows.toNat p.maxCols.toNat i j (.matCell i j)
  | 0x31 => doubleReg p.maxRows.toNat p.maxCols.toNat i j (.matTs i j)
  | 0x32 => indexedReg p.maxGpio i j (.gpioLine i)
  | 0x33 => indexedReg p.maxGpio i j (.gpioTs i)
  | 0x34 => indexedReg p.maxEnc i j (.encState i)
  | 0x35 => indexedReg p.maxEnc i j (.encErrCnt i)
  | 0x36 => indexedReg p.maxEnc i j (.encSpeed i)
  | 0x37 => indexedReg p.maxEnc i j (.encTChange i)
  | 0x38 => indexedReg p.maxEnc i j (.encTSpeed i)
  | 0x39 => indexedReg p.maxEnc i j (.encBtn i)
  | 0x3A => indexedReg p.maxEnc i j (.encBtnTs i)
  | 0x3B => indexedReg p.maxExp i j (.expLast i)
  | 0x3C => indexedReg p.maxExp i j (.expConf i)
  | 0x3D => doubleReg p.maxExp.toNat 16 i j (.expTs i (j.truncate 4))
  | _ => none

/-- A state read-back register (R39) or `ENC_POSITION`: what a racing RD leaves unspecified (R36). -/
def HostReg.racy : HostReg → Bool
  | .encPosition _ | .matCell .. | .matTs .. | .gpioLine _ | .gpioTs _ | .encState _ | .encErrCnt _ | .encSpeed _
  | .encTChange _ | .encTSpeed _ | .encBtn _ | .encBtnTs _ | .expLast _ | .expConf _ | .expTs .. => true
  | .ctrl | .debounceMs | .encDebounceMs | .psTimeoutMs | .profileCount | .activeProfile | .numRows | .numCols
  | .numGpio | .numEnc | .numExp | .evtEnable | .rowPin _ | .colPin _ | .gpioPin _ | .encPinA _ | .encPinB _
  | .encPinBtn _ | .expCfg _ | .encDivisor _ | .status | .error | .tActivity | .tCycle => false

/-- A structural register (R37). -/
def HostReg.structural : HostReg → Bool
  | .profileCount | .numRows | .numCols | .numGpio | .numEnc | .numExp | .rowPin _ | .colPin _ | .gpioPin _
  | .encPinA _ | .encPinB _ | .encPinBtn _ | .expCfg _ => true
  | .ctrl | .debounceMs | .encDebounceMs | .psTimeoutMs | .activeProfile | .evtEnable | .encDivisor _
  | .encPosition _ | .status | .error | .tActivity | .tCycle | .matCell .. | .matTs .. | .gpioLine _ | .gpioTs _
  | .encState _ | .encErrCnt _ | .encSpeed _ | .encTChange _ | .encTSpeed _ | .encBtn _ | .encBtnTs _ | .expLast _
  | .expConf _ | .expTs .. => false

/-- The DebouncedLine bits as a datum: [0] `raw`, [1] `conf` (R39). -/
def Line.bits (l : Line) : Word := 0#30 ++ BitVec.ofBool l.conf ++ BitVec.ofBool l.raw

/-- STATUS (R38). -/
def State.statusWord (s : State) : Word :=
  s.jx ++ s.ix ++ 0#3 ++ s.phase ++ 0#3 ++ BitVec.ofBool s.activity ++ BitVec.ofBool s.errNotified ++
    BitVec.ofBool s.psMode ++ BitVec.ofBool s.busy ++ BitVec.ofBool s.initialized

/-- ERROR (R38). -/
def State.errorWord (s : State) : Word := 0#8 ++ s.errSrc ++ s.errCause ++ 0#5 ++ s.errKind.code

/-- EXP_CFG (R34). -/
def ExpCfg.bits (c : ExpCfg) : Word :=
  0#22 ++ BitVec.ofBool c.useInt ++ BitVec.ofBool c.usePullups ++ 0#1 ++ c.addr

/-- ENC_STATE (R39). -/
def Enc.stateBits (x : Enc) : Word :=
  0#24 ++ BitVec.ofBool x.malReported ++ BitVec.ofBool x.valid ++ x.lastDir.code ++ x.pendingDir.code ++ x.lastState

/-- `REG(reg, i, j)`: the datum of a register, its fields as R30 to R39 lay them out. -/
def regValue (r : HostReg) (s : State) : Word :=
  match r with
  | .ctrl          => (BitVec.ofBool s.cfg.psEnable).zeroExtend 32
  | .debounceMs    => s.cfg.debounceMs
  | .encDebounceMs => s.cfg.encDebounceMs
  | .psTimeoutMs   => s.cfg.psTimeoutMs
  | .profileCount  => s.cfg.profileCount.zeroExtend 32
  | .activeProfile => s.cfg.activeProfile.zeroExtend 32
  | .numRows       => s.cfg.numRows.zeroExtend 32
  | .numCols       => s.cfg.numCols.zeroExtend 32
  | .numGpio       => s.cfg.numGpio.zeroExtend 32
  | .numEnc        => s.cfg.numEnc.zeroExtend 32
  | .numExp        => s.cfg.numExp.zeroExtend 32
  | .evtEnable     => s.cfg.evtEnable.zeroExtend 32
  | .rowPin i      => (s.cfg.rowPinAt i).zeroExtend 32
  | .colPin i      => (s.cfg.colPinAt i).zeroExtend 32
  | .gpioPin i     => (s.cfg.gpioPinAt i).zeroExtend 32
  | .encPinA i     => (s.cfg.encPinAAt i).zeroExtend 32
  | .encPinB i     => (s.cfg.encPinBAt i).zeroExtend 32
  | .encPinBtn i   => (s.cfg.encPinBtnAt i).zeroExtend 32
  | .expCfg i      => (s.cfg.expCfgAt i).bits
  | .encDivisor i  => (s.cfg.encDivisorAt i).zeroExtend 32
  | .encPosition i => (s.enc i).position
  | .status        => s.statusWord
  | .error         => s.errorWord
  | .tActivity     => s.tActivity
  | .tCycle        => s.tCycle
  | .matCell i j   => (s.cell i j).bits
  | .matTs i j     => (s.cell i j).ts
  | .gpioLine i    => (s.gpioLine i).bits
  | .gpioTs i      => (s.gpioLine i).ts
  | .encState i    => (s.enc i).stateBits
  | .encErrCnt i   => (s.enc i).errorCount
  | .encSpeed i    => (s.enc i).speed
  | .encTChange i  => (s.enc i).tChange
  | .encTSpeed i   => (s.enc i).tSpeed
  | .encBtn i      => (s.enc i).btn.bits
  | .encBtnTs i    => (s.enc i).btn.ts
  | .expLast i     => (s.exp i).last16.zeroExtend 32
  | .expConf i     => (s.exp i).conf16.zeroExtend 32
  | .expTs i b     => (s.exp i).laneTs b

/-- A count, if it is at most its capacity (R30). -/
def legalCount (limit : Byte) (imm : Word) : Option Byte :=
  let v : Byte := imm.extractLsb' 0 8
  if v.toNat ≤ limit.toNat then some v else none

/-- `REG(reg, i, j) <- field bits of imm`; `none` where the register is read-only or the field value is not legal (R30 to
R39, 47_host_commands.md R264). Bits above the field are ignored. -/
def writeReg (r : HostReg) (imm : Word) (s : State) : Option State :=
  let v8 : Byte := imm.extractLsb' 0 8
  match r with
  | .ctrl          => some { s with cfg.psEnable := imm.getLsbD 0 }
  | .debounceMs    => some { s with cfg.debounceMs := imm }
  | .encDebounceMs => some { s with cfg.encDebounceMs := imm }
  | .psTimeoutMs   => some { s with cfg.psTimeoutMs := imm }
  | .profileCount  => some { s with cfg.profileCount := v8 }
  | .activeProfile =>
      if s.initialized = true ∧ s.cfg.profileCount.toNat ≤ v8.toNat then none else some { s with cfg.activeProfile := v8 }
  | .numRows       => (legalCount s.params.maxRows imm).map fun n => { s with cfg.numRows := n }
  | .numCols       => (legalCount s.params.maxCols imm).map fun n => { s with cfg.numCols := n }
  | .numGpio       => (legalCount s.params.maxGpio imm).map fun n => { s with cfg.numGpio := n }
  | .numEnc        => (legalCount s.params.maxEnc imm).map fun n => { s with cfg.numEnc := n }
  | .numExp        => (legalCount s.params.maxExp imm).map fun n => { s with cfg.numExp := n }
  | .evtEnable     => some { s with cfg.evtEnable := imm.extractLsb' 0 6 }
  | .rowPin i      => some { s with cfg.rowPin := Table.put 0xFF#8 s.cfg.rowPin i.toNat v8 }
  | .colPin i      => some { s with cfg.colPin := Table.put 0xFF#8 s.cfg.colPin i.toNat v8 }
  | .gpioPin i     => some { s with cfg.gpioPin := Table.put 0xFF#8 s.cfg.gpioPin i.toNat v8 }
  | .encPinA i     => some { s with cfg.encPinA := Table.put 0xFF#8 s.cfg.encPinA i.toNat v8 }
  | .encPinB i     => some { s with cfg.encPinB := Table.put 0xFF#8 s.cfg.encPinB i.toNat v8 }
  | .encPinBtn i   => some { s with cfg.encPinBtn := Table.put 0xFF#8 s.cfg.encPinBtn i.toNat v8 }
  | .expCfg i      =>
      some { s with cfg.expCfg := Table.put ExpCfg.reset s.cfg.expCfg i.toNat
                                    ⟨imm.extractLsb' 0 7, imm.getLsbD 8, imm.getLsbD 9⟩ }
  | .encDivisor i  =>
      let d : BitVec 3 := imm.extractLsb' 0 3
      if 1 ≤ d.toNat ∧ d.toNat ≤ 4 then
        some { s with cfg.encDivisor := Table.put 4#3 s.cfg.encDivisor i.toNat d }
      else none
  | .encPosition i => some (setEnc i { s.enc i with position := imm } s)
  | .status | .error | .tActivity | .tCycle | .matCell .. | .matTs .. | .gpioLine _ | .gpioTs _ | .encState _
  | .encErrCnt _ | .encSpeed _ | .encTChange _ | .encTSpeed _ | .encBtn _ | .encBtnTs _ | .expLast _ | .expConf _
  | .expTs .. => none

/-! ## The operands of U_VALIDATE (47_host_commands.md R266) -/

/-- A slot of the slot list: the register number of its table, its index, its pin (R266). -/
structure Slot where
  table : Byte
  index : Nat
  pin   : Byte
deriving DecidableEq, Repr

/-- The first `n` slots of a pin table. -/
def slotsOf (table n : Byte) (pinAt : Byte → Byte) : List Slot :=
  (List.range n.toNat).map fun k => ⟨table, k, pinAt (BitVec.ofNat 8 k)⟩

/-- The slot list (R266). -/
def HostCfg.slots (c : HostCfg) : List Slot :=
  slotsOf 0x10#8 c.numRows c.rowPinAt ++ slotsOf 0x11#8 c.numCols c.colPinAt ++
  slotsOf 0x12#8 c.numGpio c.gpioPinAt ++ slotsOf 0x13#8 c.numEnc c.encPinAAt ++
  slotsOf 0x14#8 c.numEnc c.encPinBAt ++
  (slotsOf 0x15#8 c.numEnc c.encPinBtnAt).filter (fun x => x.pin != 0xFF#8)

/-- The first slot whose pin is not valid (R266, check 5). -/
def firstInvalid (valid : BitVec 256) : List Slot → Option Slot
  | [] => none
  | x :: r => if valid.getLsbD x.pin.toNat then firstInvalid valid r else some x

/-- The first slot whose pin is one of `seen` or of an earlier slot (R266, check 6). -/
def firstConflict (seen : List Byte) : List Slot → Option Slot
  | [] => none
  | x :: r => if x.pin ∈ seen then some x else firstConflict (x.pin :: seen) r

/-- Two of the addresses are equal (R266, check 4). -/
def someEqual : List (BitVec 7) → Bool
  | [] => false
  | a :: r => decide (a ∈ r) || someEqual r

/-- The addresses of the configured devices (R266, check 4). -/
def HostCfg.expAddrs (c : HostCfg) : List (BitVec 7) :=
  (List.range c.numExp.toNat).map fun k => (c.expCfgAt (BitVec.ofNat 8 k)).addr

/-- The fault of the first failing check of R266, with its `src` and `cause`; `none` where all pass. -/
def validateFault (p : Params) (c : HostCfg) : Option (FaultKind × Byte × Byte) :=
  if c.profileCount = 0#8 then some (.invalidConfig, 0#8, 1#8)
  else if c.profileCount.toNat ≤ c.activeProfile.toNat then some (.invalidConfig, 0#8, 2#8)
  else if (c.numRows == 0#8) != (c.numCols == 0#8) then some (.invalidConfig, 0#8, 3#8)
  else if someEqual c.expAddrs then some (.invalidConfig, 0#8, 4#8)
  else match firstInvalid p.pinValid c.slots with
    | some x => some (.invalidPin, x.table, BitVec.ofNat 8 x.index)
    | none => match firstConflict [] c.slots with
      | some x => some (.pinConflict, x.table, BitVec.ofNat 8 x.index)
      | none => none

end Sys2Proof.Machine
end

