-- ==== Sys2Proof/Machine/BeginUops.lean ====
section
/-! DEFINITION. U_IDLE (46_update_cycle.md R246) and the micro-operations of BEGIN that set up the block
(47_host_commands.md R266 to R268, 45_expander.md R204). -/

namespace Sys2Proof.Machine

/-- U_IDLE (R246): nothing. -/
def execUIdle (s : State) : Host.Outcome State Fault Refusal := .next s

/-- U_VALIDATE (R266): the first failing check raises its fault; the result says whether all passed. -/
def execUValidate (s : State) : Host.Outcome State Fault Refusal :=
  match validateFault s.params s.cfg with
  | some (k, src, cause) => .next (callRaise k src cause { s with call.valid := false })
  | none => .next { s with call.valid := true }

/-- A matrix row as BEGIN and U_PS_EXIT leave it: an output, driven inactive (R267, 46_update_cycle.md R242). -/
def driveRowInactive (s : State) (r : Nat) : State :=
  let p := s.cfg.rowPinAt (BitVec.ofNat 8 r)
  pinWrite p true (pinMode p .output s)

/-- U_PININIT (R267). -/
def pinInit (s : State) : State :=
  let s1 := forAsc s.cfg.numRows.toNat (fun r t => driveRowInactive t r) s
  let s2 := forAsc s.cfg.numCols.toNat (fun c t => pinMode (t.cfg.colPinAt (BitVec.ofNat 8 c)) .inputPullup t) s1
  let s3 := forAsc s.cfg.numGpio.toNat (fun i t => pinMode (t.cfg.gpioPinAt (BitVec.ofNat 8 i)) .inputPullup t) s2
  forAsc s.cfg.numEnc.toNat (fun e t =>
    let k := BitVec.ofNat 8 e
    let t2 := pinMode (t.cfg.encPinBAt k) .inputPullup (pinMode (t.cfg.encPinAAt k) .inputPullup t)
    if t.cfg.encPinBtnAt k = 0xFF#8 then t2 else pinMode (t.cfg.encPinBtnAt k) .inputPullup t2) s3

/-- U_PININIT (R267). -/
def execUPinInit (s : State) : Host.Outcome State Fault Refusal := .next (pinInit s)

/-- An encoder record as BEGIN leaves it (R268): the state read from the pins, everything else fresh. -/
def freshEnc (state : BitVec 2) (t0 : Word) : Enc :=
  { Enc.reset with lastState := state, tChange := t0, tSpeed := t0, btn := ⟨false, false, t0⟩ }

/-- The encoder `e` of U_STATEINIT (R268): its two pins are read, A before B. -/
def initEnc (e : Byte) (s : State) : State :=
  let s1 := pinRead (s.cfg.encPinAAt e) s
  let s2 := pinRead (s.cfg.encPinBAt e) s1
  setEnc e (freshEnc (encState (s.env.pinAnswer 0) (s1.env.pinAnswer 0)) s.tCycle) s2

/-- U_STATEINIT (R268). -/
def stateInit (s : State) : State :=
  let fresh : Line := ⟨false, false, s.tCycle⟩
  let s1 := forAsc s.cfg.numRows.toNat (fun r t =>
    forAsc s.cfg.numCols.toNat (fun c u => setCell (BitVec.ofNat 8 r) (BitVec.ofNat 8 c) fresh u) t) s
  let s2 := forAsc s.cfg.numGpio.toNat (fun i t => setGpioLine (BitVec.ofNat 8 i) fresh t) s1
  let s3 := forAsc s.cfg.numExp.toNat (fun d t =>
    setExp (BitVec.ofNat 8 d) ⟨0#16, 0#16, Vector.replicate 16 s.tCycle⟩ t) s2
  forAsc s.cfg.numEnc.toNat (fun e t => initEnc (BitVec.ofNat 8 e) t) s3

/-- U_STATEINIT (R268). -/
def execUStateInit (s : State) : Host.Outcome State Fault Refusal := .next (stateInit s)

/-- The condition of an initialisation write (45_expander.md R203). -/
def InitCond.holds (c : InitCond) (x : ExpCfg) : Bool :=
  match c with
  | .always      => true
  | .ifPullups   => x.usePullups
  | .ifInterrupt => x.useInt

/-- The writes of the initialisation table (R204), up to the first that fails: BusError, and the rest is skipped. -/
def expInitWrites (d : Byte) (x : ExpCfg) (writes : List InitWrite) (s : State) : State :=
  match writes with
  | [] => s
  | w :: rest =>
    if InitCond.holds w.cond x then
      let s1 := writeRegFrame x.addr w.reg w.value s
      if s1.call.status = 0#8 then expInitWrites d x rest s1 else callRaise .busError d s1.call.status s1
    else expInitWrites d x rest s

/-- U_EXP_INIT (R204) of the device `ix`. -/
def execUExpInit (s : State) : Host.Outcome State Fault Refusal :=
  .next (expInitWrites s.ix (s.cfg.expCfgAt s.ix) s.params.expInit s)

end Sys2Proof.Machine
end

