-- ==== Sys2Proof/Machine/EncoderUops.lean ====
section
/-! DEFINITION. The quadrature decoder (44_quadrature.md R172 to R182). -/

namespace Sys2Proof.Machine

/-- `commit` after its rotation event (R179, R180): `valid` is recomputed and a malfunction is reported once. -/
def commitRest (s : State) : State :=
  let x := s.enc s.ix
  let ok := underThreshold s.params x.errorCount
  if !ok && !x.malReported then
    callRaise .encoderMalfunction s.ix 0#8 (setEnc s.ix { x with valid := ok, malReported := true } s)
  else setEnc s.ix { x with valid := ok } s

/-- `commit(e, d)` (R179) of the encoder `ix`. Where the rotation event is presented the rest waits on the work list for
the acknowledge. -/
def commit (d : Dir) (s : State) : State :=
  let x := s.enc s.ix
  let inc := positionStep (s.cfg.encDivisorAt s.ix)
  let s1 := setEnc s.ix { x with position := movePosition x.position d inc, lastDir := d, pendingDir := .none } s
  let s2 := callEmit .encRotate s.ix 0#8 (rotateCode d) { s1 with activity := true }
  if s2.enabled .encRotate then pushTask .commitRest s2 else commitRest s2

/-- `speed_idle(e)` (R173) on a record. -/
def speedIdle (p : Params) (t : Word) (x : Enc) : Enc :=
  if exceeds t x.tSpeed p.speedIdleTimeoutMs then { x with speed := 0#32 } else x

/-- A state change that passes the gate, before it is classified (R174, R181). -/
def acceptChange (t : Word) (cur : BitVec 2) (x : Enc) : Enc :=
  { x with speed := speedAfter (elapsed t x.tChange) x.speed, tSpeed := t, lastState := cur, tChange := t }

/-- The gate of R172 is closed: the encoder debounce interval has not yet elapsed. -/
def gateClosed (s : State) (x : Enc) : Bool :=
  decide ((elapsed s.tCycle x.tChange).toNat < s.cfg.encDebounceMs.toNat)

/-- U_ENC_STEP (R172) of the encoder `ix`. -/
def encStep (s : State) : State :=
  let x := s.enc s.ix
  if gateClosed s x then s
  else
    let s1 := pinRead (s.cfg.encPinAAt s.ix) s
    let s2 := pinRead (s.cfg.encPinBAt s.ix) s1
    let cur := encState (s.env.pinAnswer 0) (s1.env.pinAnswer 0)
    let y := acceptChange s.tCycle cur x
    match classify x.lastState cur with
    | .same    => setEnc s.ix (speedIdle s.params s.tCycle x) s2
    | .illegal => setEnc s.ix { y with errorCount := bumpErrors x.errorCount } s2
    | .legal d =>
      let s3 := setEnc s.ix { y with pendingDir := d } s2
      if cur = s.params.encSettleState ∧ x.pendingDir = d then commit d s3 else s3

/-- U_ENC_STEP (R172). -/
def execUEncStep (s : State) : Host.Outcome State Fault Refusal := .next (encStep s)

/-- U_ENC_BTN (R182): nothing without a button, else one poll of its line with the inverted level. -/
def execUEncBtn (s : State) : Host.Outcome State Fault Refusal :=
  let p := s.cfg.encPinBtnAt s.ix
  if p = 0xFF#8 then .next s
  else .next (pollLine (.encBtn s.ix) (!s.env.pinAnswer 0) .encButton s.ix 0#8 (pinRead p s))

end Sys2Proof.Machine
end

