-- ==== Sys2Proof/Machine/Events.lean ====
section
/-! DEFINITION. The six event records (30_encoding.md R110). The meaning of a record is that it is presented on the event
port and waits for its acknowledge (60_exceptions.md R290). DEDUCED (log 19). -/

namespace Sys2Proof.Machine

/-- EV_MATRIX (42_matrix.md R153). -/
def execEvMatrix (profile a b : Byte) (v : BitVec 4) (s : State) : Host.Outcome State Fault Refusal :=
  .next (present (evtWord Channel.matrix.code profile a b v) s)

/-- EV_GPIO (43_gpio.md R165). -/
def execEvGpio (profile a b : Byte) (v : BitVec 4) (s : State) : Host.Outcome State Fault Refusal :=
  .next (present (evtWord Channel.gpio.code profile a b v) s)

/-- EV_ENC_ROTATE (44_quadrature.md R179). -/
def execEvEncRotate (profile a b : Byte) (v : BitVec 4) (s : State) : Host.Outcome State Fault Refusal :=
  .next (present (evtWord Channel.encRotate.code profile a b v) s)

/-- EV_ENC_BUTTON (44_quadrature.md R182). -/
def execEvEncButton (profile a b : Byte) (v : BitVec 4) (s : State) : Host.Outcome State Fault Refusal :=
  .next (present (evtWord Channel.encButton.code profile a b v) s)

/-- EV_EXPANDER (45_expander.md R209). -/
def execEvExpander (profile a b : Byte) (v : BitVec 4) (s : State) : Host.Outcome State Fault Refusal :=
  .next (present (evtWord Channel.expander.code profile a b v) s)

/-- EV_ERROR (60_exceptions.md R284). -/
def execEvError (profile a b : Byte) (v : BitVec 4) (s : State) : Host.Outcome State Fault Refusal :=
  .next (present (evtWord Channel.error.code profile a b v) s)

end Sys2Proof.Machine
end

