-- ==== Sys2Proof/Machine/ExpanderUops.lean ====
section
/-! DEFINITION. The expander bus driver in the update cycle (45_expander.md R205, R209) and the three bus frames as
operations of their own (R200 to R202). -/

namespace Sys2Proof.Machine

/-- BF_WRITE_REG (R200). -/
def execBfWriteReg (a : BitVec 7) (r v : Byte) (s : State) : Host.Outcome State Fault Refusal :=
  .next (writeRegFrame a r v s)

/-- BF_SET_POINTER (R201). -/
def execBfSetPointer (a : BitVec 7) (r : Byte) (s : State) : Host.Outcome State Fault Refusal :=
  .next (setPointerFrame a r s)

/-- BF_READ2 (R202). -/
def execBfRead2 (a : BitVec 7) (s : State) : Host.Outcome State Fault Refusal := .next (read2Frame a s)

/-- U_EXP_READ (R205) of the device `ix`. The first byte is port A, bits 7:0 (20_memory.md R74). -/
def expRead (s : State) : State :=
  let a := (s.cfg.expCfgAt s.ix).addr
  let s1 := setPointerFrame a s.params.expRegs.gpioa { s with expOk := false }
  if s1.call.status = 0#8 then
    let s2 := read2Frame a s1
    match s2.call.read with
    | .timeout n => callRaise .timeoutError s.ix n s2
    | .ok b0 b1  => { s2 with expWord := b1 ++ b0, expOk := true }
  else callRaise .busError s.ix s1.call.status s1

/-- U_EXP_READ (R205). -/
def execUExpRead (s : State) : Host.Outcome State Fault Refusal := .next (expRead s)

/-- U_EXP_DEB (R209) with `n` of the 16 lanes left: `jx <- b`, one poll of the lane with the inverted bit. Where its
event is presented the rest waits on the work list for the acknowledge. -/
def expDebFrom (n : Nat) (s : State) : State :=
  match n with
  | 0 => s
  | n + 1 =>
    let b := 16 - (n + 1)
    let jb : Byte := BitVec.ofNat 8 b
    let s1 := pollLine (.expLane s.ix (BitVec.ofNat 4 b)) (!s.expWord.getLsbD b) .expander s.ix jb { s with jx := jb }
    if s1.suspended .expander then pushTask (.expLanes n) s1 else expDebFrom n s1

/-- U_EXP_DEB (R209): nothing after a failed read (R208). -/
def execUExpDeb (s : State) : Host.Outcome State Fault Refusal :=
  if s.expOk then .next (expDebFrom 16 s) else .next s

end Sys2Proof.Machine
end

