-- ==== Sys2Proof/Machine/HostCommands.lean ====
section
/-! DEFINITION. The seven host commands (47_host_commands.md R261 to R271, 46_update_cycle.md R230, R245). -/

namespace Sys2Proof.Machine

/-- NOP (R261). -/
def execNop (s : State) : Host.Outcome State Fault Refusal := .next (respond .ok 0#32 s)

/-- What RD leaves unspecified (10_state.md R36, 20_memory.md R82): a racy register while the engine is busy and no
record is pending. -/
def racingRead (r : HostReg) (s : State) : Bool := r.racy && s.busy && s.evt.isNone

/-- RD (R263). A racing read takes a free value. DESIGN CHOICE (log 8), safe. -/
def execRd (reg i j : Byte) (s : State) : Host.Outcome State Fault Refusal :=
  match resolve s.params reg i j with
  | none => .next (respond .error 0#32 s)
  | some r =>
    if racingRead r s then
      .next (respond .ok (Config.freeRead s.env.draws) { s with env.draws := s.env.draws + 1 })
    else .next (respond .ok (regValue r s) s)

/-- WR (R264): refused while busy; an address that names no writable register or an illegal value is an ERROR; a
structural register clears `initialized` (10_state.md R37). -/
def execWr (reg i j : Byte) (imm : Word) (s : State) : Host.Outcome State Fault Refusal :=
  if s.busy then .next (respond .busy 0#32 s)
  else
    match resolve s.params reg i j with
    | none => .next (respond .error 0#32 s)
    | some r =>
      match writeReg r imm s with
      | none => .next (respond .error 0#32 s)
      | some t => .next (respond .ok 0#32 (if r.structural then { t with initialized := false } else t))

/-- BEGIN (R265) up to U_VALIDATE; the rest follows on the work list. The earlier result of U_VALIDATE is dropped
(log 7). -/
def execBeginCmd (s : State) : Host.Outcome State Fault Refusal :=
  if s.busy then .next (respond .busy 0#32 s)
  else
    let s1 := clearSlot { s with busy := true, initialized := false }
    let s2 := now { s1 with tCycle := s.env.nowAnswer, call.valid := false }
    .next { s2 with todo := [uopTask 0x01#5 none, .afterValidate] ++ s.todo }

/-- An accepted TRY_UPDATE (R230, R231): the update cycle begins; U_PSCHK and the rest follow on the work list. -/
def acceptUpdate (s : State) : State :=
  let s1 := now { s with busy := true, activity := false, tCycle := s.env.nowAnswer }
  { s1 with todo := [uopTask 0x05#5 none, .afterGate] ++ s.todo }

/-- TRY_UPDATE (R230): ERROR while not initialised, BUSY while an update is in flight, else one update cycle, whose end
returns the response. -/
def execTryUpdate (s : State) : Host.Outcome State Fault Refusal :=
  if !s.initialized then .next (respond .error 0#32 s)
  else if s.busy then .next (respond .busy 0#32 s)
  else .next (acceptUpdate s)

/-- UPDATE (R245): as TRY_UPDATE, but where that would return BUSY the command stays pending, without a response. -/
def execUpdate (s : State) : Host.Outcome State Fault Refusal :=
  if !s.initialized then .next (respond .error 0#32 s)
  else if s.busy then .next { s with updWait := s.updWait + 1 }
  else .next (acceptUpdate s)

/-- CLEAR_ERROR (R271), whatever `busy` is. -/
def execClearError (s : State) : Host.Outcome State Fault Refusal := .next (respond .ok 0#32 (clearSlot s))

end Sys2Proof.Machine
end

