-- ==== Sys2Proof/Machine/InputUops.lean ====
section
/-! DEFINITION. The matrix scanner (42_matrix.md R152, R153) and the GPIO reader (43_gpio.md R165). -/

namespace Sys2Proof.Machine

/-- `COL_LATCH[c] <- PinRead(COL_PIN[c])` (R152). -/
def latchColumn (c : Nat) (s : State) : State :=
  setColLatch c (s.env.pinAnswer 0) (pinRead (s.cfg.colPinAt (BitVec.ofNat 8 c)) s)

/-- U_MAT_ROW (R152): drive the row active, wait, latch the columns, restore the row. -/
def matRow (s : State) : State :=
  let p := s.cfg.rowPinAt s.ix
  let s1 := request (.waitMicros s.params.matrixSettleUs) (pinWrite p false s)
  let s2 := forAsc s.cfg.numCols.toNat latchColumn s1
  pinWrite p true s2

/-- U_MAT_ROW (R152). -/
def execUMatRow (s : State) : Host.Outcome State Fault Refusal := .next (matRow s)

/-- U_MAT_DEB (R153) with `n` columns left: `jx <- c`, one poll of the cell with the inverted latch. Where its event is
presented the rest waits on the work list for the acknowledge. -/
def matDebFrom (n : Nat) (s : State) : State :=
  match n with
  | 0 => s
  | n + 1 =>
    let c := s.cfg.numCols.toNat - (n + 1)
    let cb : Byte := BitVec.ofNat 8 c
    let s1 := pollLine (.cell s.ix cb) (!s.latchedLevel c) .matrix s.ix cb { s with jx := cb }
    if s1.suspended .matrix then pushTask (.matCols n) s1 else matDebFrom n s1

/-- U_MAT_DEB (R153). -/
def execUMatDeb (s : State) : Host.Outcome State Fault Refusal := .next (matDebFrom s.cfg.numCols.toNat s)

/-- U_GPIO (R165): one poll of line `ix` with the inverted level. -/
def execUGpio (s : State) : Host.Outcome State Fault Refusal :=
  .next (pollLine (.gpio s.ix) (!s.env.pinAnswer 0) .gpio s.ix 0#8 (pinRead (s.cfg.gpioPinAt s.ix) s))

end Sys2Proof.Machine
end

