-- ==== Sys2Proof/Machine/PowerUops.lean ====
section
/-! DEFINITION. The power-save gate and the end of a cycle (46_update_cycle.md R234, R235, R241, R242). -/

namespace Sys2Proof.Machine

/-- U_PSCHK (R234): its result is "skip" or "poll". -/
def execUPsChk (s : State) : Host.Outcome State Fault Refusal := .next { s with call.skip := gateSkips s }

/-- U_PS_ENTER (R235): the rows are released, then PowerSaving. -/
def psEnter (s : State) : State :=
  let s1 := forAsc s.cfg.numRows.toNat (fun r t => pinMode (t.cfg.rowPinAt (BitVec.ofNat 8 r)) .input t) s
  { s1 with psMode := true }

/-- U_PS_ENTER (R235). -/
def execUPsEnter (s : State) : Host.Outcome State Fault Refusal := .next (psEnter s)

/-- U_PS_EXIT (R242): the rows are restored, then Awake. -/
def psExit (s : State) : State :=
  let s1 := forAsc s.cfg.numRows.toNat (fun r t => driveRowInactive t r) s
  { s1 with psMode := false }

/-- U_FIN (R241): after a cycle with a confirmed change the idle timer restarts and PowerSaving ends. U_PS_EXIT runs
inside, with its own code in `phase` (10_state.md R26). DEDUCED (log 11). -/
def execUFin (s : State) : Host.Outcome State Fault Refusal :=
  if s.activity then
    let s1 := { s with tActivity := s.tCycle }
    .next (if s.psMode then psExit { s1 with phase := 0x0F#5 } else s1)
  else .next s

/-- U_PS_EXIT (R242). -/
def execUPsExit (s : State) : Host.Outcome State Fault Refusal := .next (psExit s)

end Sys2Proof.Machine
end

