-- ==== Sys2Proof/Machine/SubOps.lean ====
section
/-! DEFINITION. The three sub-operations as operations of their own, on the operands in `State.call` (41_debounce.md
R141, 60_exceptions.md R284, R290). -/

namespace Sys2Proof.Machine

/-- DEBOUNCE (R141). -/
def execDebounce (s : State) : Host.Outcome State Fault Refusal := .next (debounceOp s)

/-- RAISE (R284). -/
def execRaise (s : State) : Host.Outcome State Fault Refusal := .next (raiseOp s)

/-- EMIT (R290). -/
def execEmit (s : State) : Host.Outcome State Fault Refusal := .next (emitOp s)

end Sys2Proof.Machine
end

