-- ==== Sys2Proof/Machine/Dispatch.lean ====
section
/-! DEFINITION. exec: one arm per operation of spec/opcode_table.json, one direct call each. -/

namespace Sys2Proof.Machine

def exec (i : Instr) (s : State) : Host.Outcome State Fault Refusal :=
  match i with
  | .nop => Sys2Proof.Machine.execNop s
  | .rd reg i1 i2 => Sys2Proof.Machine.execRd reg i1 i2 s
  | .wr reg i1 i2 imm => Sys2Proof.Machine.execWr reg i1 i2 imm s
  | .beginCmd => Sys2Proof.Machine.execBeginCmd s
  | .tryUpdate => Sys2Proof.Machine.execTryUpdate s
  | .update => Sys2Proof.Machine.execUpdate s
  | .clearError => Sys2Proof.Machine.execClearError s
  | .uIdle => Sys2Proof.Machine.execUIdle s
  | .uValidate => Sys2Proof.Machine.execUValidate s
  | .uPinInit => Sys2Proof.Machine.execUPinInit s
  | .uStateInit => Sys2Proof.Machine.execUStateInit s
  | .uExpInit => Sys2Proof.Machine.execUExpInit s
  | .uPsChk => Sys2Proof.Machine.execUPsChk s
  | .uPsEnter => Sys2Proof.Machine.execUPsEnter s
  | .uExpRead => Sys2Proof.Machine.execUExpRead s
  | .uExpDeb => Sys2Proof.Machine.execUExpDeb s
  | .uMatRow => Sys2Proof.Machine.execUMatRow s
  | .uMatDeb => Sys2Proof.Machine.execUMatDeb s
  | .uGpio => Sys2Proof.Machine.execUGpio s
  | .uEncStep => Sys2Proof.Machine.execUEncStep s
  | .uEncBtn => Sys2Proof.Machine.execUEncBtn s
  | .uFin => Sys2Proof.Machine.execUFin s
  | .uPsExit => Sys2Proof.Machine.execUPsExit s
  | .debounce => Sys2Proof.Machine.execDebounce s
  | .raise => Sys2Proof.Machine.execRaise s
  | .emit => Sys2Proof.Machine.execEmit s
  | .bfWriteReg a r v => Sys2Proof.Machine.execBfWriteReg a r v s
  | .bfSetPointer a r => Sys2Proof.Machine.execBfSetPointer a r s
  | .bfRead2 a => Sys2Proof.Machine.execBfRead2 a s
  | .evMatrix profile a b v => Sys2Proof.Machine.execEvMatrix profile a b v s
  | .evGpio profile a b v => Sys2Proof.Machine.execEvGpio profile a b v s
  | .evEncRotate profile a b v => Sys2Proof.Machine.execEvEncRotate profile a b v s
  | .evEncButton profile a b v => Sys2Proof.Machine.execEvEncButton profile a b v s
  | .evExpander profile a b v => Sys2Proof.Machine.execEvExpander profile a b v s
  | .evError profile a b v => Sys2Proof.Machine.execEvError profile a b v s

end Sys2Proof.Machine
end

