-- ==== Sys2Proof/Machine/Sequencer.lean ====
section
/-! DEFINITION. What the block does next: which agent moves, the fixed sequences of an update cycle (46_update_cycle.md
R232) and of BEGIN (47_host_commands.md R265), and where a word is fetched. -/

namespace Sys2Proof.Machine

/-- One move of the block. -/
inductive Move where
  /-- The word `w` of format `f` was fetched; the rest of the state is `s`. -/
  | fetch (f : Fmt) (w : BitVec 64) (s : State)
  /-- The move is complete: a host action without a word, a stall, or the rest of a suspended micro-operation. -/
  | settled (s : State)
  /-- The move `m` of the engine from `s`, cut short by `rst` after the first `k` of what it issues. -/
  | cut (k : Nat) (m : Move) (s : State)
deriving DecidableEq, Repr

/-- For `k = 0 .. n - 1`: `ix <- k` before each of the micro-operations `codes` (R232). -/
def itemTasks (n : Byte) (codes : List (BitVec 5)) : List Task :=
  (List.range n.toNat).flatMap fun k => codes.map fun c => uopTask c (some (BitVec.ofNat 8 k))

/-- The cycle after U_PSCHK said "poll" (R232, R236 to R239): expanders, matrix if Awake, GPIO, encoders, U_FIN. -/
def pollTasks (s : State) : List Task :=
  itemTasks s.cfg.numExp [0x07#5, 0x08#5] ++
  (if s.psMode then [] else itemTasks s.cfg.numRows [0x09#5, 0x0A#5]) ++
  itemTasks s.cfg.numGpio [0x0B#5] ++
  itemTasks s.cfg.numEnc [0x0C#5, 0x0D#5] ++
  [uopTask 0x0E#5 none, .cycleEnd]

/-- The cycle after U_PSCHK said "skip": U_PS_ENTER and nothing else (R232). -/
def skipTasks : List Task := [uopTask 0x06#5 none, .cycleEnd]

/-- BEGIN after U_VALIDATE said "ok" (R265, R269). -/
def beginTasks (s : State) : List Task :=
  [uopTask 0x02#5 none, uopTask 0x03#5 none] ++ itemTasks s.cfg.numExp [0x04#5] ++ [.beginEnd]

/-- Before an operation of the work list runs: `ix <- item` if it has one, and `phase` takes the code unless it is that
of a sub-operation (10_state.md R26, 30_encoding.md R108). -/
def loadSequencer (f : Fmt) (w : BitVec 64) (item : Option Byte) (s : State) : State :=
  { s with ix := item.getD s.ix
           phase := if f = .uop5 ∧ w.toNat < 16 then w.extractLsb' 0 5 else s.phase }

/-- The engine goes on with the task `t`, already taken from the work list of `s`. -/
def taskMove (t : Task) (s : State) : Move :=
  match t with
  | .op f w item   => .fetch f w (loadSequencer f w item s)
  | .matCols n     => .settled (matDebFrom n s)
  | .expLanes n    => .settled (expDebFrom n s)
  | .commitRest    => .settled (commitRest s)
  | .afterGate     =>
    .settled (if s.call.skip then { s with todo := skipTasks ++ s.todo } else { s with todo := pollTasks s ++ s.todo })
  | .afterValidate =>
    .settled (if s.call.valid then { s with todo := beginTasks s ++ s.todo } else respond .error 0#32 (goIdle s))
  | .beginEnd      =>
    .settled (respond .ok 0#32 (goIdle
      { s with psMode := false, activity := false, tActivity := s.tCycle, initialized := true }))
  | .cycleEnd      => .settled (respond .ok 0#32 (goIdle s))

/-- The engine's move. While a record waits for its acknowledge it is stalled (60_exceptions.md R290). With nothing to do
it takes a waiting UPDATE (46_update_cycle.md R245), else it is in U_IDLE (R246). -/
def engineMove (s : State) : Move :=
  if s.evt.isSome then .settled s
  else
    match s.todo with
    | t :: rest => taskMove t { s with todo := rest }
    | [] =>
      if s.updWait ≠ 0 ∧ s.busy = false then
        .fetch .cmd64 (encode .update).2 { s with updWait := s.updWait - 1 }
      else .fetch .uop5 (encode .uIdle).2 s

/-- The host that waits has something to do: the block is idle with no UPDATE waiting, or it presents a record. -/
def State.answersHost (s : State) : Bool := s.evt.isSome || (!s.busy && s.updWait == 0)

/-- The next move: the host's next action, or the engine's move (log 4), which `rst` may cut short (log 24). -/
def nextMove (s : State) : Move :=
  match s.host with
  | []            => engineMove s
  | .pass :: h    => engineMove { s with host := h }
  | .await :: h   => if s.answersHost then .settled { s with host := h } else engineMove s
  | .cmd w :: h   => .fetch .cmd64 w { s with host := h }
  | .ack bit :: h => .settled (acknowledge bit { s with host := h })
  | .rst :: h     => .settled (resetBlock { s with host := h })
  | .rstAfter k :: h => .cut k (engineMove { s with host := h }) { s with host := h }

/-- A fetched word that names no operation: a reserved command word is answered ERROR and changes nothing
(30_encoding.md R105); any other reserved code the block never holds (log 13). -/
def rejectWord (f : Fmt) (s : State) : Host.Outcome State Fault Refusal :=
  match f with
  | .cmd64 => .next (respond .error 0#32 s)
  | .uop5 | .bfW2 | .bfW1 | .bfR2 | .evt32 => .fault .reservedCode

/-- The word `w` of format `f` put where the next step fetches it: a command word on the command port, anything else at
the front of the engine's work list, with no record pending and the host passing (log 5). -/
def placeWord (f : Fmt) (w : BitVec 64) (s : State) : State :=
  match f with
  | .cmd64 => { s with host := .cmd w :: s.host }
  | .uop5 | .bfW2 | .bfW1 | .bfR2 | .evt32 =>
    { s with host := .pass :: s.host, evt := none, todo := .op f w none :: s.todo }

end Sys2Proof.Machine
end

