-- ==== Sys2Proof/Machine/Moves.lean ====
section
/-! DEFINITION. What a move does: a fetched word is decoded and run; a move that `rst` cuts short leaves the block reset. -/

namespace Sys2Proof.Machine

/-- A fetched word is decoded and run. -/
def runWord (f : Fmt) (w : BitVec 64) (s : State) : Host.Outcome State Fault Refusal :=
  match decode f w with
  | .ok i => exec i s
  | .error _ => rejectWord f s

/-- One move. Where the move that `rst` cuts short would stop with a fault (log 13), `rst` comes before it issues anything
(log 24). -/
def runMove (m : Move) : Host.Outcome State Fault Refusal :=
  match m with
  | .settled s => .next s
  | .fetch f w s => runWord f w s
  | .cut k m s =>
    match runMove m with
    | .next u => .next (resetAfter k s u)
    | .fault _ => .next (resetBlock s)
    | .refused _ => .next (resetBlock s)

end Sys2Proof.Machine
end

