-- ==== Sys2Proof/Machine/Step.lean ====
section
/-! DEFINITION. One step of the machine, and where a test puts the word that the next step runs. -/

namespace Sys2Proof.Machine

/-- One step: one move of the host or of the engine (Machine/Sequencer.lean, Machine/Moves.lean). -/
def step (s : State) : Host.Outcome State Fault Refusal := runMove (nextMove s)

/-- `s` with the table word `w` of `nbits` bits placed where the next step fetches (log 5). -/
def State.withFetchWord (s : State) (nbits w : Nat) : State :=
  match fmtOf nbits w with
  | some f => placeWord f (BitVec.ofNat 64 w) s
  | none => s

end Sys2Proof.Machine
end

