-- ==== Sys2Proof/Safety.lean ====
section
/-! DEFINITION. What counts as a state the block can be in: the invariants that claims are stated with. Each is kept by
every step; together they rule out the states that no run reaches. After them, the terms that claims about single
operations are stated in, written from the spec's own words and not from the meanings. -/

namespace Sys2Proof.Safety

open Sys2Proof.Machine

/-- Every register array is in its one canonical form (Machine/Table.lean). -/
def Canonical (s : State) : Prop :=
  Table.wf Line.reset s.cells = true ∧ Table.wf Line.reset s.gpioLines = true ∧ Table.wf Enc.reset s.encs = true ∧
  Table.wf Exp.reset s.exps = true ∧ Table.wf false s.colLatch = true ∧ Table.wf PinDrive.reset s.env.pins = true ∧
  Table.wf 0xFF#8 s.cfg.rowPin = true ∧ Table.wf 0xFF#8 s.cfg.colPin = true ∧ Table.wf 0xFF#8 s.cfg.gpioPin = true ∧
  Table.wf 0xFF#8 s.cfg.encPinA = true ∧ Table.wf 0xFF#8 s.cfg.encPinB = true ∧
  Table.wf 0xFF#8 s.cfg.encPinBtn = true ∧ Table.wf ExpCfg.reset s.cfg.expCfg = true ∧
  Table.wf 4#3 s.cfg.encDivisor = true

/-- A task that ends the work list: the two ends of a command and the two branch points (46_update_cycle.md R232,
47_host_commands.md R265). -/
def Closing : Task → Prop
  | .afterGate | .afterValidate | .beginEnd | .cycleEnd => True
  | .op .. | .matCols _ | .expLanes _ | .commitRest => False

/-- A task inside a sequence: a micro-operation that `phase` can hold (30_encoding.md R108), or the rest of one. -/
def Inner : Task → Prop
  | .op f w _ => f = .uop5 ∧ w.toNat < 16
  | .matCols _ | .expLanes _ | .commitRest => True
  | .afterGate | .afterValidate | .beginEnd | .cycleEnd => False

/-- The sequencer and the work list agree (10_state.md R26, 46_update_cycle.md R246): idle, nothing is left to do, no
record is pending and `phase`, `ix`, `jx` are 0; busy, the work list is micro-operations and one closing task. -/
def Coherent (s : State) : Prop :=
  (s.busy = false → s.todo = [] ∧ s.evt = none ∧ s.phase = 0#5 ∧ s.ix = 0#8 ∧ s.jx = 0#8) ∧
  (s.busy = true → ∃ pre last, s.todo = pre ++ [last] ∧ Closing last ∧ ∀ t ∈ pre, Inner t)

/-- The configuration registers hold legal values (10_state.md R30, R34): no count above its capacity, every divisor 1 to
4, and `ACTIVE_PROFILE < PROFILE_COUNT` while initialised. -/
def ConfigLegal (s : State) : Prop :=
  s.cfg.numRows.toNat ≤ s.params.maxRows.toNat ∧ s.cfg.numCols.toNat ≤ s.params.maxCols.toNat ∧
  s.cfg.numGpio.toNat ≤ s.params.maxGpio.toNat ∧ s.cfg.numEnc.toNat ≤ s.params.maxEnc.toNat ∧
  s.cfg.numExp.toNat ≤ s.params.maxExp.toNat ∧
  (∀ e, 1 ≤ (s.cfg.encDivisorAt e).toNat ∧ (s.cfg.encDivisorAt e).toNat ≤ 4) ∧
  (s.initialized = true → s.cfg.activeProfile.toNat < s.cfg.profileCount.toNat)

/-- A BEGIN that has passed validation has a legal profile (47_host_commands.md R266, check 2). -/
def BeginSound (s : State) : Prop :=
  (s.busy = true → s.call.valid = true → s.cfg.activeProfile.toNat < s.cfg.profileCount.toNat) ∧
  (Task.beginEnd ∈ s.todo → s.cfg.activeProfile.toNat < s.cfg.profileCount.toNat)

/-- The last-error slot (10_state.md R28, 60_exceptions.md R283): never ExpanderFault, and all zero while it is None. -/
def SlotLegal (s : State) : Prop :=
  s.errKind ≠ .expanderFault ∧ (s.errKind = .none → s.errSrc = 0#8 ∧ s.errCause = 0#8)

/-- An encoder that is not valid has had its malfunction reported (44_quadrature.md R179, R180). -/
def MalfunctionLatched (s : State) : Prop :=
  ∀ e, (s.enc e).valid = false → (s.enc e).malReported = true

/-- The pending record is one that the block produces (30_encoding.md R110). -/
def RecordLegal (s : State) : Prop :=
  ∀ w, s.evt = some w → ∃ i, decodeEvt w = .ok i ∧ i.wf = true

/-- All of it. -/
structure Inv (s : State) : Prop where
  coherent    : Coherent s
  canonical   : Canonical s
  config      : ConfigLegal s
  beginSound  : BeginSound s
  slot        : SlotLegal s
  malfunction : MalfunctionLatched s
  record      : RecordLegal s

/-- RAISE(k, src, cause) takes `s` to `t` (60_exceptions.md R284 to R286): the slot is overwritten; a record is presented if
the latch allows it and the error channel is enabled; nothing else changes but the operands of the calls (log 7). -/
def Raised (k : FaultKind) (src cause : Byte) (s t : State) : Prop :=
  let w := evtWord 6#4 0#8 src cause (0#1 ++ k.toErr.code)
  t.errKind = k.toErr ∧ t.errSrc = src ∧ t.errCause = cause ∧
  t.errNotified = (s.errNotified || decide (k ≠ .encoderMalfunction)) ∧
  (if (k = .encoderMalfunction ∨ s.errNotified = false) ∧ s.cfg.evtEnable.getLsbD 5 = true then
    t.evt = some w ∧ t.out = .record w :: s.out
   else t.evt = s.evt ∧ t.out = s.out) ∧
  t.call = { s.call with kind := t.call.kind, src := t.call.src, cause := t.call.cause, channel := t.call.channel,
                         evA := t.call.evA, evB := t.call.evB, evV := t.call.evV } ∧
  t = { s with errKind := t.errKind, errSrc := t.errSrc, errCause := t.errCause, errNotified := t.errNotified,
               evt := t.evt, out := t.out, call := t.call }

/-- One poll of the line `ref` with the logical reading `r` takes `s` to `t` (41_debounce.md R141, 46_update_cycle.md
R240, 60_exceptions.md R290): the line is debounced with `t_cycle` and `DEBOUNCE_MS`; on a toggle `activity` is set and
the record of channel `ch` with `a`, `b` and the new confirmed state is presented if the channel is enabled. Nothing else
changes but the operands and results of the calls (log 7). -/
def Polled (ref : LineRef) (r : Bool) (ch : Channel) (a b : Byte) (s t : State) : Prop :=
  let d := debounceLine (s.line ref) r s.tCycle s.cfg.debounceMs
  let w := evtWord ch.code s.cfg.activeProfile a b (0#3 ++ BitVec.ofBool d.1.conf)
  t.line ref = d.1 ∧ (∀ q, q ≠ ref → t.line q = s.line q) ∧
  (∀ e, t.enc e = { s.enc e with btn := (t.enc e).btn }) ∧
  t.activity = (s.activity || d.2) ∧
  (if d.2 = true ∧ s.cfg.evtEnable.getLsbD ch.bit = true then t.evt = some w ∧ t.out = .record w :: s.out
   else t.evt = s.evt ∧ t.out = s.out) ∧
  t.call.toggled = d.2 ∧
  t.call = { s.call with line := t.call.line, raw := t.call.raw, toggled := t.call.toggled, channel := t.call.channel,
                         evA := t.call.evA, evB := t.call.evB, evV := t.call.evV } ∧
  t = { s with cells := t.cells, gpioLines := t.gpioLines, encs := t.encs, exps := t.exps, activity := t.activity,
               evt := t.evt, out := t.out, call := t.call }

/-- What successive polls of one line report: the `toggled` results of DEBOUNCE on the readings `(now, r)`
(41_debounce.md R144). -/
def toggles (interval : Word) (l : Line) : List (Word × Bool) → List Bool
  | [] => []
  | (t, r) :: rest =>
    let d := debounceLine l r t interval
    d.2 :: toggles interval d.1 rest

/-! ## Terms of the claims about single operations -/

/-- `i` completes and does nothing but return a response (30_encoding.md R106). -/
def Answers (i : Instr) (s : State) (st : Status) (d : Word) : Prop :=
  exec i s = .next { s with out := .response st d :: s.out }

/-- RD of (reg, i, j) returns `d`. -/
def Reads (s : State) (reg i j : Byte) (d : Word) : Prop := Answers (.rd reg i j) s .ok d

/-- WR of `imm` to (reg, i, j) is accepted and leaves `t`, to which only the response is added. -/
def Writes (s : State) (reg i j : Byte) (imm : Word) (t : State) : Prop :=
  exec (.wr reg i j imm) s = .next { t with out := .response .ok 0#32 :: t.out }

/-- The indices of a table with one index below `limit`: `j` must be 0 (10_state.md R32, R33). -/
def OneIndex (limit i j : Byte) : Prop := i.toNat < limit.toNat ∧ j = 0#8

/-- (reg, i, j) is the address of a register, by the tables of 10_state.md R30, R32, R34, R35, R38, R39 and the index
rule R33. -/
def Named (p : Params) (reg i j : Byte) : Prop :=
  (reg.toNat ≤ 0x0B ∧ i = 0#8 ∧ j = 0#8) ∨
  (0x20 ≤ reg.toNat ∧ reg.toNat ≤ 0x23 ∧ i = 0#8 ∧ j = 0#8) ∨
  (reg = 0x10#8 ∧ OneIndex p.maxRows i j) ∨
  (reg = 0x11#8 ∧ OneIndex p.maxCols i j) ∨
  ((reg = 0x12#8 ∨ reg = 0x32#8 ∨ reg = 0x33#8) ∧ OneIndex p.maxGpio i j) ∨
  ((0x13 ≤ reg.toNat ∧ reg.toNat ≤ 0x15 ∨ reg = 0x17#8 ∨ reg = 0x18#8 ∨ 0x34 ≤ reg.toNat ∧ reg.toNat ≤ 0x3A) ∧
    OneIndex p.maxEnc i j) ∨
  ((reg = 0x16#8 ∨ reg = 0x3B#8 ∨ reg = 0x3C#8) ∧ OneIndex p.maxExp i j) ∨
  ((reg = 0x30#8 ∨ reg = 0x31#8) ∧ i.toNat < p.maxRows.toNat ∧ j.toNat < p.maxCols.toNat) ∨
  (reg = 0x3D#8 ∧ i.toNat < p.maxExp.toNat ∧ j.toNat < 16)

/-- `ENC_POSITION` or a state read-back register: what a racing RD leaves unspecified (10_state.md R36). -/
def ReadBack (reg : Byte) : Prop := reg = 0x18#8 ∨ 0x30 ≤ reg.toNat

/-- The command word is reserved (30_encoding.md R105): its `op` is not in R102, or a field it does not use is not zero. -/
def Reserved (w : BitVec 64) : Prop :=
  let op := (w.extractLsb' 56 8).toNat
  op ∉ [0x00, 0x01, 0x02, 0x10, 0x11, 0x12, 0x13] ∨
  (op ∈ [0x00, 0x10, 0x11, 0x12, 0x13] ∧ w.extractLsb' 0 56 ≠ 0#56) ∨
  (op = 0x01 ∧ w.extractLsb' 0 32 ≠ 0#32)

/-- What the requests `rs`, oldest first, make of the pin `p` (10_state.md R40 (a)). -/
def driveAfter (p : Byte) : List Request → PinDrive → PinDrive
  | [], d => d
  | .pinMode q m :: rs, d => driveAfter p rs (if q = p then { d with mode := some m } else d)
  | .pinWrite q l :: rs, d => driveAfter p rs (if q = p then { d with level := some l } else d)
  | .pinRead _ :: rs, d | .now :: rs, d | .waitMicros _ :: rs, d | .busBegin _ :: rs, d | .busWrite _ :: rs, d
  | .busEnd :: rs, d | .busRequest _ _ :: rs, d | .busAvail :: rs, d | .busRead :: rs, d => driveAfter p rs d

/-- From `s` to `t` exactly the requests `rs` are issued, oldest first, and nothing else comes out. -/
def Issued (rs : List Request) (s t : State) : Prop :=
  t.out = (rs.map Out.request).reverse ++ s.out ∧ ∀ p, t.pin p = driveAfter p rs (s.pin p)

/-- `n` polls in ascending order take `s` to `t`, or the first of them that presents a record, which leaves the rest of
the polls to the task `rest (n - m)` for after the acknowledge (60_exceptions.md R290; log 6). -/
def Scanned (n : Nat) (poll : Nat → State → State → Prop) (rest : Nat → Task) (s t : State) : Prop :=
  ∃ (m : Nat) (u : Nat → State), m ≤ n ∧ u 0 = s ∧ (∀ k, k < m → poll k (u k) (u (k + 1))) ∧
    (∀ k, k + 1 < m → (u (k + 1)).out = (u k).out) ∧
    ((m = n ∧ (0 < m → (u m).out = (u (m - 1)).out) ∧ t = u m) ∨
     (0 < m ∧ (u m).out ≠ (u (m - 1)).out ∧ t = { u m with todo := rest (n - m) :: (u m).todo }))

/-- The last `n` columns of U_MAT_DEB for the row `ix` (42_matrix.md R153): `jx` takes the column, and the cell is polled
with the inverted latch. -/
def MatrixScanned (n : Nat) (s t : State) : Prop :=
  Scanned n (fun k x y =>
    let c := s.cfg.numCols.toNat - (n - k)
    let cb : Byte := BitVec.ofNat 8 c
    Polled (.cell s.ix cb) (!s.latchedLevel c) .matrix s.ix cb { x with jx := cb } y) Task.matCols s t

/-- The last `n` lanes of U_EXP_DEB for the device `ix` (45_expander.md R209): `jx` takes the lane, and the lane is polled
with the inverted bit. -/
def LanesScanned (n : Nat) (s t : State) : Prop :=
  Scanned n (fun k x y =>
    let b := 16 - (n - k)
    let jb : Byte := BitVec.ofNat 8 b
    Polled (.expLane s.ix (BitVec.ofNat 4 b)) (!s.expWord.getLsbD b) .expander s.ix jb { x with jx := jb } y)
    Task.expLanes s t

/-- A clockwise quarter-step (44_quadrature.md R175). -/
def Clockwise (last cur : BitVec 2) : Prop := (last, cur) ∈ [(0#2, 1#2), (1#2, 3#2), (3#2, 2#2), (2#2, 0#2)]

/-- A quarter-step in the direction `d` (R175). -/
def QuarterStep (d : Dir) (last cur : BitVec 2) : Prop :=
  (d = .cw ∧ Clockwise last cur) ∨ (d = .ccw ∧ Clockwise cur last)

/-- The gate of U_ENC_STEP is open for the encoder `ix` (R172). -/
def GateOpen (s : State) : Prop :=
  s.cfg.encDebounceMs.toNat ≤ (s.tCycle - (s.enc s.ix).tChange).toNat

/-- The state that the two pins of the encoder `ix` will show: `{A, B}` (R171). -/
def pinsShow (s : State) : BitVec 2 := BitVec.ofBool (s.env.pinAnswer 0) ++ BitVec.ofBool (s.env.pinAnswer 1)

/-- The two pins of the encoder `ix` are read, A before B. -/
def encPinsRead (s : State) : State :=
  { s with env := s.env.afterPin.afterPin
           out := .request (.pinRead (s.cfg.encPinBAt s.ix)) :: .request (.pinRead (s.cfg.encPinAAt s.ix)) :: s.out }

/-- The record of the encoder `e` becomes `x`; nothing else changes. -/
def EncBecomes (e : Byte) (x : Enc) (s t : State) : Prop :=
  t.enc e = x ∧ (∀ k, k ≠ e → t.enc k = s.enc k) ∧ t = { s with encs := t.encs }

/-- What a state change that passes the gate writes before it is classified (R174, R181). -/
def changed (s : State) : Enc :=
  let x := s.enc s.ix
  let dt := s.tCycle - x.tChange
  { x with speed := if dt = 0#32 then x.speed else BitVec.ofNat 32 (1000 / (4 * dt.toNat))
           tSpeed := s.tCycle, lastState := pinsShow s, tChange := s.tCycle }

/-- The record of the encoder `ix` right after a commit in the direction `d`, `valid` not yet recomputed (R179). -/
def committed (d : Dir) (s : State) : Enc :=
  let x := changed s
  let inc : Word := BitVec.ofNat 32 (4 / (s.cfg.encDivisorAt s.ix).toNat)
  { x with position := if d = .cw then x.position + inc else x.position - inc, lastDir := d, pendingDir := .none }

/-- The end of a commit (R179, R180): `valid` is recomputed, and a malfunction not reported yet is raised. -/
def MalfunctionChecked (s t : State) : Prop :=
  let x := s.enc s.ix
  let ok := decide (x.errorCount.toNat < s.params.malfunctionThreshold)
  if ok = false ∧ x.malReported = false then
    ∃ u, EncBecomes s.ix { x with valid := false, malReported := true } s u ∧ Raised .encoderMalfunction s.ix 0#8 u t
  else EncBecomes s.ix { x with valid := ok } s t

/-- The responses in a trace. -/
def responses (l : List Out) : Nat :=
  (l.filter fun o => match o with | .response _ _ => true | .record _ | .request _ => false).length

/-- A host that waits for the block and acknowledges whatever it presents, `n` times (70_reset_and_hazards.md R340 (c)). -/
def acknowledging : Nat → List HostAct
  | 0 => []
  | n + 1 => .await :: .ack false :: acknowledging n

/-- The host lets the engine move: it has nothing more to do, passes once, or waits for an engine that is not idle and
presents no record (log 4). `s'` is `s` with that action taken. -/
def EngineTurn (s s' : State) : Prop :=
  (s.host = [] ∧ s' = s) ∨ (∃ h, s.host = .pass :: h ∧ s' = { s with host := h }) ∨
  (∃ h, s.host = .await :: h ∧ s.evt = none ∧ (s.busy = true ∨ s.updWait ≠ 0) ∧ s' = s)

/-- The host asserts `rst` now: between two moves of the engine, or during its next move (log 4, 24). -/
def Resets (s : State) : Prop := (∃ h, s.host = .rst :: h) ∨ ∃ k h, s.host = .rstAfter k :: h

/-- The requests among what was issued. -/
def requestsIn (l : List Out) : List Request :=
  l.filterMap fun o => match o with | .request r => some r | .response _ _ => none | .record _ => none

/-- The values of 10_state.md R41, R30, R32, R34 and 70_reset_and_hazards.md R330, element by element. -/
def AtReset (t : State) : Prop :=
  (∀ r c, t.cell r c = ⟨false, false, 0#32⟩) ∧ (∀ i, t.gpioLine i = ⟨false, false, 0#32⟩) ∧
  (∀ e, t.enc e = { lastState := 0#2, pendingDir := .none, position := 0#32, lastDir := .none, errorCount := 0#32,
                    valid := true, malReported := false, speed := 0#32, tChange := 0#32, tSpeed := 0#32,
                    btn := ⟨false, false, 0#32⟩ }) ∧
  (∀ d, (t.exp d).last16 = 0#16 ∧ (t.exp d).conf16 = 0#16 ∧ ∀ b, (t.exp d).laneTs b = 0#32) ∧
  t.phase = 0#5 ∧ t.ix = 0#8 ∧ t.jx = 0#8 ∧
  t.initialized = false ∧ t.busy = false ∧ t.psMode = false ∧ t.activity = false ∧ t.errNotified = false ∧
  t.errKind = .none ∧ t.errSrc = 0#8 ∧ t.errCause = 0#8 ∧ t.tCycle = 0#32 ∧ t.tActivity = 0#32 ∧
  (∀ c, t.latchedLevel c = false) ∧ t.expWord = 0#16 ∧ t.expOk = false ∧
  t.evt = none ∧ t.updWait = 0 ∧ t.todo = [] ∧
  t.cfg.psEnable = false ∧ t.cfg.debounceMs = 0#32 ∧ t.cfg.encDebounceMs = 0#32 ∧ t.cfg.psTimeoutMs = 0#32 ∧
  t.cfg.profileCount = 0#8 ∧ t.cfg.activeProfile = 0#8 ∧ t.cfg.numRows = 0#8 ∧ t.cfg.numCols = 0#8 ∧
  t.cfg.numGpio = 0#8 ∧ t.cfg.numEnc = 0#8 ∧ t.cfg.numExp = 0#8 ∧ t.cfg.evtEnable = 0#6 ∧
  (∀ i, t.cfg.rowPinAt i = 0xFF#8 ∧ t.cfg.colPinAt i = 0xFF#8 ∧ t.cfg.gpioPinAt i = 0xFF#8 ∧
        t.cfg.encPinAAt i = 0xFF#8 ∧ t.cfg.encPinBAt i = 0xFF#8 ∧ t.cfg.encPinBtnAt i = 0xFF#8) ∧
  (∀ d, t.cfg.expCfgAt d = ⟨0#7, false, false⟩) ∧ (∀ e, t.cfg.encDivisorAt e = 4#3)

end Sys2Proof.Safety
end

