-- ==== Sys2Proof/Certificates/Slice0/Obligations.lean ====
section
/-! DEFINITION. The statements for the provers. "Log n" is notes/assumptions/n.md. A statement that rests on a convention of
the model names its log entry; the operands and results of calls (`State.call`) are log 7, the work list (`State.todo`)
log 6, the answers of the environment (`State.env`) log 1, the trace (`State.out`, newest first) log 16. -/

section

open Sys2Proof Sys2Proof.Machine Sys2Proof.Safety

/-! ## Encoding -/

/-- Decode and encode agree on every operation, with every operand at every value (30_encoding.md R101 to R110). -/
def Obligations.DecodeOfEncode : Prop :=
  ∀ i : Instr, i.wf = true → decode (encode i).1 (encode i).2 = .ok i

/-- An operation has one word: what decodes to it is its encoding (R101 to R110). -/
def Obligations.EncodeOfDecode : Prop :=
  ∀ (f : Fmt) (w : BitVec 64) (i : Instr), decode f w = .ok i → encode i = (f, w)

/-- Words that the spec writes out decode to the operations they stand for (47_host_commands.md R261 to R271,
60_exceptions.md R284, R290, 30_encoding.md R108). The bus frame is the exception: R109 gives its pattern string, and that
the string is read as one number is the model's (log 12). -/
def Obligations.SpecWordsDecode : Prop :=
  decode .cmd64 0x0000000000000000#64 = .ok .nop ∧
  decode .cmd64 0x0117000000000000#64 = .ok (.rd 0x17#8 0#8 0#8) ∧
  decode .cmd64 0x0201000000000032#64 = .ok (.wr 0x01#8 0#8 0#8 50#32) ∧
  decode .cmd64 0x0210010000000003#64 = .ok (.wr 0x10#8 1#8 0#8 3#32) ∧
  decode .cmd64 0x1000000000000000#64 = .ok .beginCmd ∧
  decode .cmd64 0x1100000000000000#64 = .ok .tryUpdate ∧
  decode .cmd64 0x1200000000000000#64 = .ok .update ∧
  decode .cmd64 0x1300000000000000#64 = .ok .clearError ∧
  decode .uop5 0x0C#64 = .ok .uEncStep ∧
  decode .uop5 0x12#64 = .ok .emit ∧
  decode .bfW1 0x2012#64 = .ok (.bfSetPointer 0x20#7 0x12#8) ∧
  decode .evt32 0x10201031#64 = .ok (.evMatrix 2#8 1#8 3#8 1#4) ∧
  decode .evt32 0x30200003#64 = .ok (.evEncRotate 2#8 0#8 0#8 3#4) ∧
  decode .evt32 0x60001007#64 = .ok (.evError 0#8 1#8 0#8 7#4)

/-- A reserved command word is answered ERROR and changes nothing, whatever `busy` is; every other word is a command
(30_encoding.md R102, R103, R105). -/
def Obligations.ReservedWordsAnswerError : Prop :=
  ∀ (s : State) (w : BitVec 64) (h : List HostAct),
    (Reserved w → step { s with host := .cmd w :: h } = .next { s with host := h, out := .response .error 0#32 :: s.out }) ∧
    (¬ Reserved w → ∃ i, decode .cmd64 w = .ok i)

/-! ## The step -/

/-- A step runs the decoded word: a command word from the host as it stands; a word of the work list after `ix` has taken
the item and `phase` the code of a micro-operation (10_state.md R26); with nothing to do, the oldest waiting UPDATE (46_update_cycle.md
R245), else U_IDLE (R246). The form of the lists is the model's (log 4, 6, 10). -/
def Obligations.StepRunsTheDecodedWord : Prop :=
  (∀ (s : State) (w : BitVec 64) (h : List HostAct) (i : Instr), s.host = .cmd w :: h → decode .cmd64 w = .ok i →
    step s = exec i { s with host := h }) ∧
  (∀ (s s' : State) (f : Fmt) (w : BitVec 64) (item : Option Byte) (rest : List Task) (i : Instr), EngineTurn s s' →
    s.evt = none → s.todo = .op f w item :: rest → decode f w = .ok i →
    step s = exec i { s' with todo := rest, ix := item.getD s.ix,
                              phase := if f = .uop5 ∧ w.toNat < 16 then w.extractLsb' 0 5 else s.phase }) ∧
  (∀ s s' : State, EngineTurn s s' → s.evt = none → s.todo = [] → s.updWait ≠ 0 → s.busy = false →
    step s = exec .update { s' with updWait := s.updWait - 1 }) ∧
  (∀ s s' : State, EngineTurn s s' → s.evt = none → s.todo = [] → (s.updWait = 0 ∨ s.busy = true) →
    step s = exec .uIdle s')

/-- The steps that run no word: an acknowledge ends the wait for it and its bit is discarded (60_exceptions.md R292, R295);
an engine whose record waits does nothing (R290); a host that waits goes on when the block is idle or presents a record
(log 4, 17). -/
def Obligations.AcknowledgeAndStall : Prop :=
  (∀ (s : State) (bit : Bool) (h : List HostAct), s.host = .ack bit :: h →
    step s = .next { s with host := h, evt := none }) ∧
  (∀ s : State, s.host = [] → s.evt ≠ none → step s = .next s) ∧
  (∀ (s : State) (h : List HostAct), s.host = .pass :: h → s.evt ≠ none → step s = .next { s with host := h }) ∧
  (∀ (s : State) (h : List HostAct), s.host = .await :: h → (s.evt ≠ none ∨ (s.busy = false ∧ s.updWait = 0)) →
    step s = .next { s with host := h })

/-! ## Reset and the invariants -/

/-- After `rst` every element has the value of 10_state.md R41, whatever was in progress; the environment is not touched and
nothing is issued (70_reset_and_hazards.md R330, R332). The same where `rst` comes in the middle of the engine's move, after
the first `k` of what the move would issue (93_implementation_defined.md U29; log 24): those have been issued, every pin
stands as the requests among them left it, the bytes they have not read stay with the transport, and nothing more comes
out. -/
def Obligations.ResetLeavesTheResetValues : Prop :=
  AtReset State.reset ∧
  (∀ (s : State) (h : List HostAct), s.host = .rst :: h →
    ∃ t, step s = .next t ∧ AtReset t ∧ t.env = s.env ∧ t.out = s.out ∧ t.host = h ∧ t.params = s.params) ∧
  ∀ (s : State) (k : Nat) (h : List HostAct), s.host = .rstAfter k :: h →
    ∃ t, step s = .next t ∧ AtReset t ∧ t.host = h ∧ t.params = s.params ∧
      ∀ (u : State) (l : List Out), step { s with host := .pass :: h } = .next u → u.out = l.reverse ++ s.out →
        t.out = (l.take k).reverse ++ s.out ∧
        (∀ p, t.pin p = driveAfter p (requestsIn (l.take k)) (s.pin p)) ∧
        t.env.byteIn = s.env.byteIn.drop ((requestsIn (l.take k)).count .busRead)

/-- From a coherent state every step answers a next state, and that state is coherent: no fault, no refusal, and `busy`,
`phase`, `ix`, `jx`, the pending record and the work list stay in agreement (10_state.md R26, 46_update_cycle.md R246). -/
def Obligations.CoherentStatesGoOn : Prop :=
  ∀ s : State, Coherent s → ∃ t, step s = .next t ∧ Coherent t

/-- Every step keeps every register array in its canonical form (log 18). -/
def Obligations.CanonicalFormKept : Prop :=
  ∀ s t : State, Canonical s → step s = .next t → Canonical t

/-- Every step keeps the configuration registers legal (10_state.md R30, R34): no count above its capacity, every divisor 1
to 4, `ACTIVE_PROFILE < PROFILE_COUNT` while initialised; with the invariant of a BEGIN in progress that this needs. -/
def Obligations.LegalConfigurationKept : Prop :=
  ∀ s t : State, Coherent s → ConfigLegal s → BeginSound s → step s = .next t → ConfigLegal t ∧ BeginSound t

/-- Every step keeps the last-error slot legal: `err_kind` never becomes ExpanderFault (60_exceptions.md R283), and `err_src`
and `err_cause` are 0 while it is None (30_encoding.md R112). -/
def Obligations.ErrorSlotKept : Prop :=
  ∀ s t : State, SlotLegal s → step s = .next t → SlotLegal t

/-- Every step keeps: an encoder that is not valid has had its malfunction reported (44_quadrature.md R179, R180). -/
def Obligations.MalfunctionLatchKept : Prop :=
  ∀ s t : State, MalfunctionLatched s → step s = .next t → MalfunctionLatched t

/-- Every step keeps: a pending record is one of the six kinds, with its fields as 30_encoding.md R110 lists them. -/
def Obligations.PendingRecordKept : Prop :=
  ∀ s t : State, Coherent s → RecordLegal s → step s = .next t → RecordLegal t

/-- The invariants hold after reset. -/
def Obligations.InvariantsHoldAtReset : Prop := Inv State.reset

/-- The configuration is constant while `busy = 1` (20_memory.md R81), `rst` apart, and the parameters of the instance always. -/
def Obligations.ConfigurationConstantWhileBusy : Prop :=
  ∀ s t : State, step s = .next t →
    t.params = s.params ∧ (s.busy = true → ¬ Resets s → t.cfg = s.cfg)

/-- Nothing but U_STATEINIT (inside BEGIN) and `rst` lowers an `error_count` or clears a `mal_reported` (10_state.md R35,
44_quadrature.md R180). -/
def Obligations.ErrorCountersNeverFall : Prop :=
  ∀ (s t : State) (e : Byte), step s = .next t → ¬ Resets s →
    (∀ item rest, s.todo ≠ .op .uop5 0x03#64 item :: rest) →
    (s.enc e).errorCount.toNat ≤ (t.enc e).errorCount.toNat ∧
    ((s.enc e).malReported = true → (t.enc e).malReported = true)

/-- The only changes of the power mode (46_update_cycle.md R243): to PowerSaving by U_PS_ENTER; to Awake by U_FIN after a
confirmed change, by U_PS_EXIT, at the end of BEGIN, by `rst`. -/
def Obligations.PowerModeTransitions : Prop :=
  ∀ s t : State, step s = .next t → t.psMode ≠ s.psMode →
    (Resets s ∧ t.psMode = false) ∨
    (∃ item rest, s.todo = .op .uop5 0x06#64 item :: rest ∧ t.psMode = true) ∨
    (∃ item rest, s.todo = .op .uop5 0x0E#64 item :: rest ∧ s.activity = true ∧ t.psMode = false) ∨
    (∃ item rest, s.todo = .op .uop5 0x0F#64 item :: rest ∧ t.psMode = false) ∨
    (∃ rest, s.todo = .beginEnd :: rest ∧ t.psMode = false)

/-! ## RD and WR -/

/-- RD of an address that names a register completes OK and changes nothing; RD, and WR while `busy = 0`, of any other
address answer ERROR and change nothing (10_state.md R33, 47_host_commands.md R263, R264). What the model counts, how many
free values have been taken, may advance (log 8). -/
def Obligations.RegisterAddresses : Prop :=
  ∀ (s : State) (reg i j : Byte),
    (Named s.params reg i j →
      ∃ d n, exec (.rd reg i j) s = .next { s with env.draws := n, out := .response .ok d :: s.out }) ∧
    (¬ Named s.params reg i j →
      Answers (.rd reg i j) s .error 0#32 ∧ (s.busy = false → ∀ imm, Answers (.wr reg i j imm) s .error 0#32))

/-- RD of the configuration registers, at any time (10_state.md R30, R32, R34, R36). -/
def Obligations.ReadConfiguration : Prop :=
  ∀ s : State,
    Reads s 0x00#8 0#8 0#8 (if s.cfg.psEnable then 1#32 else 0#32) ∧
    Reads s 0x01#8 0#8 0#8 s.cfg.debounceMs ∧
    Reads s 0x02#8 0#8 0#8 s.cfg.encDebounceMs ∧
    Reads s 0x03#8 0#8 0#8 s.cfg.psTimeoutMs ∧
    Reads s 0x04#8 0#8 0#8 (0#24 ++ s.cfg.profileCount) ∧
    Reads s 0x05#8 0#8 0#8 (0#24 ++ s.cfg.activeProfile) ∧
    Reads s 0x06#8 0#8 0#8 (0#24 ++ s.cfg.numRows) ∧
    Reads s 0x07#8 0#8 0#8 (0#24 ++ s.cfg.numCols) ∧
    Reads s 0x08#8 0#8 0#8 (0#24 ++ s.cfg.numGpio) ∧
    Reads s 0x09#8 0#8 0#8 (0#24 ++ s.cfg.numEnc) ∧
    Reads s 0x0A#8 0#8 0#8 (0#24 ++ s.cfg.numExp) ∧
    Reads s 0x0B#8 0#8 0#8 (0#26 ++ s.cfg.evtEnable) ∧
    (∀ i : Byte, i.toNat < s.params.maxRows.toNat → Reads s 0x10#8 i 0#8 (0#24 ++ s.cfg.rowPinAt i)) ∧
    (∀ i : Byte, i.toNat < s.params.maxCols.toNat → Reads s 0x11#8 i 0#8 (0#24 ++ s.cfg.colPinAt i)) ∧
    (∀ i : Byte, i.toNat < s.params.maxGpio.toNat → Reads s 0x12#8 i 0#8 (0#24 ++ s.cfg.gpioPinAt i)) ∧
    (∀ i : Byte, i.toNat < s.params.maxEnc.toNat →
      Reads s 0x13#8 i 0#8 (0#24 ++ s.cfg.encPinAAt i) ∧ Reads s 0x14#8 i 0#8 (0#24 ++ s.cfg.encPinBAt i) ∧
      Reads s 0x15#8 i 0#8 (0#24 ++ s.cfg.encPinBtnAt i) ∧ Reads s 0x17#8 i 0#8 (0#29 ++ s.cfg.encDivisorAt i)) ∧
    (∀ i : Byte, i.toNat < s.params.maxExp.toNat → ∃ d : Word, Reads s 0x16#8 i 0#8 d ∧
      d.extractLsb' 0 7 = (s.cfg.expCfgAt i).addr ∧ d.getLsbD 7 = false ∧
      d.getLsbD 8 = (s.cfg.expCfgAt i).usePullups ∧ d.getLsbD 9 = (s.cfg.expCfgAt i).useInt ∧
      d.extractLsb' 10 22 = 0#22)

/-- The status registers: their fields on RD, at any time, and ERROR on WR while `busy = 0` (10_state.md R38, R36;
47_host_commands.md R264, which answers BUSY otherwise). -/
def Obligations.ReadStatusRegisters : Prop :=
  ∀ s : State,
    (∃ d : Word, Reads s 0x20#8 0#8 0#8 d ∧
      d.getLsbD 0 = s.initialized ∧ d.getLsbD 1 = s.busy ∧ d.getLsbD 2 = s.psMode ∧ d.getLsbD 3 = s.errNotified ∧
      d.getLsbD 4 = s.activity ∧ d.extractLsb' 5 3 = 0#3 ∧ d.extractLsb' 8 5 = s.phase ∧ d.extractLsb' 13 3 = 0#3 ∧
      d.extractLsb' 16 8 = s.ix ∧ d.extractLsb' 24 8 = s.jx) ∧
    (∃ d : Word, Reads s 0x21#8 0#8 0#8 d ∧
      d.extractLsb' 0 3 = s.errKind.code ∧ d.extractLsb' 3 5 = 0#5 ∧ d.extractLsb' 8 8 = s.errCause ∧
      d.extractLsb' 16 8 = s.errSrc ∧ d.extractLsb' 24 8 = 0#8) ∧
    Reads s 0x22#8 0#8 0#8 s.tActivity ∧
    Reads s 0x23#8 0#8 0#8 s.tCycle ∧
    (s.busy = false → ∀ reg imm, reg ∈ [0x20#8, 0x21#8, 0x22#8, 0x23#8] →
      Answers (.wr reg 0#8 0#8 imm) s .error 0#32)

/-- The read-back registers and `ENC_POSITION`, while the engine is idle or a record is pending (10_state.md R39, R35,
R36), and ERROR on WR of a read-back register while `busy = 0`. -/
def Obligations.ReadBackRegisters : Prop :=
  ∀ s : State, (s.busy = false ∨ s.evt ≠ none) →
    (∀ i j : Byte, i.toNat < s.params.maxRows.toNat → j.toNat < s.params.maxCols.toNat →
      Reads s 0x30#8 i j (0#30 ++ BitVec.ofBool (s.cell i j).conf ++ BitVec.ofBool (s.cell i j).raw) ∧
      Reads s 0x31#8 i j (s.cell i j).ts) ∧
    (∀ i : Byte, i.toNat < s.params.maxGpio.toNat →
      Reads s 0x32#8 i 0#8 (0#30 ++ BitVec.ofBool (s.gpioLine i).conf ++ BitVec.ofBool (s.gpioLine i).raw) ∧
      Reads s 0x33#8 i 0#8 (s.gpioLine i).ts) ∧
    (∀ i : Byte, i.toNat < s.params.maxEnc.toNat →
      (∃ d : Word, Reads s 0x34#8 i 0#8 d ∧
        d.extractLsb' 0 2 = (s.enc i).lastState ∧ d.extractLsb' 2 2 = (s.enc i).pendingDir.code ∧
        d.extractLsb' 4 2 = (s.enc i).lastDir.code ∧ d.getLsbD 6 = (s.enc i).valid ∧
        d.getLsbD 7 = (s.enc i).malReported ∧ d.extractLsb' 8 24 = 0#24) ∧
      Reads s 0x18#8 i 0#8 (s.enc i).position ∧ Reads s 0x35#8 i 0#8 (s.enc i).errorCount ∧
      Reads s 0x36#8 i 0#8 (s.enc i).speed ∧ Reads s 0x37#8 i 0#8 (s.enc i).tChange ∧
      Reads s 0x38#8 i 0#8 (s.enc i).tSpeed ∧
      Reads s 0x39#8 i 0#8 (0#30 ++ BitVec.ofBool (s.enc i).btn.conf ++ BitVec.ofBool (s.enc i).btn.raw) ∧
      Reads s 0x3A#8 i 0#8 (s.enc i).btn.ts) ∧
    (∀ i : Byte, i.toNat < s.params.maxExp.toNat →
      Reads s 0x3B#8 i 0#8 (0#16 ++ (s.exp i).last16) ∧ Reads s 0x3C#8 i 0#8 (0#16 ++ (s.exp i).conf16) ∧
      ∀ b : BitVec 4, Reads s 0x3D#8 i (0#4 ++ b) ((s.exp i).laneTs b)) ∧
    (s.busy = false → ∀ reg i j imm, Named s.params reg i j → 0x30 ≤ reg.toNat →
      Answers (.wr reg i j imm) s .error 0#32)

/-- A racing RD (10_state.md R36, 20_memory.md R82): of a read-back register or `ENC_POSITION`, while `busy = 1` and no
record is pending. It completes OK with a free value and changes nothing; the model's choice of a free value is log 8. -/
def Obligations.RacingReadIsFree : Prop :=
  ∀ (s : State) (reg i j : Byte), Named s.params reg i j → ReadBack reg → s.busy = true → s.evt = none →
    exec (.rd reg i j) s =
      .next { s with env.draws := s.env.draws + 1, out := .response .ok (Config.freeRead s.env.draws) :: s.out }

/-- WR refused (47_host_commands.md R264, 10_state.md R30, R34, R36): BUSY while `busy = 1`; ERROR for a read-only register
and for a value that is not legal; nothing changes. -/
def Obligations.WriteRefused : Prop :=
  ∀ (s : State) (imm : Word),
    (s.busy = true → ∀ reg i j, Answers (.wr reg i j imm) s .busy 0#32) ∧
    (s.busy = false →
      (∀ reg i j, Named s.params reg i j → 0x20 ≤ reg.toNat → Answers (.wr reg i j imm) s .error 0#32) ∧
      (s.params.maxRows.toNat < (imm.extractLsb' 0 8).toNat → Answers (.wr 0x06#8 0#8 0#8 imm) s .error 0#32) ∧
      (s.params.maxCols.toNat < (imm.extractLsb' 0 8).toNat → Answers (.wr 0x07#8 0#8 0#8 imm) s .error 0#32) ∧
      (s.params.maxGpio.toNat < (imm.extractLsb' 0 8).toNat → Answers (.wr 0x08#8 0#8 0#8 imm) s .error 0#32) ∧
      (s.params.maxEnc.toNat < (imm.extractLsb' 0 8).toNat → Answers (.wr 0x09#8 0#8 0#8 imm) s .error 0#32) ∧
      (s.params.maxExp.toNat < (imm.extractLsb' 0 8).toNat → Answers (.wr 0x0A#8 0#8 0#8 imm) s .error 0#32) ∧
      (s.initialized = true → s.cfg.profileCount.toNat ≤ (imm.extractLsb' 0 8).toNat →
        Answers (.wr 0x05#8 0#8 0#8 imm) s .error 0#32) ∧
      (∀ i : Byte, imm.extractLsb' 0 3 ∉ [1#3, 2#3, 3#3, 4#3] → Answers (.wr 0x17#8 i 0#8 imm) s .error 0#32))

/-- WR of the scalar registers, accepted (47_host_commands.md R264, 10_state.md R30): the field takes its bits of `imm`; a
structural register clears `initialized` (R37); nothing else changes. -/
def Obligations.WriteScalarRegisters : Prop :=
  ∀ (s : State) (imm : Word), s.busy = false →
    Writes s 0x00#8 0#8 0#8 imm { s with cfg.psEnable := imm.getLsbD 0 } ∧
    Writes s 0x01#8 0#8 0#8 imm { s with cfg.debounceMs := imm } ∧
    Writes s 0x02#8 0#8 0#8 imm { s with cfg.encDebounceMs := imm } ∧
    Writes s 0x03#8 0#8 0#8 imm { s with cfg.psTimeoutMs := imm } ∧
    Writes s 0x04#8 0#8 0#8 imm { s with cfg.profileCount := imm.extractLsb' 0 8, initialized := false } ∧
    ((s.initialized = false ∨ (imm.extractLsb' 0 8).toNat < s.cfg.profileCount.toNat) →
      Writes s 0x05#8 0#8 0#8 imm { s with cfg.activeProfile := imm.extractLsb' 0 8 }) ∧
    ((imm.extractLsb' 0 8).toNat ≤ s.params.maxRows.toNat →
      Writes s 0x06#8 0#8 0#8 imm { s with cfg.numRows := imm.extractLsb' 0 8, initialized := false }) ∧
    ((imm.extractLsb' 0 8).toNat ≤ s.params.maxCols.toNat →
      Writes s 0x07#8 0#8 0#8 imm { s with cfg.numCols := imm.extractLsb' 0 8, initialized := false }) ∧
    ((imm.extractLsb' 0 8).toNat ≤ s.params.maxGpio.toNat →
      Writes s 0x08#8 0#8 0#8 imm { s with cfg.numGpio := imm.extractLsb' 0 8, initialized := false }) ∧
    ((imm.extractLsb' 0 8).toNat ≤ s.params.maxEnc.toNat →
      Writes s 0x09#8 0#8 0#8 imm { s with cfg.numEnc := imm.extractLsb' 0 8, initialized := false }) ∧
    ((imm.extractLsb' 0 8).toNat ≤ s.params.maxExp.toNat →
      Writes s 0x0A#8 0#8 0#8 imm { s with cfg.numExp := imm.extractLsb' 0 8, initialized := false }) ∧
    Writes s 0x0B#8 0#8 0#8 imm { s with cfg.evtEnable := imm.extractLsb' 0 6 }

/-- WR of the tables, accepted (47_host_commands.md R264, 10_state.md R32, R34, R35): the entry takes its bits of `imm`,
every other entry keeps its value; a structural table clears `initialized` (R37); nothing else changes. -/
def Obligations.WriteTableRegisters : Prop :=
  ∀ (s : State) (i : Byte) (imm : Word), s.busy = false →
    (i.toNat < s.params.maxRows.toNat → ∃ t, Writes s 0x10#8 i 0#8 imm t ∧
      (∀ k, t.cfg.rowPinAt k = if k = i then imm.extractLsb' 0 8 else s.cfg.rowPinAt k) ∧
      t = { s with cfg.rowPin := t.cfg.rowPin, initialized := false }) ∧
    (i.toNat < s.params.maxCols.toNat → ∃ t, Writes s 0x11#8 i 0#8 imm t ∧
      (∀ k, t.cfg.colPinAt k = if k = i then imm.extractLsb' 0 8 else s.cfg.colPinAt k) ∧
      t = { s with cfg.colPin := t.cfg.colPin, initialized := false }) ∧
    (i.toNat < s.params.maxGpio.toNat → ∃ t, Writes s 0x12#8 i 0#8 imm t ∧
      (∀ k, t.cfg.gpioPinAt k = if k = i then imm.extractLsb' 0 8 else s.cfg.gpioPinAt k) ∧
      t = { s with cfg.gpioPin := t.cfg.gpioPin, initialized := false }) ∧
    (i.toNat < s.params.maxEnc.toNat →
      (∃ t, Writes s 0x13#8 i 0#8 imm t ∧
        (∀ k, t.cfg.encPinAAt k = if k = i then imm.extractLsb' 0 8 else s.cfg.encPinAAt k) ∧
        t = { s with cfg.encPinA := t.cfg.encPinA, initialized := false }) ∧
      (∃ t, Writes s 0x14#8 i 0#8 imm t ∧
        (∀ k, t.cfg.encPinBAt k = if k = i then imm.extractLsb' 0 8 else s.cfg.encPinBAt k) ∧
        t = { s with cfg.encPinB := t.cfg.encPinB, initialized := false }) ∧
      (∃ t, Writes s 0x15#8 i 0#8 imm t ∧
        (∀ k, t.cfg.encPinBtnAt k = if k = i then imm.extractLsb' 0 8 else s.cfg.encPinBtnAt k) ∧
        t = { s with cfg.encPinBtn := t.cfg.encPinBtn, initialized := false }) ∧
      (imm.extractLsb' 0 3 ∈ [1#3, 2#3, 3#3, 4#3] → ∃ t, Writes s 0x17#8 i 0#8 imm t ∧
        (∀ k, t.cfg.encDivisorAt k = if k = i then imm.extractLsb' 0 3 else s.cfg.encDivisorAt k) ∧
        t = { s with cfg.encDivisor := t.cfg.encDivisor }) ∧
      (∃ t, Writes s 0x18#8 i 0#8 imm t ∧ EncBecomes i { s.enc i with position := imm } s t)) ∧
    (i.toNat < s.params.maxExp.toNat → ∃ t, Writes s 0x16#8 i 0#8 imm t ∧
      (∀ k, t.cfg.expCfgAt k =
        if k = i then ⟨imm.extractLsb' 0 7, imm.getLsbD 8, imm.getLsbD 9⟩ else s.cfg.expCfgAt k) ∧
      t = { s with cfg.expCfg := t.cfg.expCfg, initialized := false })

/-! ## The other host commands -/

/-- NOP (47_host_commands.md R261): the word of zeros; the response OK with datum 0 and nothing else. -/
def Obligations.NopResponds : Prop :=
  decode .cmd64 0x0000000000000000#64 = .ok .nop ∧ ∀ s : State, Answers .nop s .ok 0#32

/-- BEGIN (47_host_commands.md R265) up to U_VALIDATE: BUSY while `busy = 1`; else `busy` is taken, `initialized` and the
error slot are cleared, the time is sampled, and U_VALIDATE comes next (log 6, 7). -/
def Obligations.BeginStarts : Prop :=
  ∀ s : State,
    (s.busy = true → Answers .beginCmd s .busy 0#32) ∧
    (s.busy = false → exec .beginCmd s = .next
      { s with busy := true, initialized := false, errKind := .none, errSrc := 0#8, errCause := 0#8,
               errNotified := false, tCycle := s.env.nowAnswer, env := s.env.afterNow, out := .request .now :: s.out,
               call.valid := false, todo := [.op .uop5 0x01#64 none, .afterValidate] ++ s.todo })

/-- TRY_UPDATE (46_update_cycle.md R230, R231): ERROR while not initialised, BUSY while an update is in flight, both without
any other effect; else `busy` is taken, `activity` cleared, the time sampled, and U_PSCHK comes next (log 6). -/
def Obligations.TryUpdateOutcomes : Prop :=
  ∀ s : State,
    (s.initialized = false → Answers .tryUpdate s .error 0#32) ∧
    (s.initialized = true → s.busy = true → Answers .tryUpdate s .busy 0#32) ∧
    (s.initialized = true → s.busy = false → exec .tryUpdate s = .next
      { s with busy := true, activity := false, tCycle := s.env.nowAnswer, env := s.env.afterNow,
               out := .request .now :: s.out, todo := [.op .uop5 0x05#64 none, .afterGate] ++ s.todo })

/-- UPDATE (46_update_cycle.md R245): as TRY_UPDATE, but while an update is in flight it stays pending without a response
(log 10). -/
def Obligations.UpdateOutcomes : Prop :=
  ∀ s : State,
    (s.initialized = false → Answers .update s .error 0#32) ∧
    (s.initialized = true → s.busy = true → exec .update s = .next { s with updWait := s.updWait + 1 }) ∧
    (s.initialized = true → s.busy = false → exec .update s = .next
      { s with busy := true, activity := false, tCycle := s.env.nowAnswer, env := s.env.afterNow,
               out := .request .now :: s.out, todo := [.op .uop5 0x05#64 none, .afterGate] ++ s.todo })

/-- CLEAR_ERROR (47_host_commands.md R271), whatever `busy` is: the slot and the latch `err_notified` are cleared, nothing
else changes. -/
def Obligations.ClearErrorEmptiesTheSlot : Prop :=
  decode .cmd64 0x1300000000000000#64 = .ok .clearError ∧
  ∀ s : State, exec .clearError s = .next
    { s with errKind := .none, errSrc := 0#8, errCause := 0#8, errNotified := false,
             out := .response .ok 0#32 :: s.out }

/-- U_IDLE (46_update_cycle.md R246): while `busy = 0` the sequencer is in U_IDLE, U_IDLE does nothing, and only TRY_UPDATE,
UPDATE (one that waits included) or BEGIN leaves it. -/
def Obligations.IdleUntilACommand : Prop :=
  (∀ s : State, exec .uIdle s = .next s) ∧
  ∀ s : State, Coherent s → s.busy = false →
    s.phase = 0#5 ∧ (s.host = [] → s.updWait = 0 → step s = .next s) ∧
    ∀ t, step s = .next t → t.busy = true →
      s.updWait ≠ 0 ∨
      ∃ w h, s.host = .cmd w :: h ∧ w ∈ [0x1000000000000000#64, 0x1100000000000000#64, 0x1200000000000000#64]

/-! ## The micro-operations of BEGIN -/

/-- U_VALIDATE (47_host_commands.md R266): "ok" exactly where none of the six conditions fails; else the fault of the first
that fails, with the first bad slot of the slot list in checks 5 and 6. Its result stands in `call.valid` (log 7). -/
def Obligations.ValidateChecks : Prop :=
  ∀ s : State,
    let c := s.cfg
    let check1 := c.profileCount ≠ 0#8
    let check2 := c.activeProfile.toNat < c.profileCount.toNat
    let check3 := (c.numRows = 0#8 ↔ c.numCols = 0#8)
    let check4 := ∀ d1 d2 : Byte, d1.toNat < d2.toNat → d2.toNat < c.numExp.toNat →
      (c.expCfgAt d1).addr ≠ (c.expCfgAt d2).addr
    let bad (x : Slot) := s.params.pinValid.getLsbD x.pin.toNat = false
    let clash (m : Nat) := ∃ (k : Nat) (x y : Slot), k < m ∧ c.slots[k]? = some x ∧ c.slots[m]? = some y ∧ x.pin = y.pin
    let check5 := ∀ (k : Nat) (x : Slot), c.slots[k]? = some x → ¬ bad x
    let check6 := ∀ m : Nat, ¬ clash m
    let Fails (k : FaultKind) (src cause : Byte) :=
      ∃ t, exec .uValidate s = .next t ∧ Raised k src cause { s with call.valid := false } t
    (check1 → check2 → check3 → check4 → check5 → check6 → exec .uValidate s = .next { s with call.valid := true }) ∧
    (¬ check1 → Fails .invalidConfig 0#8 1#8) ∧
    (check1 → ¬ check2 → Fails .invalidConfig 0#8 2#8) ∧
    (check1 → check2 → ¬ check3 → Fails .invalidConfig 0#8 3#8) ∧
    (check1 → check2 → check3 → ¬ check4 → Fails .invalidConfig 0#8 4#8) ∧
    (check1 → check2 → check3 → check4 → ∀ (k : Nat) (x : Slot), c.slots[k]? = some x → bad x →
      (∀ (m : Nat) (y : Slot), m < k → c.slots[m]? = some y → ¬ bad y) →
      Fails .invalidPin x.table (BitVec.ofNat 8 x.index)) ∧
    (check1 → check2 → check3 → check4 → check5 → ∀ (m : Nat) (y : Slot), c.slots[m]? = some y → clash m →
      (∀ k, k < m → ¬ clash k) → Fails .pinConflict y.table (BitVec.ofNat 8 y.index))

/-- U_PININIT (47_host_commands.md R267): its code; exactly these requests, in this order, and no state of the block is written. -/
def Obligations.PinInitialisation : Prop :=
  decode .uop5 0x02#64 = .ok .uPinInit ∧
  ∀ s : State,
    let c := s.cfg
    let upto (n : Byte) (f : Byte → List Request) := (List.range n.toNat).flatMap fun k => f (BitVec.ofNat 8 k)
    ∃ t, exec .uPinInit s = .next t ∧
      Issued
        (upto c.numRows (fun r => [.pinMode (c.rowPinAt r) .output, .pinWrite (c.rowPinAt r) true]) ++
         upto c.numCols (fun k => [.pinMode (c.colPinAt k) .inputPullup]) ++
         upto c.numGpio (fun i => [.pinMode (c.gpioPinAt i) .inputPullup]) ++
         upto c.numEnc (fun e => [.pinMode (c.encPinAAt e) .inputPullup, .pinMode (c.encPinBAt e) .inputPullup] ++
           if c.encPinBtnAt e = 0xFF#8 then [] else [.pinMode (c.encPinBtnAt e) .inputPullup])) s t ∧
      t = { s with env.pins := t.env.pins, out := t.out }

/-- U_STATEINIT (47_host_commands.md R268): every record in use is made fresh at `t_cycle`, an encoder's state is read from
its two pins, every record beyond the counts keeps its contents, and nothing else changes. -/
def Obligations.StateInitialisation : Prop :=
  ∀ s : State,
    let c := s.cfg
    let t0 := s.tCycle
    ∃ t, exec .uStateInit s = .next t ∧
      (∀ i j, t.cell i j = if i.toNat < c.numRows.toNat ∧ j.toNat < c.numCols.toNat then ⟨false, false, t0⟩ else s.cell i j) ∧
      (∀ i, t.gpioLine i = if i.toNat < c.numGpio.toNat then ⟨false, false, t0⟩ else s.gpioLine i) ∧
      (∀ d, t.exp d = if d.toNat < c.numExp.toNat then ⟨0#16, 0#16, Vector.replicate 16 t0⟩ else s.exp d) ∧
      (∀ e, t.enc e = if e.toNat < c.numEnc.toNat then
          { lastState := BitVec.ofBool (s.env.pinAnswer (2 * e.toNat)) ++ BitVec.ofBool (s.env.pinAnswer (2 * e.toNat + 1)),
            pendingDir := .none, position := 0#32, lastDir := .none, errorCount := 0#32, valid := true,
            malReported := false, speed := 0#32, tChange := t0, tSpeed := t0, btn := ⟨false, false, t0⟩ }
        else s.enc e) ∧
      Issued ((List.range c.numEnc.toNat).flatMap fun e =>
        [.pinRead (c.encPinAAt (BitVec.ofNat 8 e)), .pinRead (c.encPinBAt (BitVec.ofNat 8 e))]) s t ∧
      t = { s with cells := t.cells, gpioLines := t.gpioLines, exps := t.exps, encs := t.encs, out := t.out,
                   env.pinIn := t.env.pinIn, env.draws := t.env.draws }

/-- U_EXP_INIT (45_expander.md R204): the writes of the initialisation table whose condition holds, in order; if one fails,
BusError with its status, and the rest is skipped. -/
def Obligations.ExpanderInitialisation : Prop :=
  ∀ s : State,
    let x := s.cfg.expCfgAt s.ix
    let writes := s.params.expInit.filter fun w =>
      decide (w.cond = .always) || (decide (w.cond = .ifPullups) && x.usePullups) ||
        (decide (w.cond = .ifInterrupt) && x.useInt)
    let frames (l : List InitWrite) : List Request := l.flatMap fun w =>
      [.busBegin x.addr, .busWrite w.reg, .busWrite w.value, .busEnd]
    let Sends (l : List InitWrite) (u : State) := Issued (frames l) s u ∧
      u = { s with out := u.out, call.status := u.call.status, env.endIn := u.env.endIn, env.draws := u.env.draws }
    ((∀ k, k < writes.length → s.env.endAnswer k = 0#8) → ∃ t, exec .uExpInit s = .next t ∧ Sends writes t) ∧
    (∀ k, k < writes.length → (∀ m, m < k → s.env.endAnswer m = 0#8) → s.env.endAnswer k ≠ 0#8 →
      ∃ u t, exec .uExpInit s = .next t ∧ Sends (writes.take (k + 1)) u ∧ Raised .busError s.ix (s.env.endAnswer k) u t)

/-! ## Power saving -/

/-- U_PSCHK (46_update_cycle.md R234). Its result "skip" stands in `call.skip` (log 7). -/
def Obligations.PowerSaveGate : Prop :=
  ∀ s : State, exec .uPsChk s = .next
    { s with call.skip := !s.psMode && s.cfg.psEnable && decide (s.cfg.psTimeoutMs.toNat < (s.tCycle - s.tActivity).toNat) }

/-- U_PS_ENTER (46_update_cycle.md R235): its code; each row's pin becomes an input, in ascending order, and `ps_mode` is 1;
nothing else is written. -/
def Obligations.PowerSaveEntry : Prop :=
  decode .uop5 0x06#64 = .ok .uPsEnter ∧
  ∀ s : State, ∃ t, exec .uPsEnter s = .next t ∧
    Issued ((List.range s.cfg.numRows.toNat).map fun r => .pinMode (s.cfg.rowPinAt (BitVec.ofNat 8 r)) .input) s t ∧
    t = { s with psMode := true, env.pins := t.env.pins, out := t.out }

/-- U_PS_EXIT (46_update_cycle.md R242): its code; each row's pin becomes an output driven HIGH, in ascending order, and
`ps_mode` is 0; nothing else is written. -/
def Obligations.PowerSaveExit : Prop :=
  decode .uop5 0x0F#64 = .ok .uPsExit ∧
  ∀ s : State, ∃ t, exec .uPsExit s = .next t ∧
    Issued ((List.range s.cfg.numRows.toNat).flatMap fun r =>
      [.pinMode (s.cfg.rowPinAt (BitVec.ofNat 8 r)) .output, .pinWrite (s.cfg.rowPinAt (BitVec.ofNat 8 r)) true]) s t ∧
    t = { s with psMode := false, env.pins := t.env.pins, out := t.out }

/-- U_FIN (46_update_cycle.md R241): after a confirmed change the idle timer restarts, and from PowerSaving U_PS_EXIT runs,
with its code in `phase` (log 11). -/
def Obligations.CycleFinish : Prop :=
  ∀ s : State,
    (s.activity = false → exec .uFin s = .next s) ∧
    (s.activity = true → s.psMode = false → exec .uFin s = .next { s with tActivity := s.tCycle }) ∧
    (s.activity = true → s.psMode = true → ∃ t, exec .uFin s = .next t ∧
      Issued ((List.range s.cfg.numRows.toNat).flatMap fun r =>
        [.pinMode (s.cfg.rowPinAt (BitVec.ofNat 8 r)) .output, .pinWrite (s.cfg.rowPinAt (BitVec.ofNat 8 r)) true]) s t ∧
      t = { s with tActivity := s.tCycle, phase := 0x0F#5, psMode := false, env.pins := t.env.pins, out := t.out })

/-! ## The expander bus -/

/-- BF_WRITE_REG and BF_SET_POINTER (45_expander.md R200, R201): their requests in order; the status answered stands in
`call.status` (log 7). -/
def Obligations.WriteFrames : Prop :=
  ∀ (s : State) (a : BitVec 7) (r v : Byte),
    exec (.bfWriteReg a r v) s = .next
      { s with call.status := s.env.endAnswer 0, env := s.env.afterEnd,
               out := .request .busEnd :: .request (.busWrite v) :: .request (.busWrite r) :: .request (.busBegin a) :: s.out } ∧
    exec (.bfSetPointer a r) s = .next
      { s with call.status := s.env.endAnswer 0, env := s.env.afterEnd,
               out := .request .busEnd :: .request (.busWrite r) :: .request (.busBegin a) :: s.out }

/-- BF_READ2 (45_expander.md R202, R206, R207), its result in `call.read` (log 7). Data that arrives before the limit is
exceeded is taken, availability before time in every iteration; a limit exceeded first is `Timeout(n)`; and in every state
the frame ends with one of the two, `n` 0 or 1, whatever the environment answers (log 9). -/
def Obligations.ReadFrame : Prop :=
  (∀ (s : State) (a : BitVec 7) (w0 : Word) (ts nows : List Word) (ns avail : List Byte) (n b0 b1 : Byte)
     (bytes : List Byte), s.env.nowIn = w0 :: (ts ++ nows) → s.env.availIn = ns ++ n :: avail →
     s.env.byteIn = b0 :: b1 :: bytes → ts.length = ns.length → (∀ m ∈ ns, m.toNat < 2) →
     (∀ t ∈ ts, (t - w0).toNat ≤ s.params.expTimeoutMs.toNat) → 2 ≤ n.toNat →
     exec (.bfRead2 a) s = .next
       { s with call.read := .ok b0 b1
                env := { s.env with nowIn := nows, availIn := avail, byteIn := bytes }
                out := [.request .busRead, .request .busRead, .request .busAvail] ++
                  (List.replicate ns.length [Out.request .now, Out.request .busAvail]).flatten ++
                  [.request .now, .request (.busRequest a 2)] ++ s.out }) ∧
  (∀ (s : State) (a : BitVec 7) (w0 t1 : Word) (ts nows : List Word) (ns avail : List Byte) (n : Byte),
     s.env.nowIn = w0 :: (ts ++ t1 :: nows) → s.env.availIn = ns ++ n :: avail → ts.length = ns.length →
     (∀ m ∈ ns, m.toNat < 2) → (∀ t ∈ ts, (t - w0).toNat ≤ s.params.expTimeoutMs.toNat) → n.toNat < 2 →
     s.params.expTimeoutMs.toNat < (t1 - w0).toNat →
     exec (.bfRead2 a) s = .next
       { s with call.read := .timeout n
                env := { s.env with nowIn := nows, availIn := avail }
                out := [.request .now, .request .busAvail] ++
                  (List.replicate ns.length [Out.request .now, Out.request .busAvail]).flatten ++
                  [.request .now, .request (.busRequest a 2)] ++ s.out }) ∧
  (∀ (s : State) (a : BitVec 7), ∃ t, exec (.bfRead2 a) s = .next t ∧
     ((∃ b0 b1, t.call.read = .ok b0 b1) ∨ ∃ n, t.call.read = .timeout n ∧ n.toNat < 2) ∧
     t = { s with call.read := t.call.read, out := t.out,
                  env := { t.env with pinIn := s.env.pinIn, endIn := s.env.endIn, pins := s.env.pins } })

/-- U_EXP_READ (45_expander.md R205): a pointer write that fails is BusError and no read is attempted; else BF_READ2, whose
`Timeout(n)` is TimeoutError and whose bytes make `EXP_WORD`, the first the low one (20_memory.md R74). -/
def Obligations.ExpanderRead : Prop :=
  ∀ s : State,
    let a := (s.cfg.expCfgAt s.ix).addr
    let st := s.env.endAnswer 0
    let u : State := { s with expOk := false, call.status := st, env := s.env.afterEnd,
                              out := .request .busEnd :: .request (.busWrite s.params.expRegs.gpioa) ::
                                .request (.busBegin a) :: s.out }
    (st ≠ 0#8 → ∃ t, exec .uExpRead s = .next t ∧ Raised .busError s.ix st u t) ∧
    (st = 0#8 → ∃ v, exec (.bfRead2 a) u = .next v ∧
      (∀ b0 b1, v.call.read = .ok b0 b1 → exec .uExpRead s = .next { v with expWord := b1 ++ b0, expOk := true }) ∧
      (∀ n, v.call.read = .timeout n → ∃ t, exec .uExpRead s = .next t ∧ Raised .timeoutError s.ix n v t))

/-- U_EXP_DEB (45_expander.md R208, R209): nothing after a failed read; else the sixteen lanes in ascending order, up to the
first record presented; after its acknowledge the engine goes on with the lanes left (log 6). -/
def Obligations.ExpanderLanes : Prop :=
  (∀ s : State, s.expOk = false → exec .uExpDeb s = .next s) ∧
  (∀ s : State, s.expOk = true → ∃ t, exec .uExpDeb s = .next t ∧ LanesScanned 16 s t) ∧
  (∀ (s s' : State) (n : Nat) (rest : List Task), EngineTurn s s' → s.evt = none → s.todo = .expLanes n :: rest →
    ∃ t, step s = .next t ∧ LanesScanned n { s' with todo := rest } t)

/-! ## The polled inputs -/

/-- U_MAT_ROW (42_matrix.md R152): its code; the row is driven LOW, the wait, the columns latched in ascending order, the row driven
HIGH; only the latch of the columns in use is written. -/
def Obligations.MatrixRow : Prop :=
  decode .uop5 0x09#64 = .ok .uMatRow ∧
  ∀ s : State,
    let p := s.cfg.rowPinAt s.ix
    ∃ t, exec .uMatRow s = .next t ∧
      Issued ([.pinWrite p false, .waitMicros s.params.matrixSettleUs] ++
        (List.range s.cfg.numCols.toNat).map (fun c => .pinRead (s.cfg.colPinAt (BitVec.ofNat 8 c))) ++
        [.pinWrite p true]) s t ∧
      (∀ c, t.latchedLevel c = if c < s.cfg.numCols.toNat then s.env.pinAnswer c else s.latchedLevel c) ∧
      t = { s with colLatch := t.colLatch, out := t.out,
                   env := { t.env with nowIn := s.env.nowIn, endIn := s.env.endIn, availIn := s.env.availIn,
                                       byteIn := s.env.byteIn } }

/-- U_MAT_DEB (42_matrix.md R153): the cells of the row in ascending order, up to the first record presented; after its
acknowledge the engine goes on with the columns left (log 6). -/
def Obligations.MatrixCells : Prop :=
  (∀ s : State, ∃ t, exec .uMatDeb s = .next t ∧ MatrixScanned s.cfg.numCols.toNat s t) ∧
  (∀ (s s' : State) (n : Nat) (rest : List Task), EngineTurn s s' → s.evt = none → s.todo = .matCols n :: rest →
    ∃ t, step s = .next t ∧ MatrixScanned n { s' with todo := rest } t)

/-- U_GPIO (43_gpio.md R165): one level is read and the line polled with its inverse. -/
def Obligations.GpioPoll : Prop :=
  ∀ s : State, ∃ t, exec .uGpio s = .next t ∧
    Polled (.gpio s.ix) (!s.env.pinAnswer 0) .gpio s.ix 0#8
      { s with env := s.env.afterPin, out := .request (.pinRead (s.cfg.gpioPinAt s.ix)) :: s.out } t

/-- U_ENC_BTN (44_quadrature.md R182): nothing without a button; else one level is read and the button's line polled with
its inverse. -/
def Obligations.EncoderButton : Prop :=
  ∀ s : State,
    let p := s.cfg.encPinBtnAt s.ix
    (p = 0xFF#8 → exec .uEncBtn s = .next s) ∧
    (p ≠ 0xFF#8 → ∃ t, exec .uEncBtn s = .next t ∧
      Polled (.encBtn s.ix) (!s.env.pinAnswer 0) .encButton s.ix 0#8
        { s with env := s.env.afterPin, out := .request (.pinRead p) :: s.out } t)

/-- U_ENC_STEP that does not commit (44_quadrature.md R172 to R178, R181): the gate closed; no state change; an illegal
transition; a quarter-step that does not arrive at the settle state with a matching pending direction. -/
def Obligations.QuadratureStep : Prop :=
  ∀ s : State,
    let x := s.enc s.ix
    let cur := pinsShow s
    (¬ GateOpen s → exec .uEncStep s = .next s) ∧
    (GateOpen s → cur = x.lastState → ∃ t, exec .uEncStep s = .next t ∧
      EncBecomes s.ix
        { x with speed := if s.params.speedIdleTimeoutMs.toNat < (s.tCycle - x.tSpeed).toNat then 0#32 else x.speed }
        (encPinsRead s) t) ∧
    (GateOpen s → cur ≠ x.lastState → (∀ d, ¬ QuarterStep d x.lastState cur) → ∃ t, exec .uEncStep s = .next t ∧
      EncBecomes s.ix { changed s with errorCount := BitVec.ofNat 32 (min (x.errorCount.toNat + 1) 0xFFFFFFFF) }
        (encPinsRead s) t) ∧
    (∀ d, GateOpen s → QuarterStep d x.lastState cur → ¬ (cur = s.params.encSettleState ∧ x.pendingDir = d) →
      ∃ t, exec .uEncStep s = .next t ∧ EncBecomes s.ix { changed s with pendingDir := d } (encPinsRead s) t)

/-- A commit on an enabled rotation channel (44_quadrature.md R178, R179, 60_exceptions.md R290, R294): position, direction
and `activity` are written, the rotation record is presented, and the rest of the commit waits for the acknowledge
(log 6). -/
def Obligations.CommitPresentsRotation : Prop :=
  ∀ (s : State) (d : Dir), GateOpen s → QuarterStep d (s.enc s.ix).lastState (pinsShow s) →
    pinsShow s = s.params.encSettleState → (s.enc s.ix).pendingDir = d → s.cfg.evtEnable.getLsbD 2 = true →
    let w := evtWord 3#4 s.cfg.activeProfile s.ix 0#8 (0#2 ++ d.code)
    ∃ t, exec .uEncStep s = .next t ∧
      t.enc s.ix = committed d s ∧ (∀ k, k ≠ s.ix → t.enc k = s.enc k) ∧
      t.call = { s.call with channel := t.call.channel, evA := t.call.evA, evB := t.call.evB, evV := t.call.evV } ∧
      t = { encPinsRead s with encs := t.encs, activity := true, evt := some w, out := .record w :: (encPinsRead s).out,
                               todo := .commitRest :: s.todo, call := t.call }

/-- A commit on a disabled rotation channel (44_quadrature.md R179, R180, 60_exceptions.md R290): the same writes, no
rotation record, and the malfunction check at once. -/
def Obligations.CommitOnDisabledChannel : Prop :=
  ∀ (s : State) (d : Dir), GateOpen s → QuarterStep d (s.enc s.ix).lastState (pinsShow s) →
    pinsShow s = s.params.encSettleState → (s.enc s.ix).pendingDir = d → s.cfg.evtEnable.getLsbD 2 = false →
    ∃ u t, exec .uEncStep s = .next t ∧
      u.enc s.ix = committed d s ∧ (∀ k, k ≠ s.ix → u.enc k = s.enc k) ∧
      u.call = { s.call with channel := u.call.channel, evA := u.call.evA, evB := u.call.evB, evV := u.call.evV } ∧
      u = { encPinsRead s with encs := u.encs, activity := true, call := u.call } ∧
      MalfunctionChecked u t

/-- After the rotation record's acknowledge the commit ends with the malfunction check (44_quadrature.md R179, R180;
log 6). -/
def Obligations.CommitEndsAfterAcknowledge : Prop :=
  ∀ (s s' : State) (rest : List Task), EngineTurn s s' → s.evt = none → s.todo = .commitRest :: rest →
    ∃ t, step s = .next t ∧ MalfunctionChecked { s' with todo := rest } t

/-! ## The sub-operations and the event records -/

/-- DEBOUNCE (41_debounce.md R141, R143) on the line and the reading in `call` (log 7): a flip re-arms the time stamp; a
reading that differs from the confirmed state is confirmed once the time since the last flip is more than
`DEBOUNCE_MS`; every other line keeps its value. -/
def Obligations.DebounceSubOperation : Prop :=
  ∀ s : State,
    let q := s.call.line
    let r := s.call.raw
    let l := s.line q
    let ts := if r = l.raw then l.ts else s.tCycle
    let toggled := decide (s.cfg.debounceMs.toNat < (s.tCycle - ts).toNat) && (r != l.conf)
    ∃ t, exec .debounce s = .next t ∧
      t.line q = ⟨r, if toggled then r else l.conf, ts⟩ ∧ (∀ k, k ≠ q → t.line k = s.line k) ∧
      (∀ e, t.enc e = { s.enc e with btn := (t.enc e).btn }) ∧
      t = { s with call.toggled := toggled, cells := t.cells, gpioLines := t.gpioLines, encs := t.encs, exps := t.exps }

/-- RAISE (60_exceptions.md R284 to R286) on the operands in `call` (log 7). -/
def Obligations.RaiseSubOperation : Prop :=
  ∀ s : State, ∃ t, exec .raise s = .next t ∧ Raised s.call.kind s.call.src s.call.cause s t

/-- EMIT (60_exceptions.md R290) on the operands in `call` (log 7): nothing on a disabled channel; else the record, with
profile 0 on the error channel, is presented and waits. -/
def Obligations.EmitSubOperation : Prop :=
  ∀ s : State,
    let c := s.call
    let p := if c.channel = .error then 0#8 else s.cfg.activeProfile
    let w := evtWord c.channel.code p c.evA c.evB c.evV
    (s.cfg.evtEnable.getLsbD c.channel.bit = false → exec .emit s = .next s) ∧
    (s.cfg.evtEnable.getLsbD c.channel.bit = true →
      exec .emit s = .next { s with evt := some w, out := .record w :: s.out })

/-- The six event records (30_encoding.md R110): each is presented on the event port as its word and waits for its
acknowledge. That a record row is run as an operation is the model's reading (log 19). -/
def Obligations.EventRecordsPresented : Prop :=
  ∀ (s : State) (p a b : Byte) (v : BitVec 4),
    let Presents (i : Instr) (w : BitVec 32) := exec i s = .next { s with evt := some w, out := .record w :: s.out }
    Presents (.evMatrix p a b v) (1#4 ++ p ++ a ++ b ++ v) ∧
    Presents (.evGpio p a b v) (2#4 ++ p ++ a ++ b ++ v) ∧
    Presents (.evEncRotate p a b v) (3#4 ++ p ++ a ++ b ++ v) ∧
    Presents (.evEncButton p a b v) (4#4 ++ p ++ a ++ b ++ v) ∧
    Presents (.evExpander p a b v) (5#4 ++ p ++ a ++ b ++ v) ∧
    Presents (.evError p a b v) (6#4 ++ p ++ a ++ b ++ v)

/-! ## The sequences -/

/-- The sequence of an update cycle after U_PSCHK (46_update_cycle.md R232): "skip" leads to U_PS_ENTER and the end; "poll"
to the expanders, the matrix if Awake, the GPIO lines, the encoders, U_FIN and the end; the end returns OK (R230; the
form of the work list is log 6). -/
def Obligations.UpdateCycleSequence : Prop :=
  ∀ (s s' : State) (rest : List Task), EngineTurn s s' → s.evt = none →
    let c := s.cfg
    let uop (code : BitVec 64) (k : Nat) : Task := .op .uop5 code (some (BitVec.ofNat 8 k))
    let upto (n : Byte) (codes : List (BitVec 64)) := (List.range n.toNat).flatMap fun k => codes.map fun w => uop w k
    let polls : List Task :=
      upto c.numExp [0x07#64, 0x08#64] ++ (if s.psMode then [] else upto c.numRows [0x09#64, 0x0A#64]) ++
      upto c.numGpio [0x0B#64] ++ upto c.numEnc [0x0C#64, 0x0D#64] ++ [.op .uop5 0x0E#64 none, .cycleEnd]
    (s.todo = .afterGate :: rest → s.call.skip = true →
      step s = .next { s' with todo := [.op .uop5 0x06#64 none, .cycleEnd] ++ rest }) ∧
    (s.todo = .afterGate :: rest → s.call.skip = false →
      step s = .next { s' with todo := polls ++ rest }) ∧
    (s.todo = .cycleEnd :: rest →
      step s = .next { s' with todo := rest, busy := false, phase := 0#5, ix := 0#8, jx := 0#8,
                               out := .response .ok 0#32 :: s.out })

/-- The sequence of BEGIN after U_VALIDATE (47_host_commands.md R265, R269, R270): not ok ends it with ERROR; ok leads to
U_PININIT, U_STATEINIT, U_EXP_INIT of each device and the end, which sets the flags and returns OK (the form of the work
list is log 6). -/
def Obligations.BeginSequence : Prop :=
  ∀ (s s' : State) (rest : List Task), EngineTurn s s' → s.evt = none →
    (s.todo = .afterValidate :: rest → s.call.valid = false →
      step s = .next { s' with todo := rest, busy := false, phase := 0#5, ix := 0#8, jx := 0#8,
                               out := .response .error 0#32 :: s.out }) ∧
    (s.todo = .afterValidate :: rest → s.call.valid = true →
      step s = .next { s' with todo := [.op .uop5 0x02#64 none, .op .uop5 0x03#64 none] ++
        (List.range s.cfg.numExp.toNat).map (fun d => .op .uop5 0x04#64 (some (BitVec.ofNat 8 d))) ++
        [.beginEnd] ++ rest }) ∧
    (s.todo = .beginEnd :: rest →
      step s = .next { s' with todo := rest, psMode := false, activity := false, tActivity := s.tCycle,
                               initialized := true, busy := false, phase := 0#5, ix := 0#8, jx := 0#8,
                               out := .response .ok 0#32 :: s.out })

/-- Termination (70_reset_and_hazards.md R340) and one response (30_encoding.md R106): from any coherent busy state, with a host that
acknowledges every record presented (R340 (c)), the engine is idle after finitely many steps and has returned exactly one
response. R340's condition (b), that `now_ms` advances, is no hypothesis: in the model a wait for bus data whose answers
have run out ends freely (log 9). The acknowledging host is written with the model's own action `await` (log 4). -/
def Obligations.CommandsComplete : Prop :=
  ∀ s : State, Coherent s → s.busy = true → s.updWait = 0 → s.host = [] →
    ∃ (n k : Nat) (t : State), Sys2Proof.core.run k { s with host := acknowledging n } = .next t ∧
      t.busy = false ∧ t.todo = [] ∧ t.evt = none ∧ responses t.out = responses s.out + 1

/-! ## Properties the source states -/

/-- The two properties of 41_debounce.md R144. A line that always flips again within the interval never toggles: at every
poll the last flip is no more than `interval` ms old. A line that flips at `t` away from its confirmed state and then
holds toggles exactly once, at the first poll more than `interval` ms after `t`. -/
def Obligations.DebounceProperties : Prop :=
  (∀ (interval : Word) (l : Line) (polls : List (Word × Bool)),
    let reading (k : Nat) := match k with | 0 => some l.raw | k + 1 => (polls[k]?).map Prod.snd
    let flip (k : Nat) := reading (k + 1) ≠ reading k
    (∀ k p, polls[k]? = some p → ∃ m q, m ≤ k ∧ polls[m]? = some q ∧ flip m ∧ (∀ j, m < j → j ≤ k → ¬ flip j) ∧
      (p.1 - q.1).toNat ≤ interval.toNat) →
    ∀ b ∈ toggles interval l polls, b = false) ∧
  (∀ (interval t : Word) (l : Line) (r : Bool) (times : List Word), r ≠ l.raw → r ≠ l.conf →
    let results := toggles interval l ((t, r) :: times.map fun u => (u, r))
    results[0]? = some false ∧
    ∀ k u, times[k]? = some u →
      (results[k + 1]? = some true ↔ interval.toNat < (u - t).toNat ∧
        ∀ j v, j < k → times[j]? = some v → (v - t).toNat ≤ interval.toNat))

/-- One detent (44_quadrature.md R185, R186 (b)): from state 0 with no pending direction and divisor 4, three U_ENC_STEP, at
`t_cycle` t1, t2, t3, that read 1, 3, 2 move the position by +1 and present exactly one record, the rotation +1; those
that read 2, 3, 1 move it by -1 and present one record, -1. The settle state is 3 (R8). The rest of the commit, after the
acknowledge, is not run in between: it moves no position (log 6). -/
def Obligations.FullDetentMovesByOne : Prop :=
  ∀ (s : State) (t1 t2 t3 : Word) (d : Dir) (rest : List Level),
    (s.enc s.ix).lastState = 0#2 → (s.enc s.ix).pendingDir = .none → s.cfg.encDivisorAt s.ix = 4#3 →
    s.params.encSettleState = 3#2 → s.cfg.evtEnable.getLsbD 2 = true →
    s.cfg.encDebounceMs.toNat ≤ (t1 - (s.enc s.ix).tChange).toNat → s.cfg.encDebounceMs.toNat ≤ (t2 - t1).toNat →
    s.cfg.encDebounceMs.toNat ≤ (t3 - t2).toNat →
    (d = .cw ∧ s.env.pinIn = [false, true, true, true, true, false] ++ rest ∨
     d = .ccw ∧ s.env.pinIn = [true, false, true, true, false, true] ++ rest) →
    ∃ u1 u2 u3, exec .uEncStep { s with tCycle := t1 } = .next u1 ∧ exec .uEncStep { u1 with tCycle := t2 } = .next u2 ∧
      exec .uEncStep { u2 with tCycle := t3 } = .next u3 ∧
      (u3.enc s.ix).position = (if d = .cw then (s.enc s.ix).position + 1#32 else (s.enc s.ix).position - 1#32) ∧
      (u3.enc s.ix).lastDir = d ∧
      ∃ w, (u3.out.filter fun o => match o with | .record _ => true | .response _ _ | .request _ => false) =
        .record w :: (s.out.filter fun o => match o with | .record _ => true | .response _ _ | .request _ => false) ∧
        w = evtWord 3#4 s.cfg.activeProfile s.ix 0#8 (if d = .cw then 1#4 else 3#4)

end
end

