-- ==== Sys2Proof/Laws/State.lean ====
section
/-! SUPPORT. What each primitive update of the state leaves in each field: one lemma a field, by rfl. -/

namespace Sys2Proof.Machine

variable (s : State)

@[simp] theorem respond_params (st : Status) (d : Word) : (respond st d s).params = s.params := rfl
@[simp] theorem respond_cfg (st : Status) (d : Word) : (respond st d s).cfg = s.cfg := rfl
@[simp] theorem respond_cells (st : Status) (d : Word) : (respond st d s).cells = s.cells := rfl
@[simp] theorem respond_gpioLines (st : Status) (d : Word) : (respond st d s).gpioLines = s.gpioLines := rfl
@[simp] theorem respond_encs (st : Status) (d : Word) : (respond st d s).encs = s.encs := rfl
@[simp] theorem respond_exps (st : Status) (d : Word) : (respond st d s).exps = s.exps := rfl
@[simp] theorem respond_phase (st : Status) (d : Word) : (respond st d s).phase = s.phase := rfl
@[simp] theorem respond_ix (st : Status) (d : Word) : (respond st d s).ix = s.ix := rfl
@[simp] theorem respond_jx (st : Status) (d : Word) : (respond st d s).jx = s.jx := rfl
@[simp] theorem respond_initialized (st : Status) (d : Word) : (respond st d s).initialized = s.initialized := rfl
@[simp] theorem respond_busy (st : Status) (d : Word) : (respond st d s).busy = s.busy := rfl
@[simp] theorem respond_psMode (st : Status) (d : Word) : (respond st d s).psMode = s.psMode := rfl
@[simp] theorem respond_activity (st : Status) (d : Word) : (respond st d s).activity = s.activity := rfl
@[simp] theorem respond_errNotified (st : Status) (d : Word) : (respond st d s).errNotified = s.errNotified := rfl
@[simp] theorem respond_errKind (st : Status) (d : Word) : (respond st d s).errKind = s.errKind := rfl
@[simp] theorem respond_errSrc (st : Status) (d : Word) : (respond st d s).errSrc = s.errSrc := rfl
@[simp] theorem respond_errCause (st : Status) (d : Word) : (respond st d s).errCause = s.errCause := rfl
@[simp] theorem respond_tCycle (st : Status) (d : Word) : (respond st d s).tCycle = s.tCycle := rfl
@[simp] theorem respond_tActivity (st : Status) (d : Word) : (respond st d s).tActivity = s.tActivity := rfl
@[simp] theorem respond_colLatch (st : Status) (d : Word) : (respond st d s).colLatch = s.colLatch := rfl
@[simp] theorem respond_expWord (st : Status) (d : Word) : (respond st d s).expWord = s.expWord := rfl
@[simp] theorem respond_expOk (st : Status) (d : Word) : (respond st d s).expOk = s.expOk := rfl
@[simp] theorem respond_evt (st : Status) (d : Word) : (respond st d s).evt = s.evt := rfl
@[simp] theorem respond_updWait (st : Status) (d : Word) : (respond st d s).updWait = s.updWait := rfl
@[simp] theorem respond_todo (st : Status) (d : Word) : (respond st d s).todo = s.todo := rfl
@[simp] theorem respond_call (st : Status) (d : Word) : (respond st d s).call = s.call := rfl
@[simp] theorem respond_host (st : Status) (d : Word) : (respond st d s).host = s.host := rfl
@[simp] theorem respond_env (st : Status) (d : Word) : (respond st d s).env = s.env := rfl
@[simp] theorem respond_out (st : Status) (d : Word) : (respond st d s).out = .response st d :: s.out := rfl

@[simp] theorem request_params (r : Request) : (request r s).params = s.params := rfl
@[simp] theorem request_cfg (r : Request) : (request r s).cfg = s.cfg := rfl
@[simp] theorem request_cells (r : Request) : (request r s).cells = s.cells := rfl
@[simp] theorem request_gpioLines (r : Request) : (request r s).gpioLines = s.gpioLines := rfl
@[simp] theorem request_encs (r : Request) : (request r s).encs = s.encs := rfl
@[simp] theorem request_exps (r : Request) : (request r s).exps = s.exps := rfl
@[simp] theorem request_phase (r : Request) : (request r s).phase = s.phase := rfl
@[simp] theorem request_ix (r : Request) : (request r s).ix = s.ix := rfl
@[simp] theorem request_jx (r : Request) : (request r s).jx = s.jx := rfl
@[simp] theorem request_initialized (r : Request) : (request r s).initialized = s.initialized := rfl
@[simp] theorem request_busy (r : Request) : (request r s).busy = s.busy := rfl
@[simp] theorem request_psMode (r : Request) : (request r s).psMode = s.psMode := rfl
@[simp] theorem request_activity (r : Request) : (request r s).activity = s.activity := rfl
@[simp] theorem request_errNotified (r : Request) : (request r s).errNotified = s.errNotified := rfl
@[simp] theorem request_errKind (r : Request) : (request r s).errKind = s.errKind := rfl
@[simp] theorem request_errSrc (r : Request) : (request r s).errSrc = s.errSrc := rfl
@[simp] theorem request_errCause (r : Request) : (request r s).errCause = s.errCause := rfl
@[simp] theorem request_tCycle (r : Request) : (request r s).tCycle = s.tCycle := rfl
@[simp] theorem request_tActivity (r : Request) : (request r s).tActivity = s.tActivity := rfl
@[simp] theorem request_colLatch (r : Request) : (request r s).colLatch = s.colLatch := rfl
@[simp] theorem request_expWord (r : Request) : (request r s).expWord = s.expWord := rfl
@[simp] theorem request_expOk (r : Request) : (request r s).expOk = s.expOk := rfl
@[simp] theorem request_evt (r : Request) : (request r s).evt = s.evt := rfl
@[simp] theorem request_updWait (r : Request) : (request r s).updWait = s.updWait := rfl
@[simp] theorem request_todo (r : Request) : (request r s).todo = s.todo := rfl
@[simp] theorem request_call (r : Request) : (request r s).call = s.call := rfl
@[simp] theorem request_host (r : Request) : (request r s).host = s.host := rfl
@[simp] theorem request_env (r : Request) : (request r s).env = s.env := rfl
@[simp] theorem request_out (r : Request) : (request r s).out = .request r :: s.out := rfl

@[simp] theorem present_params (w : BitVec 32) : (present w s).params = s.params := rfl
@[simp] theorem present_cfg (w : BitVec 32) : (present w s).cfg = s.cfg := rfl
@[simp] theorem present_cells (w : BitVec 32) : (present w s).cells = s.cells := rfl
@[simp] theorem present_gpioLines (w : BitVec 32) : (present w s).gpioLines = s.gpioLines := rfl
@[simp] theorem present_encs (w : BitVec 32) : (present w s).encs = s.encs := rfl
@[simp] theorem present_exps (w : BitVec 32) : (present w s).exps = s.exps := rfl
@[simp] theorem present_phase (w : BitVec 32) : (present w s).phase = s.phase := rfl
@[simp] theorem present_ix (w : BitVec 32) : (present w s).ix = s.ix := rfl
@[simp] theorem present_jx (w : BitVec 32) : (present w s).jx = s.jx := rfl
@[simp] theorem present_initialized (w : BitVec 32) : (present w s).initialized = s.initialized := rfl
@[simp] theorem present_busy (w : BitVec 32) : (present w s).busy = s.busy := rfl
@[simp] theorem present_psMode (w : BitVec 32) : (present w s).psMode = s.psMode := rfl
@[simp] theorem present_activity (w : BitVec 32) : (present w s).activity = s.activity := rfl
@[simp] theorem present_errNotified (w : BitVec 32) : (present w s).errNotified = s.errNotified := rfl
@[simp] theorem present_errKind (w : BitVec 32) : (present w s).errKind = s.errKind := rfl
@[simp] theorem present_errSrc (w : BitVec 32) : (present w s).errSrc = s.errSrc := rfl
@[simp] theorem present_errCause (w : BitVec 32) : (present w s).errCause = s.errCause := rfl
@[simp] theorem present_tCycle (w : BitVec 32) : (present w s).tCycle = s.tCycle := rfl
@[simp] theorem present_tActivity (w : BitVec 32) : (present w s).tActivity = s.tActivity := rfl
@[simp] theorem present_colLatch (w : BitVec 32) : (present w s).colLatch = s.colLatch := rfl
@[simp] theorem present_expWord (w : BitVec 32) : (present w s).expWord = s.expWord := rfl
@[simp] theorem present_expOk (w : BitVec 32) : (present w s).expOk = s.expOk := rfl
@[simp] theorem present_evt (w : BitVec 32) : (present w s).evt = some w := rfl
@[simp] theorem present_updWait (w : BitVec 32) : (present w s).updWait = s.updWait := rfl
@[simp] theorem present_todo (w : BitVec 32) : (present w s).todo = s.todo := rfl
@[simp] theorem present_call (w : BitVec 32) : (present w s).call = s.call := rfl
@[simp] theorem present_host (w : BitVec 32) : (present w s).host = s.host := rfl
@[simp] theorem present_env (w : BitVec 32) : (present w s).env = s.env := rfl
@[simp] theorem present_out (w : BitVec 32) : (present w s).out = .record w :: s.out := rfl

@[simp] theorem setEnc_params (e : Byte) (x : Enc) : (setEnc e x s).params = s.params := rfl
@[simp] theorem setEnc_cfg (e : Byte) (x : Enc) : (setEnc e x s).cfg = s.cfg := rfl
@[simp] theorem setEnc_cells (e : Byte) (x : Enc) : (setEnc e x s).cells = s.cells := rfl
@[simp] theorem setEnc_gpioLines (e : Byte) (x : Enc) : (setEnc e x s).gpioLines = s.gpioLines := rfl
@[simp] theorem setEnc_encs (e : Byte) (x : Enc) : (setEnc e x s).encs = Table.put Enc.reset s.encs e.toNat x := rfl
@[simp] theorem setEnc_exps (e : Byte) (x : Enc) : (setEnc e x s).exps = s.exps := rfl
@[simp] theorem setEnc_phase (e : Byte) (x : Enc) : (setEnc e x s).phase = s.phase := rfl
@[simp] theorem setEnc_ix (e : Byte) (x : Enc) : (setEnc e x s).ix = s.ix := rfl
@[simp] theorem setEnc_jx (e : Byte) (x : Enc) : (setEnc e x s).jx = s.jx := rfl
@[simp] theorem setEnc_initialized (e : Byte) (x : Enc) : (setEnc e x s).initialized = s.initialized := rfl
@[simp] theorem setEnc_busy (e : Byte) (x : Enc) : (setEnc e x s).busy = s.busy := rfl
@[simp] theorem setEnc_psMode (e : Byte) (x : Enc) : (setEnc e x s).psMode = s.psMode := rfl
@[simp] theorem setEnc_activity (e : Byte) (x : Enc) : (setEnc e x s).activity = s.activity := rfl
@[simp] theorem setEnc_errNotified (e : Byte) (x : Enc) : (setEnc e x s).errNotified = s.errNotified := rfl
@[simp] theorem setEnc_errKind (e : Byte) (x : Enc) : (setEnc e x s).errKind = s.errKind := rfl
@[simp] theorem setEnc_errSrc (e : Byte) (x : Enc) : (setEnc e x s).errSrc = s.errSrc := rfl
@[simp] theorem setEnc_errCause (e : Byte) (x : Enc) : (setEnc e x s).errCause = s.errCause := rfl
@[simp] theorem setEnc_tCycle (e : Byte) (x : Enc) : (setEnc e x s).tCycle = s.tCycle := rfl
@[simp] theorem setEnc_tActivity (e : Byte) (x : Enc) : (setEnc e x s).tActivity = s.tActivity := rfl
@[simp] theorem setEnc_colLatch (e : Byte) (x : Enc) : (setEnc e x s).colLatch = s.colLatch := rfl
@[simp] theorem setEnc_expWord (e : Byte) (x : Enc) : (setEnc e x s).expWord = s.expWord := rfl
@[simp] theorem setEnc_expOk (e : Byte) (x : Enc) : (setEnc e x s).expOk = s.expOk := rfl
@[simp] theorem setEnc_evt (e : Byte) (x : Enc) : (setEnc e x s).evt = s.evt := rfl
@[simp] theorem setEnc_updWait (e : Byte) (x : Enc) : (setEnc e x s).updWait = s.updWait := rfl
@[simp] theorem setEnc_todo (e : Byte) (x : Enc) : (setEnc e x s).todo = s.todo := rfl
@[simp] theorem setEnc_call (e : Byte) (x : Enc) : (setEnc e x s).call = s.call := rfl
@[simp] theorem setEnc_host (e : Byte) (x : Enc) : (setEnc e x s).host = s.host := rfl
@[simp] theorem setEnc_env (e : Byte) (x : Enc) : (setEnc e x s).env = s.env := rfl
@[simp] theorem setEnc_out (e : Byte) (x : Enc) : (setEnc e x s).out = s.out := rfl

@[simp] theorem setExp_params (d : Byte) (x : Exp) : (setExp d x s).params = s.params := rfl
@[simp] theorem setExp_cfg (d : Byte) (x : Exp) : (setExp d x s).cfg = s.cfg := rfl
@[simp] theorem setExp_cells (d : Byte) (x : Exp) : (setExp d x s).cells = s.cells := rfl
@[simp] theorem setExp_gpioLines (d : Byte) (x : Exp) : (setExp d x s).gpioLines = s.gpioLines := rfl
@[simp] theorem setExp_encs (d : Byte) (x : Exp) : (setExp d x s).encs = s.encs := rfl
@[simp] theorem setExp_exps (d : Byte) (x : Exp) : (setExp d x s).exps = Table.put Exp.reset s.exps d.toNat x := rfl
@[simp] theorem setExp_phase (d : Byte) (x : Exp) : (setExp d x s).phase = s.phase := rfl
@[simp] theorem setExp_ix (d : Byte) (x : Exp) : (setExp d x s).ix = s.ix := rfl
@[simp] theorem setExp_jx (d : Byte) (x : Exp) : (setExp d x s).jx = s.jx := rfl
@[simp] theorem setExp_initialized (d : Byte) (x : Exp) : (setExp d x s).initialized = s.initialized := rfl
@[simp] theorem setExp_busy (d : Byte) (x : Exp) : (setExp d x s).busy = s.busy := rfl
@[simp] theorem setExp_psMode (d : Byte) (x : Exp) : (setExp d x s).psMode = s.psMode := rfl
@[simp] theorem setExp_activity (d : Byte) (x : Exp) : (setExp d x s).activity = s.activity := rfl
@[simp] theorem setExp_errNotified (d : Byte) (x : Exp) : (setExp d x s).errNotified = s.errNotified := rfl
@[simp] theorem setExp_errKind (d : Byte) (x : Exp) : (setExp d x s).errKind = s.errKind := rfl
@[simp] theorem setExp_errSrc (d : Byte) (x : Exp) : (setExp d x s).errSrc = s.errSrc := rfl
@[simp] theorem setExp_errCause (d : Byte) (x : Exp) : (setExp d x s).errCause = s.errCause := rfl
@[simp] theorem setExp_tCycle (d : Byte) (x : Exp) : (setExp d x s).tCycle = s.tCycle := rfl
@[simp] theorem setExp_tActivity (d : Byte) (x : Exp) : (setExp d x s).tActivity = s.tActivity := rfl
@[simp] theorem setExp_colLatch (d : Byte) (x : Exp) : (setExp d x s).colLatch = s.colLatch := rfl
@[simp] theorem setExp_expWord (d : Byte) (x : Exp) : (setExp d x s).expWord = s.expWord := rfl
@[simp] theorem setExp_expOk (d : Byte) (x : Exp) : (setExp d x s).expOk = s.expOk := rfl
@[simp] theorem setExp_evt (d : Byte) (x : Exp) : (setExp d x s).evt = s.evt := rfl
@[simp] theorem setExp_updWait (d : Byte) (x : Exp) : (setExp d x s).updWait = s.updWait := rfl
@[simp] theorem setExp_todo (d : Byte) (x : Exp) : (setExp d x s).todo = s.todo := rfl
@[simp] theorem setExp_call (d : Byte) (x : Exp) : (setExp d x s).call = s.call := rfl
@[simp] theorem setExp_host (d : Byte) (x : Exp) : (setExp d x s).host = s.host := rfl
@[simp] theorem setExp_env (d : Byte) (x : Exp) : (setExp d x s).env = s.env := rfl
@[simp] theorem setExp_out (d : Byte) (x : Exp) : (setExp d x s).out = s.out := rfl

@[simp] theorem setGpioLine_params (i : Byte) (l : Line) : (setGpioLine i l s).params = s.params := rfl
@[simp] theorem setGpioLine_cfg (i : Byte) (l : Line) : (setGpioLine i l s).cfg = s.cfg := rfl
@[simp] theorem setGpioLine_cells (i : Byte) (l : Line) : (setGpioLine i l s).cells = s.cells := rfl
@[simp] theorem setGpioLine_gpioLines (i : Byte) (l : Line) : (setGpioLine i l s).gpioLines = Table.put Line.reset s.gpioLines i.toNat l := rfl
@[simp] theorem setGpioLine_encs (i : Byte) (l : Line) : (setGpioLine i l s).encs = s.encs := rfl
@[simp] theorem setGpioLine_exps (i : Byte) (l : Line) : (setGpioLine i l s).exps = s.exps := rfl
@[simp] theorem setGpioLine_phase (i : Byte) (l : Line) : (setGpioLine i l s).phase = s.phase := rfl
@[simp] theorem setGpioLine_ix (i : Byte) (l : Line) : (setGpioLine i l s).ix = s.ix := rfl
@[simp] theorem setGpioLine_jx (i : Byte) (l : Line) : (setGpioLine i l s).jx = s.jx := rfl
@[simp] theorem setGpioLine_initialized (i : Byte) (l : Line) : (setGpioLine i l s).initialized = s.initialized := rfl
@[simp] theorem setGpioLine_busy (i : Byte) (l : Line) : (setGpioLine i l s).busy = s.busy := rfl
@[simp] theorem setGpioLine_psMode (i : Byte) (l : Line) : (setGpioLine i l s).psMode = s.psMode := rfl
@[simp] theorem setGpioLine_activity (i : Byte) (l : Line) : (setGpioLine i l s).activity = s.activity := rfl
@[simp] theorem setGpioLine_errNotified (i : Byte) (l : Line) : (setGpioLine i l s).errNotified = s.errNotified := rfl
@[simp] theorem setGpioLine_errKind (i : Byte) (l : Line) : (setGpioLine i l s).errKind = s.errKind := rfl
@[simp] theorem setGpioLine_errSrc (i : Byte) (l : Line) : (setGpioLine i l s).errSrc = s.errSrc := rfl
@[simp] theorem setGpioLine_errCause (i : Byte) (l : Line) : (setGpioLine i l s).errCause = s.errCause := rfl
@[simp] theorem setGpioLine_tCycle (i : Byte) (l : Line) : (setGpioLine i l s).tCycle = s.tCycle := rfl
@[simp] theorem setGpioLine_tActivity (i : Byte) (l : Line) : (setGpioLine i l s).tActivity = s.tActivity := rfl
@[simp] theorem setGpioLine_colLatch (i : Byte) (l : Line) : (setGpioLine i l s).colLatch = s.colLatch := rfl
@[simp] theorem setGpioLine_expWord (i : Byte) (l : Line) : (setGpioLine i l s).expWord = s.expWord := rfl
@[simp] theorem setGpioLine_expOk (i : Byte) (l : Line) : (setGpioLine i l s).expOk = s.expOk := rfl
@[simp] theorem setGpioLine_evt (i : Byte) (l : Line) : (setGpioLine i l s).evt = s.evt := rfl
@[simp] theorem setGpioLine_updWait (i : Byte) (l : Line) : (setGpioLine i l s).updWait = s.updWait := rfl
@[simp] theorem setGpioLine_todo (i : Byte) (l : Line) : (setGpioLine i l s).todo = s.todo := rfl
@[simp] theorem setGpioLine_call (i : Byte) (l : Line) : (setGpioLine i l s).call = s.call := rfl
@[simp] theorem setGpioLine_host (i : Byte) (l : Line) : (setGpioLine i l s).host = s.host := rfl
@[simp] theorem setGpioLine_env (i : Byte) (l : Line) : (setGpioLine i l s).env = s.env := rfl
@[simp] theorem setGpioLine_out (i : Byte) (l : Line) : (setGpioLine i l s).out = s.out := rfl

@[simp] theorem setCell_params (r c : Byte) (l : Line) : (setCell r c l s).params = s.params := rfl
@[simp] theorem setCell_cfg (r c : Byte) (l : Line) : (setCell r c l s).cfg = s.cfg := rfl
@[simp] theorem setCell_cells (r c : Byte) (l : Line) : (setCell r c l s).cells = Table.put Line.reset s.cells (cellIndex r c) l := rfl
@[simp] theorem setCell_gpioLines (r c : Byte) (l : Line) : (setCell r c l s).gpioLines = s.gpioLines := rfl
@[simp] theorem setCell_encs (r c : Byte) (l : Line) : (setCell r c l s).encs = s.encs := rfl
@[simp] theorem setCell_exps (r c : Byte) (l : Line) : (setCell r c l s).exps = s.exps := rfl
@[simp] theorem setCell_phase (r c : Byte) (l : Line) : (setCell r c l s).phase = s.phase := rfl
@[simp] theorem setCell_ix (r c : Byte) (l : Line) : (setCell r c l s).ix = s.ix := rfl
@[simp] theorem setCell_jx (r c : Byte) (l : Line) : (setCell r c l s).jx = s.jx := rfl
@[simp] theorem setCell_initialized (r c : Byte) (l : Line) : (setCell r c l s).initialized = s.initialized := rfl
@[simp] theorem setCell_busy (r c : Byte) (l : Line) : (setCell r c l s).busy = s.busy := rfl
@[simp] theorem setCell_psMode (r c : Byte) (l : Line) : (setCell r c l s).psMode = s.psMode := rfl
@[simp] theorem setCell_activity (r c : Byte) (l : Line) : (setCell r c l s).activity = s.activity := rfl
@[simp] theorem setCell_errNotified (r c : Byte) (l : Line) : (setCell r c l s).errNotified = s.errNotified := rfl
@[simp] theorem setCell_errKind (r c : Byte) (l : Line) : (setCell r c l s).errKind = s.errKind := rfl
@[simp] theorem setCell_errSrc (r c : Byte) (l : Line) : (setCell r c l s).errSrc = s.errSrc := rfl
@[simp] theorem setCell_errCause (r c : Byte) (l : Line) : (setCell r c l s).errCause = s.errCause := rfl
@[simp] theorem setCell_tCycle (r c : Byte) (l : Line) : (setCell r c l s).tCycle = s.tCycle := rfl
@[simp] theorem setCell_tActivity (r c : Byte) (l : Line) : (setCell r c l s).tActivity = s.tActivity := rfl
@[simp] theorem setCell_colLatch (r c : Byte) (l : Line) : (setCell r c l s).colLatch = s.colLatch := rfl
@[simp] theorem setCell_expWord (r c : Byte) (l : Line) : (setCell r c l s).expWord = s.expWord := rfl
@[simp] theorem setCell_expOk (r c : Byte) (l : Line) : (setCell r c l s).expOk = s.expOk := rfl
@[simp] theorem setCell_evt (r c : Byte) (l : Line) : (setCell r c l s).evt = s.evt := rfl
@[simp] theorem setCell_updWait (r c : Byte) (l : Line) : (setCell r c l s).updWait = s.updWait := rfl
@[simp] theorem setCell_todo (r c : Byte) (l : Line) : (setCell r c l s).todo = s.todo := rfl
@[simp] theorem setCell_call (r c : Byte) (l : Line) : (setCell r c l s).call = s.call := rfl
@[simp] theorem setCell_host (r c : Byte) (l : Line) : (setCell r c l s).host = s.host := rfl
@[simp] theorem setCell_env (r c : Byte) (l : Line) : (setCell r c l s).env = s.env := rfl
@[simp] theorem setCell_out (r c : Byte) (l : Line) : (setCell r c l s).out = s.out := rfl

@[simp] theorem setColLatch_params (c : Nat) (l : Level) : (setColLatch c l s).params = s.params := rfl
@[simp] theorem setColLatch_cfg (c : Nat) (l : Level) : (setColLatch c l s).cfg = s.cfg := rfl
@[simp] theorem setColLatch_cells (c : Nat) (l : Level) : (setColLatch c l s).cells = s.cells := rfl
@[simp] theorem setColLatch_gpioLines (c : Nat) (l : Level) : (setColLatch c l s).gpioLines = s.gpioLines := rfl
@[simp] theorem setColLatch_encs (c : Nat) (l : Level) : (setColLatch c l s).encs = s.encs := rfl
@[simp] theorem setColLatch_exps (c : Nat) (l : Level) : (setColLatch c l s).exps = s.exps := rfl
@[simp] theorem setColLatch_phase (c : Nat) (l : Level) : (setColLatch c l s).phase = s.phase := rfl
@[simp] theorem setColLatch_ix (c : Nat) (l : Level) : (setColLatch c l s).ix = s.ix := rfl
@[simp] theorem setColLatch_jx (c : Nat) (l : Level) : (setColLatch c l s).jx = s.jx := rfl
@[simp] theorem setColLatch_initialized (c : Nat) (l : Level) : (setColLatch c l s).initialized = s.initialized := rfl
@[simp] theorem setColLatch_busy (c : Nat) (l : Level) : (setColLatch c l s).busy = s.busy := rfl
@[simp] theorem setColLatch_psMode (c : Nat) (l : Level) : (setColLatch c l s).psMode = s.psMode := rfl
@[simp] theorem setColLatch_activity (c : Nat) (l : Level) : (setColLatch c l s).activity = s.activity := rfl
@[simp] theorem setColLatch_errNotified (c : Nat) (l : Level) : (setColLatch c l s).errNotified = s.errNotified := rfl
@[simp] theorem setColLatch_errKind (c : Nat) (l : Level) : (setColLatch c l s).errKind = s.errKind := rfl
@[simp] theorem setColLatch_errSrc (c : Nat) (l : Level) : (setColLatch c l s).errSrc = s.errSrc := rfl
@[simp] theorem setColLatch_errCause (c : Nat) (l : Level) : (setColLatch c l s).errCause = s.errCause := rfl
@[simp] theorem setColLatch_tCycle (c : Nat) (l : Level) : (setColLatch c l s).tCycle = s.tCycle := rfl
@[simp] theorem setColLatch_tActivity (c : Nat) (l : Level) : (setColLatch c l s).tActivity = s.tActivity := rfl
@[simp] theorem setColLatch_colLatch (c : Nat) (l : Level) : (setColLatch c l s).colLatch = Table.put false s.colLatch c l := rfl
@[simp] theorem setColLatch_expWord (c : Nat) (l : Level) : (setColLatch c l s).expWord = s.expWord := rfl
@[simp] theorem setColLatch_expOk (c : Nat) (l : Level) : (setColLatch c l s).expOk = s.expOk := rfl
@[simp] theorem setColLatch_evt (c : Nat) (l : Level) : (setColLatch c l s).evt = s.evt := rfl
@[simp] theorem setColLatch_updWait (c : Nat) (l : Level) : (setColLatch c l s).updWait = s.updWait := rfl
@[simp] theorem setColLatch_todo (c : Nat) (l : Level) : (setColLatch c l s).todo = s.todo := rfl
@[simp] theorem setColLatch_call (c : Nat) (l : Level) : (setColLatch c l s).call = s.call := rfl
@[simp] theorem setColLatch_host (c : Nat) (l : Level) : (setColLatch c l s).host = s.host := rfl
@[simp] theorem setColLatch_env (c : Nat) (l : Level) : (setColLatch c l s).env = s.env := rfl
@[simp] theorem setColLatch_out (c : Nat) (l : Level) : (setColLatch c l s).out = s.out := rfl

@[simp] theorem pushTask_params (t : Task) : (pushTask t s).params = s.params := rfl
@[simp] theorem pushTask_cfg (t : Task) : (pushTask t s).cfg = s.cfg := rfl
@[simp] theorem pushTask_cells (t : Task) : (pushTask t s).cells = s.cells := rfl
@[simp] theorem pushTask_gpioLines (t : Task) : (pushTask t s).gpioLines = s.gpioLines := rfl
@[simp] theorem pushTask_encs (t : Task) : (pushTask t s).encs = s.encs := rfl
@[simp] theorem pushTask_exps (t : Task) : (pushTask t s).exps = s.exps := rfl
@[simp] theorem pushTask_phase (t : Task) : (pushTask t s).phase = s.phase := rfl
@[simp] theorem pushTask_ix (t : Task) : (pushTask t s).ix = s.ix := rfl
@[simp] theorem pushTask_jx (t : Task) : (pushTask t s).jx = s.jx := rfl
@[simp] theorem pushTask_initialized (t : Task) : (pushTask t s).initialized = s.initialized := rfl
@[simp] theorem pushTask_busy (t : Task) : (pushTask t s).busy = s.busy := rfl
@[simp] theorem pushTask_psMode (t : Task) : (pushTask t s).psMode = s.psMode := rfl
@[simp] theorem pushTask_activity (t : Task) : (pushTask t s).activity = s.activity := rfl
@[simp] theorem pushTask_errNotified (t : Task) : (pushTask t s).errNotified = s.errNotified := rfl
@[simp] theorem pushTask_errKind (t : Task) : (pushTask t s).errKind = s.errKind := rfl
@[simp] theorem pushTask_errSrc (t : Task) : (pushTask t s).errSrc = s.errSrc := rfl
@[simp] theorem pushTask_errCause (t : Task) : (pushTask t s).errCause = s.errCause := rfl
@[simp] theorem pushTask_tCycle (t : Task) : (pushTask t s).tCycle = s.tCycle := rfl
@[simp] theorem pushTask_tActivity (t : Task) : (pushTask t s).tActivity = s.tActivity := rfl
@[simp] theorem pushTask_colLatch (t : Task) : (pushTask t s).colLatch = s.colLatch := rfl
@[simp] theorem pushTask_expWord (t : Task) : (pushTask t s).expWord = s.expWord := rfl
@[simp] theorem pushTask_expOk (t : Task) : (pushTask t s).expOk = s.expOk := rfl
@[simp] theorem pushTask_evt (t : Task) : (pushTask t s).evt = s.evt := rfl
@[simp] theorem pushTask_updWait (t : Task) : (pushTask t s).updWait = s.updWait := rfl
@[simp] theorem pushTask_todo (t : Task) : (pushTask t s).todo = t :: s.todo := rfl
@[simp] theorem pushTask_call (t : Task) : (pushTask t s).call = s.call := rfl
@[simp] theorem pushTask_host (t : Task) : (pushTask t s).host = s.host := rfl
@[simp] theorem pushTask_env (t : Task) : (pushTask t s).env = s.env := rfl
@[simp] theorem pushTask_out (t : Task) : (pushTask t s).out = s.out := rfl

@[simp] theorem goIdle_params : (goIdle s).params = s.params := rfl
@[simp] theorem goIdle_cfg : (goIdle s).cfg = s.cfg := rfl
@[simp] theorem goIdle_cells : (goIdle s).cells = s.cells := rfl
@[simp] theorem goIdle_gpioLines : (goIdle s).gpioLines = s.gpioLines := rfl
@[simp] theorem goIdle_encs : (goIdle s).encs = s.encs := rfl
@[simp] theorem goIdle_exps : (goIdle s).exps = s.exps := rfl
@[simp] theorem goIdle_phase : (goIdle s).phase = 0#5 := rfl
@[simp] theorem goIdle_ix : (goIdle s).ix = 0#8 := rfl
@[simp] theorem goIdle_jx : (goIdle s).jx = 0#8 := rfl
@[simp] theorem goIdle_initialized : (goIdle s).initialized = s.initialized := rfl
@[simp] theorem goIdle_busy : (goIdle s).busy = false := rfl
@[simp] theorem goIdle_psMode : (goIdle s).psMode = s.psMode := rfl
@[simp] theorem goIdle_activity : (goIdle s).activity = s.activity := rfl
@[simp] theorem goIdle_errNotified : (goIdle s).errNotified = s.errNotified := rfl
@[simp] theorem goIdle_errKind : (goIdle s).errKind = s.errKind := rfl
@[simp] theorem goIdle_errSrc : (goIdle s).errSrc = s.errSrc := rfl
@[simp] theorem goIdle_errCause : (goIdle s).errCause = s.errCause := rfl
@[simp] theorem goIdle_tCycle : (goIdle s).tCycle = s.tCycle := rfl
@[simp] theorem goIdle_tActivity : (goIdle s).tActivity = s.tActivity := rfl
@[simp] theorem goIdle_colLatch : (goIdle s).colLatch = s.colLatch := rfl
@[simp] theorem goIdle_expWord : (goIdle s).expWord = s.expWord := rfl
@[simp] theorem goIdle_expOk : (goIdle s).expOk = s.expOk := rfl
@[simp] theorem goIdle_evt : (goIdle s).evt = s.evt := rfl
@[simp] theorem goIdle_updWait : (goIdle s).updWait = s.updWait := rfl
@[simp] theorem goIdle_todo : (goIdle s).todo = s.todo := rfl
@[simp] theorem goIdle_call : (goIdle s).call = s.call := rfl
@[simp] theorem goIdle_host : (goIdle s).host = s.host := rfl
@[simp] theorem goIdle_env : (goIdle s).env = s.env := rfl
@[simp] theorem goIdle_out : (goIdle s).out = s.out := rfl

@[simp] theorem clearSlot_params : (clearSlot s).params = s.params := rfl
@[simp] theorem clearSlot_cfg : (clearSlot s).cfg = s.cfg := rfl
@[simp] theorem clearSlot_cells : (clearSlot s).cells = s.cells := rfl
@[simp] theorem clearSlot_gpioLines : (clearSlot s).gpioLines = s.gpioLines := rfl
@[simp] theorem clearSlot_encs : (clearSlot s).encs = s.encs := rfl
@[simp] theorem clearSlot_exps : (clearSlot s).exps = s.exps := rfl
@[simp] theorem clearSlot_phase : (clearSlot s).phase = s.phase := rfl
@[simp] theorem clearSlot_ix : (clearSlot s).ix = s.ix := rfl
@[simp] theorem clearSlot_jx : (clearSlot s).jx = s.jx := rfl
@[simp] theorem clearSlot_initialized : (clearSlot s).initialized = s.initialized := rfl
@[simp] theorem clearSlot_busy : (clearSlot s).busy = s.busy := rfl
@[simp] theorem clearSlot_psMode : (clearSlot s).psMode = s.psMode := rfl
@[simp] theorem clearSlot_activity : (clearSlot s).activity = s.activity := rfl
@[simp] theorem clearSlot_errNotified : (clearSlot s).errNotified = false := rfl
@[simp] theorem clearSlot_errKind : (clearSlot s).errKind = .none := rfl
@[simp] theorem clearSlot_errSrc : (clearSlot s).errSrc = 0#8 := rfl
@[simp] theorem clearSlot_errCause : (clearSlot s).errCause = 0#8 := rfl
@[simp] theorem clearSlot_tCycle : (clearSlot s).tCycle = s.tCycle := rfl
@[simp] theorem clearSlot_tActivity : (clearSlot s).tActivity = s.tActivity := rfl
@[simp] theorem clearSlot_colLatch : (clearSlot s).colLatch = s.colLatch := rfl
@[simp] theorem clearSlot_expWord : (clearSlot s).expWord = s.expWord := rfl
@[simp] theorem clearSlot_expOk : (clearSlot s).expOk = s.expOk := rfl
@[simp] theorem clearSlot_evt : (clearSlot s).evt = s.evt := rfl
@[simp] theorem clearSlot_updWait : (clearSlot s).updWait = s.updWait := rfl
@[simp] theorem clearSlot_todo : (clearSlot s).todo = s.todo := rfl
@[simp] theorem clearSlot_call : (clearSlot s).call = s.call := rfl
@[simp] theorem clearSlot_host : (clearSlot s).host = s.host := rfl
@[simp] theorem clearSlot_env : (clearSlot s).env = s.env := rfl
@[simp] theorem clearSlot_out : (clearSlot s).out = s.out := rfl

@[simp] theorem acknowledge_params (b : Bool) : (acknowledge b s).params = s.params := rfl
@[simp] theorem acknowledge_cfg (b : Bool) : (acknowledge b s).cfg = s.cfg := rfl
@[simp] theorem acknowledge_cells (b : Bool) : (acknowledge b s).cells = s.cells := rfl
@[simp] theorem acknowledge_gpioLines (b : Bool) : (acknowledge b s).gpioLines = s.gpioLines := rfl
@[simp] theorem acknowledge_encs (b : Bool) : (acknowledge b s).encs = s.encs := rfl
@[simp] theorem acknowledge_exps (b : Bool) : (acknowledge b s).exps = s.exps := rfl
@[simp] theorem acknowledge_phase (b : Bool) : (acknowledge b s).phase = s.phase := rfl
@[simp] theorem acknowledge_ix (b : Bool) : (acknowledge b s).ix = s.ix := rfl
@[simp] theorem acknowledge_jx (b : Bool) : (acknowledge b s).jx = s.jx := rfl
@[simp] theorem acknowledge_initialized (b : Bool) : (acknowledge b s).initialized = s.initialized := rfl
@[simp] theorem acknowledge_busy (b : Bool) : (acknowledge b s).busy = s.busy := rfl
@[simp] theorem acknowledge_psMode (b : Bool) : (acknowledge b s).psMode = s.psMode := rfl
@[simp] theorem acknowledge_activity (b : Bool) : (acknowledge b s).activity = s.activity := rfl
@[simp] theorem acknowledge_errNotified (b : Bool) : (acknowledge b s).errNotified = s.errNotified := rfl
@[simp] theorem acknowledge_errKind (b : Bool) : (acknowledge b s).errKind = s.errKind := rfl
@[simp] theorem acknowledge_errSrc (b : Bool) : (acknowledge b s).errSrc = s.errSrc := rfl
@[simp] theorem acknowledge_errCause (b : Bool) : (acknowledge b s).errCause = s.errCause := rfl
@[simp] theorem acknowledge_tCycle (b : Bool) : (acknowledge b s).tCycle = s.tCycle := rfl
@[simp] theorem acknowledge_tActivity (b : Bool) : (acknowledge b s).tActivity = s.tActivity := rfl
@[simp] theorem acknowledge_colLatch (b : Bool) : (acknowledge b s).colLatch = s.colLatch := rfl
@[simp] theorem acknowledge_expWord (b : Bool) : (acknowledge b s).expWord = s.expWord := rfl
@[simp] theorem acknowledge_expOk (b : Bool) : (acknowledge b s).expOk = s.expOk := rfl
@[simp] theorem acknowledge_evt (b : Bool) : (acknowledge b s).evt = none := rfl
@[simp] theorem acknowledge_updWait (b : Bool) : (acknowledge b s).updWait = s.updWait := rfl
@[simp] theorem acknowledge_todo (b : Bool) : (acknowledge b s).todo = s.todo := rfl
@[simp] theorem acknowledge_call (b : Bool) : (acknowledge b s).call = s.call := rfl
@[simp] theorem acknowledge_host (b : Bool) : (acknowledge b s).host = s.host := rfl
@[simp] theorem acknowledge_env (b : Bool) : (acknowledge b s).env = s.env := rfl
@[simp] theorem acknowledge_out (b : Bool) : (acknowledge b s).out = s.out := rfl

@[simp] theorem pinMode_params (p : Byte) (m : PinMode) : (pinMode p m s).params = s.params := rfl
@[simp] theorem pinMode_cfg (p : Byte) (m : PinMode) : (pinMode p m s).cfg = s.cfg := rfl
@[simp] theorem pinMode_cells (p : Byte) (m : PinMode) : (pinMode p m s).cells = s.cells := rfl
@[simp] theorem pinMode_gpioLines (p : Byte) (m : PinMode) : (pinMode p m s).gpioLines = s.gpioLines := rfl
@[simp] theorem pinMode_encs (p : Byte) (m : PinMode) : (pinMode p m s).encs = s.encs := rfl
@[simp] theorem pinMode_exps (p : Byte) (m : PinMode) : (pinMode p m s).exps = s.exps := rfl
@[simp] theorem pinMode_phase (p : Byte) (m : PinMode) : (pinMode p m s).phase = s.phase := rfl
@[simp] theorem pinMode_ix (p : Byte) (m : PinMode) : (pinMode p m s).ix = s.ix := rfl
@[simp] theorem pinMode_jx (p : Byte) (m : PinMode) : (pinMode p m s).jx = s.jx := rfl
@[simp] theorem pinMode_initialized (p : Byte) (m : PinMode) : (pinMode p m s).initialized = s.initialized := rfl
@[simp] theorem pinMode_busy (p : Byte) (m : PinMode) : (pinMode p m s).busy = s.busy := rfl
@[simp] theorem pinMode_psMode (p : Byte) (m : PinMode) : (pinMode p m s).psMode = s.psMode := rfl
@[simp] theorem pinMode_activity (p : Byte) (m : PinMode) : (pinMode p m s).activity = s.activity := rfl
@[simp] theorem pinMode_errNotified (p : Byte) (m : PinMode) : (pinMode p m s).errNotified = s.errNotified := rfl
@[simp] theorem pinMode_errKind (p : Byte) (m : PinMode) : (pinMode p m s).errKind = s.errKind := rfl
@[simp] theorem pinMode_errSrc (p : Byte) (m : PinMode) : (pinMode p m s).errSrc = s.errSrc := rfl
@[simp] theorem pinMode_errCause (p : Byte) (m : PinMode) : (pinMode p m s).errCause = s.errCause := rfl
@[simp] theorem pinMode_tCycle (p : Byte) (m : PinMode) : (pinMode p m s).tCycle = s.tCycle := rfl
@[simp] theorem pinMode_tActivity (p : Byte) (m : PinMode) : (pinMode p m s).tActivity = s.tActivity := rfl
@[simp] theorem pinMode_colLatch (p : Byte) (m : PinMode) : (pinMode p m s).colLatch = s.colLatch := rfl
@[simp] theorem pinMode_expWord (p : Byte) (m : PinMode) : (pinMode p m s).expWord = s.expWord := rfl
@[simp] theorem pinMode_expOk (p : Byte) (m : PinMode) : (pinMode p m s).expOk = s.expOk := rfl
@[simp] theorem pinMode_evt (p : Byte) (m : PinMode) : (pinMode p m s).evt = s.evt := rfl
@[simp] theorem pinMode_updWait (p : Byte) (m : PinMode) : (pinMode p m s).updWait = s.updWait := rfl
@[simp] theorem pinMode_todo (p : Byte) (m : PinMode) : (pinMode p m s).todo = s.todo := rfl
@[simp] theorem pinMode_call (p : Byte) (m : PinMode) : (pinMode p m s).call = s.call := rfl
@[simp] theorem pinMode_host (p : Byte) (m : PinMode) : (pinMode p m s).host = s.host := rfl
@[simp] theorem pinMode_env (p : Byte) (m : PinMode) : (pinMode p m s).env = { s.env with pins := Table.put PinDrive.reset s.env.pins p.toNat { s.pin p with mode := some m } } := rfl
@[simp] theorem pinMode_out (p : Byte) (m : PinMode) : (pinMode p m s).out = .request (.pinMode p m) :: s.out := rfl

@[simp] theorem pinWrite_params (p : Byte) (l : Level) : (pinWrite p l s).params = s.params := rfl
@[simp] theorem pinWrite_cfg (p : Byte) (l : Level) : (pinWrite p l s).cfg = s.cfg := rfl
@[simp] theorem pinWrite_cells (p : Byte) (l : Level) : (pinWrite p l s).cells = s.cells := rfl
@[simp] theorem pinWrite_gpioLines (p : Byte) (l : Level) : (pinWrite p l s).gpioLines = s.gpioLines := rfl
@[simp] theorem pinWrite_encs (p : Byte) (l : Level) : (pinWrite p l s).encs = s.encs := rfl
@[simp] theorem pinWrite_exps (p : Byte) (l : Level) : (pinWrite p l s).exps = s.exps := rfl
@[simp] theorem pinWrite_phase (p : Byte) (l : Level) : (pinWrite p l s).phase = s.phase := rfl
@[simp] theorem pinWrite_ix (p : Byte) (l : Level) : (pinWrite p l s).ix = s.ix := rfl
@[simp] theorem pinWrite_jx (p : Byte) (l : Level) : (pinWrite p l s).jx = s.jx := rfl
@[simp] theorem pinWrite_initialized (p : Byte) (l : Level) : (pinWrite p l s).initialized = s.initialized := rfl
@[simp] theorem pinWrite_busy (p : Byte) (l : Level) : (pinWrite p l s).busy = s.busy := rfl
@[simp] theorem pinWrite_psMode (p : Byte) (l : Level) : (pinWrite p l s).psMode = s.psMode := rfl
@[simp] theorem pinWrite_activity (p : Byte) (l : Level) : (pinWrite p l s).activity = s.activity := rfl
@[simp] theorem pinWrite_errNotified (p : Byte) (l : Level) : (pinWrite p l s).errNotified = s.errNotified := rfl
@[simp] theorem pinWrite_errKind (p : Byte) (l : Level) : (pinWrite p l s).errKind = s.errKind := rfl
@[simp] theorem pinWrite_errSrc (p : Byte) (l : Level) : (pinWrite p l s).errSrc = s.errSrc := rfl
@[simp] theorem pinWrite_errCause (p : Byte) (l : Level) : (pinWrite p l s).errCause = s.errCause := rfl
@[simp] theorem pinWrite_tCycle (p : Byte) (l : Level) : (pinWrite p l s).tCycle = s.tCycle := rfl
@[simp] theorem pinWrite_tActivity (p : Byte) (l : Level) : (pinWrite p l s).tActivity = s.tActivity := rfl
@[simp] theorem pinWrite_colLatch (p : Byte) (l : Level) : (pinWrite p l s).colLatch = s.colLatch := rfl
@[simp] theorem pinWrite_expWord (p : Byte) (l : Level) : (pinWrite p l s).expWord = s.expWord := rfl
@[simp] theorem pinWrite_expOk (p : Byte) (l : Level) : (pinWrite p l s).expOk = s.expOk := rfl
@[simp] theorem pinWrite_evt (p : Byte) (l : Level) : (pinWrite p l s).evt = s.evt := rfl
@[simp] theorem pinWrite_updWait (p : Byte) (l : Level) : (pinWrite p l s).updWait = s.updWait := rfl
@[simp] theorem pinWrite_todo (p : Byte) (l : Level) : (pinWrite p l s).todo = s.todo := rfl
@[simp] theorem pinWrite_call (p : Byte) (l : Level) : (pinWrite p l s).call = s.call := rfl
@[simp] theorem pinWrite_host (p : Byte) (l : Level) : (pinWrite p l s).host = s.host := rfl
@[simp] theorem pinWrite_env (p : Byte) (l : Level) : (pinWrite p l s).env = { s.env with pins := Table.put PinDrive.reset s.env.pins p.toNat { s.pin p with level := some l } } := rfl
@[simp] theorem pinWrite_out (p : Byte) (l : Level) : (pinWrite p l s).out = .request (.pinWrite p l) :: s.out := rfl

@[simp] theorem pinRead_params (p : Byte) : (pinRead p s).params = s.params := rfl
@[simp] theorem pinRead_cfg (p : Byte) : (pinRead p s).cfg = s.cfg := rfl
@[simp] theorem pinRead_cells (p : Byte) : (pinRead p s).cells = s.cells := rfl
@[simp] theorem pinRead_gpioLines (p : Byte) : (pinRead p s).gpioLines = s.gpioLines := rfl
@[simp] theorem pinRead_encs (p : Byte) : (pinRead p s).encs = s.encs := rfl
@[simp] theorem pinRead_exps (p : Byte) : (pinRead p s).exps = s.exps := rfl
@[simp] theorem pinRead_phase (p : Byte) : (pinRead p s).phase = s.phase := rfl
@[simp] theorem pinRead_ix (p : Byte) : (pinRead p s).ix = s.ix := rfl
@[simp] theorem pinRead_jx (p : Byte) : (pinRead p s).jx = s.jx := rfl
@[simp] theorem pinRead_initialized (p : Byte) : (pinRead p s).initialized = s.initialized := rfl
@[simp] theorem pinRead_busy (p : Byte) : (pinRead p s).busy = s.busy := rfl
@[simp] theorem pinRead_psMode (p : Byte) : (pinRead p s).psMode = s.psMode := rfl
@[simp] theorem pinRead_activity (p : Byte) : (pinRead p s).activity = s.activity := rfl
@[simp] theorem pinRead_errNotified (p : Byte) : (pinRead p s).errNotified = s.errNotified := rfl
@[simp] theorem pinRead_errKind (p : Byte) : (pinRead p s).errKind = s.errKind := rfl
@[simp] theorem pinRead_errSrc (p : Byte) : (pinRead p s).errSrc = s.errSrc := rfl
@[simp] theorem pinRead_errCause (p : Byte) : (pinRead p s).errCause = s.errCause := rfl
@[simp] theorem pinRead_tCycle (p : Byte) : (pinRead p s).tCycle = s.tCycle := rfl
@[simp] theorem pinRead_tActivity (p : Byte) : (pinRead p s).tActivity = s.tActivity := rfl
@[simp] theorem pinRead_colLatch (p : Byte) : (pinRead p s).colLatch = s.colLatch := rfl
@[simp] theorem pinRead_expWord (p : Byte) : (pinRead p s).expWord = s.expWord := rfl
@[simp] theorem pinRead_expOk (p : Byte) : (pinRead p s).expOk = s.expOk := rfl
@[simp] theorem pinRead_evt (p : Byte) : (pinRead p s).evt = s.evt := rfl
@[simp] theorem pinRead_updWait (p : Byte) : (pinRead p s).updWait = s.updWait := rfl
@[simp] theorem pinRead_todo (p : Byte) : (pinRead p s).todo = s.todo := rfl
@[simp] theorem pinRead_call (p : Byte) : (pinRead p s).call = s.call := rfl
@[simp] theorem pinRead_host (p : Byte) : (pinRead p s).host = s.host := rfl
@[simp] theorem pinRead_env (p : Byte) : (pinRead p s).env = s.env.afterPin := rfl
@[simp] theorem pinRead_out (p : Byte) : (pinRead p s).out = .request (.pinRead p) :: s.out := rfl

@[simp] theorem now_params : (now s).params = s.params := rfl
@[simp] theorem now_cfg : (now s).cfg = s.cfg := rfl
@[simp] theorem now_cells : (now s).cells = s.cells := rfl
@[simp] theorem now_gpioLines : (now s).gpioLines = s.gpioLines := rfl
@[simp] theorem now_encs : (now s).encs = s.encs := rfl
@[simp] theorem now_exps : (now s).exps = s.exps := rfl
@[simp] theorem now_phase : (now s).phase = s.phase := rfl
@[simp] theorem now_ix : (now s).ix = s.ix := rfl
@[simp] theorem now_jx : (now s).jx = s.jx := rfl
@[simp] theorem now_initialized : (now s).initialized = s.initialized := rfl
@[simp] theorem now_busy : (now s).busy = s.busy := rfl
@[simp] theorem now_psMode : (now s).psMode = s.psMode := rfl
@[simp] theorem now_activity : (now s).activity = s.activity := rfl
@[simp] theorem now_errNotified : (now s).errNotified = s.errNotified := rfl
@[simp] theorem now_errKind : (now s).errKind = s.errKind := rfl
@[simp] theorem now_errSrc : (now s).errSrc = s.errSrc := rfl
@[simp] theorem now_errCause : (now s).errCause = s.errCause := rfl
@[simp] theorem now_tCycle : (now s).tCycle = s.tCycle := rfl
@[simp] theorem now_tActivity : (now s).tActivity = s.tActivity := rfl
@[simp] theorem now_colLatch : (now s).colLatch = s.colLatch := rfl
@[simp] theorem now_expWord : (now s).expWord = s.expWord := rfl
@[simp] theorem now_expOk : (now s).expOk = s.expOk := rfl
@[simp] theorem now_evt : (now s).evt = s.evt := rfl
@[simp] theorem now_updWait : (now s).updWait = s.updWait := rfl
@[simp] theorem now_todo : (now s).todo = s.todo := rfl
@[simp] theorem now_call : (now s).call = s.call := rfl
@[simp] theorem now_host : (now s).host = s.host := rfl
@[simp] theorem now_env : (now s).env = s.env.afterNow := rfl
@[simp] theorem now_out : (now s).out = .request .now :: s.out := rfl

@[simp] theorem busRead_params : (busRead s).params = s.params := rfl
@[simp] theorem busRead_cfg : (busRead s).cfg = s.cfg := rfl
@[simp] theorem busRead_cells : (busRead s).cells = s.cells := rfl
@[simp] theorem busRead_gpioLines : (busRead s).gpioLines = s.gpioLines := rfl
@[simp] theorem busRead_encs : (busRead s).encs = s.encs := rfl
@[simp] theorem busRead_exps : (busRead s).exps = s.exps := rfl
@[simp] theorem busRead_phase : (busRead s).phase = s.phase := rfl
@[simp] theorem busRead_ix : (busRead s).ix = s.ix := rfl
@[simp] theorem busRead_jx : (busRead s).jx = s.jx := rfl
@[simp] theorem busRead_initialized : (busRead s).initialized = s.initialized := rfl
@[simp] theorem busRead_busy : (busRead s).busy = s.busy := rfl
@[simp] theorem busRead_psMode : (busRead s).psMode = s.psMode := rfl
@[simp] theorem busRead_activity : (busRead s).activity = s.activity := rfl
@[simp] theorem busRead_errNotified : (busRead s).errNotified = s.errNotified := rfl
@[simp] theorem busRead_errKind : (busRead s).errKind = s.errKind := rfl
@[simp] theorem busRead_errSrc : (busRead s).errSrc = s.errSrc := rfl
@[simp] theorem busRead_errCause : (busRead s).errCause = s.errCause := rfl
@[simp] theorem busRead_tCycle : (busRead s).tCycle = s.tCycle := rfl
@[simp] theorem busRead_tActivity : (busRead s).tActivity = s.tActivity := rfl
@[simp] theorem busRead_colLatch : (busRead s).colLatch = s.colLatch := rfl
@[simp] theorem busRead_expWord : (busRead s).expWord = s.expWord := rfl
@[simp] theorem busRead_expOk : (busRead s).expOk = s.expOk := rfl
@[simp] theorem busRead_evt : (busRead s).evt = s.evt := rfl
@[simp] theorem busRead_updWait : (busRead s).updWait = s.updWait := rfl
@[simp] theorem busRead_todo : (busRead s).todo = s.todo := rfl
@[simp] theorem busRead_call : (busRead s).call = s.call := rfl
@[simp] theorem busRead_host : (busRead s).host = s.host := rfl
@[simp] theorem busRead_env : (busRead s).env = s.env.afterByte := rfl
@[simp] theorem busRead_out : (busRead s).out = .request .busRead :: s.out := rfl

@[simp] theorem busEnd_params : (busEnd s).params = s.params := rfl
@[simp] theorem busEnd_cfg : (busEnd s).cfg = s.cfg := rfl
@[simp] theorem busEnd_cells : (busEnd s).cells = s.cells := rfl
@[simp] theorem busEnd_gpioLines : (busEnd s).gpioLines = s.gpioLines := rfl
@[simp] theorem busEnd_encs : (busEnd s).encs = s.encs := rfl
@[simp] theorem busEnd_exps : (busEnd s).exps = s.exps := rfl
@[simp] theorem busEnd_phase : (busEnd s).phase = s.phase := rfl
@[simp] theorem busEnd_ix : (busEnd s).ix = s.ix := rfl
@[simp] theorem busEnd_jx : (busEnd s).jx = s.jx := rfl
@[simp] theorem busEnd_initialized : (busEnd s).initialized = s.initialized := rfl
@[simp] theorem busEnd_busy : (busEnd s).busy = s.busy := rfl
@[simp] theorem busEnd_psMode : (busEnd s).psMode = s.psMode := rfl
@[simp] theorem busEnd_activity : (busEnd s).activity = s.activity := rfl
@[simp] theorem busEnd_errNotified : (busEnd s).errNotified = s.errNotified := rfl
@[simp] theorem busEnd_errKind : (busEnd s).errKind = s.errKind := rfl
@[simp] theorem busEnd_errSrc : (busEnd s).errSrc = s.errSrc := rfl
@[simp] theorem busEnd_errCause : (busEnd s).errCause = s.errCause := rfl
@[simp] theorem busEnd_tCycle : (busEnd s).tCycle = s.tCycle := rfl
@[simp] theorem busEnd_tActivity : (busEnd s).tActivity = s.tActivity := rfl
@[simp] theorem busEnd_colLatch : (busEnd s).colLatch = s.colLatch := rfl
@[simp] theorem busEnd_expWord : (busEnd s).expWord = s.expWord := rfl
@[simp] theorem busEnd_expOk : (busEnd s).expOk = s.expOk := rfl
@[simp] theorem busEnd_evt : (busEnd s).evt = s.evt := rfl
@[simp] theorem busEnd_updWait : (busEnd s).updWait = s.updWait := rfl
@[simp] theorem busEnd_todo : (busEnd s).todo = s.todo := rfl
@[simp] theorem busEnd_call : (busEnd s).call = { s.call with status := s.env.endAnswer 0 } := rfl
@[simp] theorem busEnd_host : (busEnd s).host = s.host := rfl
@[simp] theorem busEnd_env : (busEnd s).env = s.env.afterEnd := rfl
@[simp] theorem busEnd_out : (busEnd s).out = .request .busEnd :: s.out := rfl

/-! ## resetBlock: what `rst` leaves alone -/

@[simp] theorem resetBlock_params : (resetBlock s).params = s.params := rfl
@[simp] theorem resetBlock_host : (resetBlock s).host = s.host := rfl
@[simp] theorem resetBlock_env : (resetBlock s).env = s.env := rfl
@[simp] theorem resetBlock_out : (resetBlock s).out = s.out := rfl

end Sys2Proof.Machine
end

