-- ==== Sys2Proof/Laws/Frames.lean ====
section
/-! SUPPORT. What the shared operations leave unchanged: one lemma a field. -/

namespace Sys2Proof.Machine

variable (s : State)

@[simp] theorem setLine_params (ref : LineRef) (l : Line) : (setLine ref l s).params = s.params := by
  cases ref <;> rfl
@[simp] theorem setLine_cfg (ref : LineRef) (l : Line) : (setLine ref l s).cfg = s.cfg := by
  cases ref <;> rfl
@[simp] theorem setLine_phase (ref : LineRef) (l : Line) : (setLine ref l s).phase = s.phase := by
  cases ref <;> rfl
@[simp] theorem setLine_ix (ref : LineRef) (l : Line) : (setLine ref l s).ix = s.ix := by
  cases ref <;> rfl
@[simp] theorem setLine_jx (ref : LineRef) (l : Line) : (setLine ref l s).jx = s.jx := by
  cases ref <;> rfl
@[simp] theorem setLine_initialized (ref : LineRef) (l : Line) : (setLine ref l s).initialized = s.initialized := by
  cases ref <;> rfl
@[simp] theorem setLine_busy (ref : LineRef) (l : Line) : (setLine ref l s).busy = s.busy := by
  cases ref <;> rfl
@[simp] theorem setLine_psMode (ref : LineRef) (l : Line) : (setLine ref l s).psMode = s.psMode := by
  cases ref <;> rfl
@[simp] theorem setLine_activity (ref : LineRef) (l : Line) : (setLine ref l s).activity = s.activity := by
  cases ref <;> rfl
@[simp] theorem setLine_errNotified (ref : LineRef) (l : Line) : (setLine ref l s).errNotified = s.errNotified := by
  cases ref <;> rfl
@[simp] theorem setLine_errKind (ref : LineRef) (l : Line) : (setLine ref l s).errKind = s.errKind := by
  cases ref <;> rfl
@[simp] theorem setLine_errSrc (ref : LineRef) (l : Line) : (setLine ref l s).errSrc = s.errSrc := by
  cases ref <;> rfl
@[simp] theorem setLine_errCause (ref : LineRef) (l : Line) : (setLine ref l s).errCause = s.errCause := by
  cases ref <;> rfl
@[simp] theorem setLine_tCycle (ref : LineRef) (l : Line) : (setLine ref l s).tCycle = s.tCycle := by
  cases ref <;> rfl
@[simp] theorem setLine_tActivity (ref : LineRef) (l : Line) : (setLine ref l s).tActivity = s.tActivity := by
  cases ref <;> rfl
@[simp] theorem setLine_colLatch (ref : LineRef) (l : Line) : (setLine ref l s).colLatch = s.colLatch := by
  cases ref <;> rfl
@[simp] theorem setLine_expWord (ref : LineRef) (l : Line) : (setLine ref l s).expWord = s.expWord := by
  cases ref <;> rfl
@[simp] theorem setLine_expOk (ref : LineRef) (l : Line) : (setLine ref l s).expOk = s.expOk := by
  cases ref <;> rfl
@[simp] theorem setLine_evt (ref : LineRef) (l : Line) : (setLine ref l s).evt = s.evt := by
  cases ref <;> rfl
@[simp] theorem setLine_updWait (ref : LineRef) (l : Line) : (setLine ref l s).updWait = s.updWait := by
  cases ref <;> rfl
@[simp] theorem setLine_todo (ref : LineRef) (l : Line) : (setLine ref l s).todo = s.todo := by
  cases ref <;> rfl
@[simp] theorem setLine_call (ref : LineRef) (l : Line) : (setLine ref l s).call = s.call := by
  cases ref <;> rfl
@[simp] theorem setLine_host (ref : LineRef) (l : Line) : (setLine ref l s).host = s.host := by
  cases ref <;> rfl
@[simp] theorem setLine_env (ref : LineRef) (l : Line) : (setLine ref l s).env = s.env := by
  cases ref <;> rfl
@[simp] theorem setLine_out (ref : LineRef) (l : Line) : (setLine ref l s).out = s.out := by
  cases ref <;> rfl

@[simp] theorem debounceOp_params : (debounceOp s).params = s.params := by
  simp [debounceOp]
@[simp] theorem debounceOp_cfg : (debounceOp s).cfg = s.cfg := by
  simp [debounceOp]
@[simp] theorem debounceOp_phase : (debounceOp s).phase = s.phase := by
  simp [debounceOp]
@[simp] theorem debounceOp_ix : (debounceOp s).ix = s.ix := by
  simp [debounceOp]
@[simp] theorem debounceOp_jx : (debounceOp s).jx = s.jx := by
  simp [debounceOp]
@[simp] theorem debounceOp_initialized : (debounceOp s).initialized = s.initialized := by
  simp [debounceOp]
@[simp] theorem debounceOp_busy : (debounceOp s).busy = s.busy := by
  simp [debounceOp]
@[simp] theorem debounceOp_psMode : (debounceOp s).psMode = s.psMode := by
  simp [debounceOp]
@[simp] theorem debounceOp_activity : (debounceOp s).activity = s.activity := by
  simp [debounceOp]
@[simp] theorem debounceOp_errNotified : (debounceOp s).errNotified = s.errNotified := by
  simp [debounceOp]
@[simp] theorem debounceOp_errKind : (debounceOp s).errKind = s.errKind := by
  simp [debounceOp]
@[simp] theorem debounceOp_errSrc : (debounceOp s).errSrc = s.errSrc := by
  simp [debounceOp]
@[simp] theorem debounceOp_errCause : (debounceOp s).errCause = s.errCause := by
  simp [debounceOp]
@[simp] theorem debounceOp_tCycle : (debounceOp s).tCycle = s.tCycle := by
  simp [debounceOp]
@[simp] theorem debounceOp_tActivity : (debounceOp s).tActivity = s.tActivity := by
  simp [debounceOp]
@[simp] theorem debounceOp_colLatch : (debounceOp s).colLatch = s.colLatch := by
  simp [debounceOp]
@[simp] theorem debounceOp_expWord : (debounceOp s).expWord = s.expWord := by
  simp [debounceOp]
@[simp] theorem debounceOp_expOk : (debounceOp s).expOk = s.expOk := by
  simp [debounceOp]
@[simp] theorem debounceOp_evt : (debounceOp s).evt = s.evt := by
  simp [debounceOp]
@[simp] theorem debounceOp_updWait : (debounceOp s).updWait = s.updWait := by
  simp [debounceOp]
@[simp] theorem debounceOp_todo : (debounceOp s).todo = s.todo := by
  simp [debounceOp]
@[simp] theorem debounceOp_host : (debounceOp s).host = s.host := by
  simp [debounceOp]
@[simp] theorem debounceOp_env : (debounceOp s).env = s.env := by
  simp [debounceOp]
@[simp] theorem debounceOp_out : (debounceOp s).out = s.out := by
  simp [debounceOp]

@[simp] theorem callDebounce_params (ref : LineRef) (r : Bool) : (callDebounce ref r s).params = s.params := by
  simp [callDebounce]
@[simp] theorem callDebounce_cfg (ref : LineRef) (r : Bool) : (callDebounce ref r s).cfg = s.cfg := by
  simp [callDebounce]
@[simp] theorem callDebounce_phase (ref : LineRef) (r : Bool) : (callDebounce ref r s).phase = s.phase := by
  simp [callDebounce]
@[simp] theorem callDebounce_ix (ref : LineRef) (r : Bool) : (callDebounce ref r s).ix = s.ix := by
  simp [callDebounce]
@[simp] theorem callDebounce_jx (ref : LineRef) (r : Bool) : (callDebounce ref r s).jx = s.jx := by
  simp [callDebounce]
@[simp] theorem callDebounce_initialized (ref : LineRef) (r : Bool) : (callDebounce ref r s).initialized = s.initialized := by
  simp [callDebounce]
@[simp] theorem callDebounce_busy (ref : LineRef) (r : Bool) : (callDebounce ref r s).busy = s.busy := by
  simp [callDebounce]
@[simp] theorem callDebounce_psMode (ref : LineRef) (r : Bool) : (callDebounce ref r s).psMode = s.psMode := by
  simp [callDebounce]
@[simp] theorem callDebounce_activity (ref : LineRef) (r : Bool) : (callDebounce ref r s).activity = s.activity := by
  simp [callDebounce]
@[simp] theorem callDebounce_errNotified (ref : LineRef) (r : Bool) : (callDebounce ref r s).errNotified = s.errNotified := by
  simp [callDebounce]
@[simp] theorem callDebounce_errKind (ref : LineRef) (r : Bool) : (callDebounce ref r s).errKind = s.errKind := by
  simp [callDebounce]
@[simp] theorem callDebounce_errSrc (ref : LineRef) (r : Bool) : (callDebounce ref r s).errSrc = s.errSrc := by
  simp [callDebounce]
@[simp] theorem callDebounce_errCause (ref : LineRef) (r : Bool) : (callDebounce ref r s).errCause = s.errCause := by
  simp [callDebounce]
@[simp] theorem callDebounce_tCycle (ref : LineRef) (r : Bool) : (callDebounce ref r s).tCycle = s.tCycle := by
  simp [callDebounce]
@[simp] theorem callDebounce_tActivity (ref : LineRef) (r : Bool) : (callDebounce ref r s).tActivity = s.tActivity := by
  simp [callDebounce]
@[simp] theorem callDebounce_colLatch (ref : LineRef) (r : Bool) : (callDebounce ref r s).colLatch = s.colLatch := by
  simp [callDebounce]
@[simp] theorem callDebounce_expWord (ref : LineRef) (r : Bool) : (callDebounce ref r s).expWord = s.expWord := by
  simp [callDebounce]
@[simp] theorem callDebounce_expOk (ref : LineRef) (r : Bool) : (callDebounce ref r s).expOk = s.expOk := by
  simp [callDebounce]
@[simp] theorem callDebounce_evt (ref : LineRef) (r : Bool) : (callDebounce ref r s).evt = s.evt := by
  simp [callDebounce]
@[simp] theorem callDebounce_updWait (ref : LineRef) (r : Bool) : (callDebounce ref r s).updWait = s.updWait := by
  simp [callDebounce]
@[simp] theorem callDebounce_todo (ref : LineRef) (r : Bool) : (callDebounce ref r s).todo = s.todo := by
  simp [callDebounce]
@[simp] theorem callDebounce_host (ref : LineRef) (r : Bool) : (callDebounce ref r s).host = s.host := by
  simp [callDebounce]
@[simp] theorem callDebounce_env (ref : LineRef) (r : Bool) : (callDebounce ref r s).env = s.env := by
  simp [callDebounce]
@[simp] theorem callDebounce_out (ref : LineRef) (r : Bool) : (callDebounce ref r s).out = s.out := by
  simp [callDebounce]

@[simp] theorem emitOp_params : (emitOp s).params = s.params := by
  unfold emitOp; split <;> rfl
@[simp] theorem emitOp_cfg : (emitOp s).cfg = s.cfg := by
  unfold emitOp; split <;> rfl
@[simp] theorem emitOp_cells : (emitOp s).cells = s.cells := by
  unfold emitOp; split <;> rfl
@[simp] theorem emitOp_gpioLines : (emitOp s).gpioLines = s.gpioLines := by
  unfold emitOp; split <;> rfl
@[simp] theorem emitOp_encs : (emitOp s).encs = s.encs := by
  unfold emitOp; split <;> rfl
@[simp] theorem emitOp_exps : (emitOp s).exps = s.exps := by
  unfold emitOp; split <;> rfl
@[simp] theorem emitOp_phase : (emitOp s).phase = s.phase := by
  unfold emitOp; split <;> rfl
@[simp] theorem emitOp_ix : (emitOp s).ix = s.ix := by
  unfold emitOp; split <;> rfl
@[simp] theorem emitOp_jx : (emitOp s).jx = s.jx := by
  unfold emitOp; split <;> rfl
@[simp] theorem emitOp_initialized : (emitOp s).initialized = s.initialized := by
  unfold emitOp; split <;> rfl
@[simp] theorem emitOp_busy : (emitOp s).busy = s.busy := by
  unfold emitOp; split <;> rfl
@[simp] theorem emitOp_psMode : (emitOp s).psMode = s.psMode := by
  unfold emitOp; split <;> rfl
@[simp] theorem emitOp_activity : (emitOp s).activity = s.activity := by
  unfold emitOp; split <;> rfl
@[simp] theorem emitOp_errNotified : (emitOp s).errNotified = s.errNotified := by
  unfold emitOp; split <;> rfl
@[simp] theorem emitOp_errKind : (emitOp s).errKind = s.errKind := by
  unfold emitOp; split <;> rfl
@[simp] theorem emitOp_errSrc : (emitOp s).errSrc = s.errSrc := by
  unfold emitOp; split <;> rfl
@[simp] theorem emitOp_errCause : (emitOp s).errCause = s.errCause := by
  unfold emitOp; split <;> rfl
@[simp] theorem emitOp_tCycle : (emitOp s).tCycle = s.tCycle := by
  unfold emitOp; split <;> rfl
@[simp] theorem emitOp_tActivity : (emitOp s).tActivity = s.tActivity := by
  unfold emitOp; split <;> rfl
@[simp] theorem emitOp_colLatch : (emitOp s).colLatch = s.colLatch := by
  unfold emitOp; split <;> rfl
@[simp] theorem emitOp_expWord : (emitOp s).expWord = s.expWord := by
  unfold emitOp; split <;> rfl
@[simp] theorem emitOp_expOk : (emitOp s).expOk = s.expOk := by
  unfold emitOp; split <;> rfl
@[simp] theorem emitOp_updWait : (emitOp s).updWait = s.updWait := by
  unfold emitOp; split <;> rfl
@[simp] theorem emitOp_todo : (emitOp s).todo = s.todo := by
  unfold emitOp; split <;> rfl
@[simp] theorem emitOp_call : (emitOp s).call = s.call := by
  unfold emitOp; split <;> rfl
@[simp] theorem emitOp_host : (emitOp s).host = s.host := by
  unfold emitOp; split <;> rfl
@[simp] theorem emitOp_env : (emitOp s).env = s.env := by
  unfold emitOp; split <;> rfl

@[simp] theorem callEmit_params (ch : Channel) (a b : Byte) (v : BitVec 4) : (callEmit ch a b v s).params = s.params := by
  simp [callEmit]
@[simp] theorem callEmit_cfg (ch : Channel) (a b : Byte) (v : BitVec 4) : (callEmit ch a b v s).cfg = s.cfg := by
  simp [callEmit]
@[simp] theorem callEmit_cells (ch : Channel) (a b : Byte) (v : BitVec 4) : (callEmit ch a b v s).cells = s.cells := by
  simp [callEmit]
@[simp] theorem callEmit_gpioLines (ch : Channel) (a b : Byte) (v : BitVec 4) : (callEmit ch a b v s).gpioLines = s.gpioLines := by
  simp [callEmit]
@[simp] theorem callEmit_encs (ch : Channel) (a b : Byte) (v : BitVec 4) : (callEmit ch a b v s).encs = s.encs := by
  simp [callEmit]
@[simp] theorem callEmit_exps (ch : Channel) (a b : Byte) (v : BitVec 4) : (callEmit ch a b v s).exps = s.exps := by
  simp [callEmit]
@[simp] theorem callEmit_phase (ch : Channel) (a b : Byte) (v : BitVec 4) : (callEmit ch a b v s).phase = s.phase := by
  simp [callEmit]
@[simp] theorem callEmit_ix (ch : Channel) (a b : Byte) (v : BitVec 4) : (callEmit ch a b v s).ix = s.ix := by
  simp [callEmit]
@[simp] theorem callEmit_jx (ch : Channel) (a b : Byte) (v : BitVec 4) : (callEmit ch a b v s).jx = s.jx := by
  simp [callEmit]
@[simp] theorem callEmit_initialized (ch : Channel) (a b : Byte) (v : BitVec 4) : (callEmit ch a b v s).initialized = s.initialized := by
  simp [callEmit]
@[simp] theorem callEmit_busy (ch : Channel) (a b : Byte) (v : BitVec 4) : (callEmit ch a b v s).busy = s.busy := by
  simp [callEmit]
@[simp] theorem callEmit_psMode (ch : Channel) (a b : Byte) (v : BitVec 4) : (callEmit ch a b v s).psMode = s.psMode := by
  simp [callEmit]
@[simp] theorem callEmit_activity (ch : Channel) (a b : Byte) (v : BitVec 4) : (callEmit ch a b v s).activity = s.activity := by
  simp [callEmit]
@[simp] theorem callEmit_errNotified (ch : Channel) (a b : Byte) (v : BitVec 4) : (callEmit ch a b v s).errNotified = s.errNotified := by
  simp [callEmit]
@[simp] theorem callEmit_errKind (ch : Channel) (a b : Byte) (v : BitVec 4) : (callEmit ch a b v s).errKind = s.errKind := by
  simp [callEmit]
@[simp] theorem callEmit_errSrc (ch : Channel) (a b : Byte) (v : BitVec 4) : (callEmit ch a b v s).errSrc = s.errSrc := by
  simp [callEmit]
@[simp] theorem callEmit_errCause (ch : Channel) (a b : Byte) (v : BitVec 4) : (callEmit ch a b v s).errCause = s.errCause := by
  simp [callEmit]
@[simp] theorem callEmit_tCycle (ch : Channel) (a b : Byte) (v : BitVec 4) : (callEmit ch a b v s).tCycle = s.tCycle := by
  simp [callEmit]
@[simp] theorem callEmit_tActivity (ch : Channel) (a b : Byte) (v : BitVec 4) : (callEmit ch a b v s).tActivity = s.tActivity := by
  simp [callEmit]
@[simp] theorem callEmit_colLatch (ch : Channel) (a b : Byte) (v : BitVec 4) : (callEmit ch a b v s).colLatch = s.colLatch := by
  simp [callEmit]
@[simp] theorem callEmit_expWord (ch : Channel) (a b : Byte) (v : BitVec 4) : (callEmit ch a b v s).expWord = s.expWord := by
  simp [callEmit]
@[simp] theorem callEmit_expOk (ch : Channel) (a b : Byte) (v : BitVec 4) : (callEmit ch a b v s).expOk = s.expOk := by
  simp [callEmit]
@[simp] theorem callEmit_updWait (ch : Channel) (a b : Byte) (v : BitVec 4) : (callEmit ch a b v s).updWait = s.updWait := by
  simp [callEmit]
@[simp] theorem callEmit_todo (ch : Channel) (a b : Byte) (v : BitVec 4) : (callEmit ch a b v s).todo = s.todo := by
  simp [callEmit]
@[simp] theorem callEmit_host (ch : Channel) (a b : Byte) (v : BitVec 4) : (callEmit ch a b v s).host = s.host := by
  simp [callEmit]
@[simp] theorem callEmit_env (ch : Channel) (a b : Byte) (v : BitVec 4) : (callEmit ch a b v s).env = s.env := by
  simp [callEmit]

@[simp] theorem raiseOp_params : (raiseOp s).params = s.params := by
  unfold raiseOp; dsimp only; split
  · simp
  · split <;> simp
@[simp] theorem raiseOp_cfg : (raiseOp s).cfg = s.cfg := by
  unfold raiseOp; dsimp only; split
  · simp
  · split <;> simp
@[simp] theorem raiseOp_cells : (raiseOp s).cells = s.cells := by
  unfold raiseOp; dsimp only; split
  · simp
  · split <;> simp
@[simp] theorem raiseOp_gpioLines : (raiseOp s).gpioLines = s.gpioLines := by
  unfold raiseOp; dsimp only; split
  · simp
  · split <;> simp
@[simp] theorem raiseOp_encs : (raiseOp s).encs = s.encs := by
  unfold raiseOp; dsimp only; split
  · simp
  · split <;> simp
@[simp] theorem raiseOp_exps : (raiseOp s).exps = s.exps := by
  unfold raiseOp; dsimp only; split
  · simp
  · split <;> simp
@[simp] theorem raiseOp_phase : (raiseOp s).phase = s.phase := by
  unfold raiseOp; dsimp only; split
  · simp
  · split <;> simp
@[simp] theorem raiseOp_ix : (raiseOp s).ix = s.ix := by
  unfold raiseOp; dsimp only; split
  · simp
  · split <;> simp
@[simp] theorem raiseOp_jx : (raiseOp s).jx = s.jx := by
  unfold raiseOp; dsimp only; split
  · simp
  · split <;> simp
@[simp] theorem raiseOp_initialized : (raiseOp s).initialized = s.initialized := by
  unfold raiseOp; dsimp only; split
  · simp
  · split <;> simp
@[simp] theorem raiseOp_busy : (raiseOp s).busy = s.busy := by
  unfold raiseOp; dsimp only; split
  · simp
  · split <;> simp
@[simp] theorem raiseOp_psMode : (raiseOp s).psMode = s.psMode := by
  unfold raiseOp; dsimp only; split
  · simp
  · split <;> simp
@[simp] theorem raiseOp_activity : (raiseOp s).activity = s.activity := by
  unfold raiseOp; dsimp only; split
  · simp
  · split <;> simp
@[simp] theorem raiseOp_tCycle : (raiseOp s).tCycle = s.tCycle := by
  unfold raiseOp; dsimp only; split
  · simp
  · split <;> simp
@[simp] theorem raiseOp_tActivity : (raiseOp s).tActivity = s.tActivity := by
  unfold raiseOp; dsimp only; split
  · simp
  · split <;> simp
@[simp] theorem raiseOp_colLatch : (raiseOp s).colLatch = s.colLatch := by
  unfold raiseOp; dsimp only; split
  · simp
  · split <;> simp
@[simp] theorem raiseOp_expWord : (raiseOp s).expWord = s.expWord := by
  unfold raiseOp; dsimp only; split
  · simp
  · split <;> simp
@[simp] theorem raiseOp_expOk : (raiseOp s).expOk = s.expOk := by
  unfold raiseOp; dsimp only; split
  · simp
  · split <;> simp
@[simp] theorem raiseOp_updWait : (raiseOp s).updWait = s.updWait := by
  unfold raiseOp; dsimp only; split
  · simp
  · split <;> simp
@[simp] theorem raiseOp_todo : (raiseOp s).todo = s.todo := by
  unfold raiseOp; dsimp only; split
  · simp
  · split <;> simp
@[simp] theorem raiseOp_host : (raiseOp s).host = s.host := by
  unfold raiseOp; dsimp only; split
  · simp
  · split <;> simp
@[simp] theorem raiseOp_env : (raiseOp s).env = s.env := by
  unfold raiseOp; dsimp only; split
  · simp
  · split <;> simp

@[simp] theorem callRaise_params (k : FaultKind) (x c : Byte) : (callRaise k x c s).params = s.params := by
  simp [callRaise]
@[simp] theorem callRaise_cfg (k : FaultKind) (x c : Byte) : (callRaise k x c s).cfg = s.cfg := by
  simp [callRaise]
@[simp] theorem callRaise_cells (k : FaultKind) (x c : Byte) : (callRaise k x c s).cells = s.cells := by
  simp [callRaise]
@[simp] theorem callRaise_gpioLines (k : FaultKind) (x c : Byte) : (callRaise k x c s).gpioLines = s.gpioLines := by
  simp [callRaise]
@[simp] theorem callRaise_encs (k : FaultKind) (x c : Byte) : (callRaise k x c s).encs = s.encs := by
  simp [callRaise]
@[simp] theorem callRaise_exps (k : FaultKind) (x c : Byte) : (callRaise k x c s).exps = s.exps := by
  simp [callRaise]
@[simp] theorem callRaise_phase (k : FaultKind) (x c : Byte) : (callRaise k x c s).phase = s.phase := by
  simp [callRaise]
@[simp] theorem callRaise_ix (k : FaultKind) (x c : Byte) : (callRaise k x c s).ix = s.ix := by
  simp [callRaise]
@[simp] theorem callRaise_jx (k : FaultKind) (x c : Byte) : (callRaise k x c s).jx = s.jx := by
  simp [callRaise]
@[simp] theorem callRaise_initialized (k : FaultKind) (x c : Byte) : (callRaise k x c s).initialized = s.initialized := by
  simp [callRaise]
@[simp] theorem callRaise_busy (k : FaultKind) (x c : Byte) : (callRaise k x c s).busy = s.busy := by
  simp [callRaise]
@[simp] theorem callRaise_psMode (k : FaultKind) (x c : Byte) : (callRaise k x c s).psMode = s.psMode := by
  simp [callRaise]
@[simp] theorem callRaise_activity (k : FaultKind) (x c : Byte) : (callRaise k x c s).activity = s.activity := by
  simp [callRaise]
@[simp] theorem callRaise_tCycle (k : FaultKind) (x c : Byte) : (callRaise k x c s).tCycle = s.tCycle := by
  simp [callRaise]
@[simp] theorem callRaise_tActivity (k : FaultKind) (x c : Byte) : (callRaise k x c s).tActivity = s.tActivity := by
  simp [callRaise]
@[simp] theorem callRaise_colLatch (k : FaultKind) (x c : Byte) : (callRaise k x c s).colLatch = s.colLatch := by
  simp [callRaise]
@[simp] theorem callRaise_expWord (k : FaultKind) (x c : Byte) : (callRaise k x c s).expWord = s.expWord := by
  simp [callRaise]
@[simp] theorem callRaise_expOk (k : FaultKind) (x c : Byte) : (callRaise k x c s).expOk = s.expOk := by
  simp [callRaise]
@[simp] theorem callRaise_updWait (k : FaultKind) (x c : Byte) : (callRaise k x c s).updWait = s.updWait := by
  simp [callRaise]
@[simp] theorem callRaise_todo (k : FaultKind) (x c : Byte) : (callRaise k x c s).todo = s.todo := by
  simp [callRaise]
@[simp] theorem callRaise_host (k : FaultKind) (x c : Byte) : (callRaise k x c s).host = s.host := by
  simp [callRaise]
@[simp] theorem callRaise_env (k : FaultKind) (x c : Byte) : (callRaise k x c s).env = s.env := by
  simp [callRaise]

@[simp] theorem pollLine_params (ref : LineRef) (r : Bool) (ch : Channel) (a b : Byte) : (pollLine ref r ch a b s).params = s.params := by
  unfold pollLine; dsimp only; split <;> simp
@[simp] theorem pollLine_cfg (ref : LineRef) (r : Bool) (ch : Channel) (a b : Byte) : (pollLine ref r ch a b s).cfg = s.cfg := by
  unfold pollLine; dsimp only; split <;> simp
@[simp] theorem pollLine_phase (ref : LineRef) (r : Bool) (ch : Channel) (a b : Byte) : (pollLine ref r ch a b s).phase = s.phase := by
  unfold pollLine; dsimp only; split <;> simp
@[simp] theorem pollLine_ix (ref : LineRef) (r : Bool) (ch : Channel) (a b : Byte) : (pollLine ref r ch a b s).ix = s.ix := by
  unfold pollLine; dsimp only; split <;> simp
@[simp] theorem pollLine_jx (ref : LineRef) (r : Bool) (ch : Channel) (a b : Byte) : (pollLine ref r ch a b s).jx = s.jx := by
  unfold pollLine; dsimp only; split <;> simp
@[simp] theorem pollLine_initialized (ref : LineRef) (r : Bool) (ch : Channel) (a b : Byte) : (pollLine ref r ch a b s).initialized = s.initialized := by
  unfold pollLine; dsimp only; split <;> simp
@[simp] theorem pollLine_busy (ref : LineRef) (r : Bool) (ch : Channel) (a b : Byte) : (pollLine ref r ch a b s).busy = s.busy := by
  unfold pollLine; dsimp only; split <;> simp
@[simp] theorem pollLine_psMode (ref : LineRef) (r : Bool) (ch : Channel) (a b : Byte) : (pollLine ref r ch a b s).psMode = s.psMode := by
  unfold pollLine; dsimp only; split <;> simp
@[simp] theorem pollLine_errNotified (ref : LineRef) (r : Bool) (ch : Channel) (a b : Byte) : (pollLine ref r ch a b s).errNotified = s.errNotified := by
  unfold pollLine; dsimp only; split <;> simp
@[simp] theorem pollLine_errKind (ref : LineRef) (r : Bool) (ch : Channel) (a b : Byte) : (pollLine ref r ch a b s).errKind = s.errKind := by
  unfold pollLine; dsimp only; split <;> simp
@[simp] theorem pollLine_errSrc (ref : LineRef) (r : Bool) (ch : Channel) (a b : Byte) : (pollLine ref r ch a b s).errSrc = s.errSrc := by
  unfold pollLine; dsimp only; split <;> simp
@[simp] theorem pollLine_errCause (ref : LineRef) (r : Bool) (ch : Channel) (a b : Byte) : (pollLine ref r ch a b s).errCause = s.errCause := by
  unfold pollLine; dsimp only; split <;> simp
@[simp] theorem pollLine_tCycle (ref : LineRef) (r : Bool) (ch : Channel) (a b : Byte) : (pollLine ref r ch a b s).tCycle = s.tCycle := by
  unfold pollLine; dsimp only; split <;> simp
@[simp] theorem pollLine_tActivity (ref : LineRef) (r : Bool) (ch : Channel) (a b : Byte) : (pollLine ref r ch a b s).tActivity = s.tActivity := by
  unfold pollLine; dsimp only; split <;> simp
@[simp] theorem pollLine_colLatch (ref : LineRef) (r : Bool) (ch : Channel) (a b : Byte) : (pollLine ref r ch a b s).colLatch = s.colLatch := by
  unfold pollLine; dsimp only; split <;> simp
@[simp] theorem pollLine_expWord (ref : LineRef) (r : Bool) (ch : Channel) (a b : Byte) : (pollLine ref r ch a b s).expWord = s.expWord := by
  unfold pollLine; dsimp only; split <;> simp
@[simp] theorem pollLine_expOk (ref : LineRef) (r : Bool) (ch : Channel) (a b : Byte) : (pollLine ref r ch a b s).expOk = s.expOk := by
  unfold pollLine; dsimp only; split <;> simp
@[simp] theorem pollLine_updWait (ref : LineRef) (r : Bool) (ch : Channel) (a b : Byte) : (pollLine ref r ch a b s).updWait = s.updWait := by
  unfold pollLine; dsimp only; split <;> simp
@[simp] theorem pollLine_todo (ref : LineRef) (r : Bool) (ch : Channel) (a b : Byte) : (pollLine ref r ch a b s).todo = s.todo := by
  unfold pollLine; dsimp only; split <;> simp
@[simp] theorem pollLine_host (ref : LineRef) (r : Bool) (ch : Channel) (a b : Byte) : (pollLine ref r ch a b s).host = s.host := by
  unfold pollLine; dsimp only; split <;> simp
@[simp] theorem pollLine_env (ref : LineRef) (r : Bool) (ch : Channel) (a b : Byte) : (pollLine ref r ch a b s).env = s.env := by
  unfold pollLine; dsimp only; split <;> simp

@[simp] theorem takeBytes_params : (takeBytes s).params = s.params := by
  simp [takeBytes]
@[simp] theorem takeBytes_cfg : (takeBytes s).cfg = s.cfg := by
  simp [takeBytes]
@[simp] theorem takeBytes_cells : (takeBytes s).cells = s.cells := by
  simp [takeBytes]
@[simp] theorem takeBytes_gpioLines : (takeBytes s).gpioLines = s.gpioLines := by
  simp [takeBytes]
@[simp] theorem takeBytes_encs : (takeBytes s).encs = s.encs := by
  simp [takeBytes]
@[simp] theorem takeBytes_exps : (takeBytes s).exps = s.exps := by
  simp [takeBytes]
@[simp] theorem takeBytes_phase : (takeBytes s).phase = s.phase := by
  simp [takeBytes]
@[simp] theorem takeBytes_ix : (takeBytes s).ix = s.ix := by
  simp [takeBytes]
@[simp] theorem takeBytes_jx : (takeBytes s).jx = s.jx := by
  simp [takeBytes]
@[simp] theorem takeBytes_initialized : (takeBytes s).initialized = s.initialized := by
  simp [takeBytes]
@[simp] theorem takeBytes_busy : (takeBytes s).busy = s.busy := by
  simp [takeBytes]
@[simp] theorem takeBytes_psMode : (takeBytes s).psMode = s.psMode := by
  simp [takeBytes]
@[simp] theorem takeBytes_activity : (takeBytes s).activity = s.activity := by
  simp [takeBytes]
@[simp] theorem takeBytes_errNotified : (takeBytes s).errNotified = s.errNotified := by
  simp [takeBytes]
@[simp] theorem takeBytes_errKind : (takeBytes s).errKind = s.errKind := by
  simp [takeBytes]
@[simp] theorem takeBytes_errSrc : (takeBytes s).errSrc = s.errSrc := by
  simp [takeBytes]
@[simp] theorem takeBytes_errCause : (takeBytes s).errCause = s.errCause := by
  simp [takeBytes]
@[simp] theorem takeBytes_tCycle : (takeBytes s).tCycle = s.tCycle := by
  simp [takeBytes]
@[simp] theorem takeBytes_tActivity : (takeBytes s).tActivity = s.tActivity := by
  simp [takeBytes]
@[simp] theorem takeBytes_colLatch : (takeBytes s).colLatch = s.colLatch := by
  simp [takeBytes]
@[simp] theorem takeBytes_expWord : (takeBytes s).expWord = s.expWord := by
  simp [takeBytes]
@[simp] theorem takeBytes_expOk : (takeBytes s).expOk = s.expOk := by
  simp [takeBytes]
@[simp] theorem takeBytes_evt : (takeBytes s).evt = s.evt := by
  simp [takeBytes]
@[simp] theorem takeBytes_updWait : (takeBytes s).updWait = s.updWait := by
  simp [takeBytes]
@[simp] theorem takeBytes_todo : (takeBytes s).todo = s.todo := by
  simp [takeBytes]
@[simp] theorem takeBytes_host : (takeBytes s).host = s.host := by
  simp [takeBytes]

@[simp] theorem writeRegFrame_params (a : BitVec 7) (r v : Byte) : (writeRegFrame a r v s).params = s.params := by
  simp [writeRegFrame]
@[simp] theorem writeRegFrame_cfg (a : BitVec 7) (r v : Byte) : (writeRegFrame a r v s).cfg = s.cfg := by
  simp [writeRegFrame]
@[simp] theorem writeRegFrame_cells (a : BitVec 7) (r v : Byte) : (writeRegFrame a r v s).cells = s.cells := by
  simp [writeRegFrame]
@[simp] theorem writeRegFrame_gpioLines (a : BitVec 7) (r v : Byte) : (writeRegFrame a r v s).gpioLines = s.gpioLines := by
  simp [writeRegFrame]
@[simp] theorem writeRegFrame_encs (a : BitVec 7) (r v : Byte) : (writeRegFrame a r v s).encs = s.encs := by
  simp [writeRegFrame]
@[simp] theorem writeRegFrame_exps (a : BitVec 7) (r v : Byte) : (writeRegFrame a r v s).exps = s.exps := by
  simp [writeRegFrame]
@[simp] theorem writeRegFrame_phase (a : BitVec 7) (r v : Byte) : (writeRegFrame a r v s).phase = s.phase := by
  simp [writeRegFrame]
@[simp] theorem writeRegFrame_ix (a : BitVec 7) (r v : Byte) : (writeRegFrame a r v s).ix = s.ix := by
  simp [writeRegFrame]
@[simp] theorem writeRegFrame_jx (a : BitVec 7) (r v : Byte) : (writeRegFrame a r v s).jx = s.jx := by
  simp [writeRegFrame]
@[simp] theorem writeRegFrame_initialized (a : BitVec 7) (r v : Byte) : (writeRegFrame a r v s).initialized = s.initialized := by
  simp [writeRegFrame]
@[simp] theorem writeRegFrame_busy (a : BitVec 7) (r v : Byte) : (writeRegFrame a r v s).busy = s.busy := by
  simp [writeRegFrame]
@[simp] theorem writeRegFrame_psMode (a : BitVec 7) (r v : Byte) : (writeRegFrame a r v s).psMode = s.psMode := by
  simp [writeRegFrame]
@[simp] theorem writeRegFrame_activity (a : BitVec 7) (r v : Byte) : (writeRegFrame a r v s).activity = s.activity := by
  simp [writeRegFrame]
@[simp] theorem writeRegFrame_errNotified (a : BitVec 7) (r v : Byte) : (writeRegFrame a r v s).errNotified = s.errNotified := by
  simp [writeRegFrame]
@[simp] theorem writeRegFrame_errKind (a : BitVec 7) (r v : Byte) : (writeRegFrame a r v s).errKind = s.errKind := by
  simp [writeRegFrame]
@[simp] theorem writeRegFrame_errSrc (a : BitVec 7) (r v : Byte) : (writeRegFrame a r v s).errSrc = s.errSrc := by
  simp [writeRegFrame]
@[simp] theorem writeRegFrame_errCause (a : BitVec 7) (r v : Byte) : (writeRegFrame a r v s).errCause = s.errCause := by
  simp [writeRegFrame]
@[simp] theorem writeRegFrame_tCycle (a : BitVec 7) (r v : Byte) : (writeRegFrame a r v s).tCycle = s.tCycle := by
  simp [writeRegFrame]
@[simp] theorem writeRegFrame_tActivity (a : BitVec 7) (r v : Byte) : (writeRegFrame a r v s).tActivity = s.tActivity := by
  simp [writeRegFrame]
@[simp] theorem writeRegFrame_colLatch (a : BitVec 7) (r v : Byte) : (writeRegFrame a r v s).colLatch = s.colLatch := by
  simp [writeRegFrame]
@[simp] theorem writeRegFrame_expWord (a : BitVec 7) (r v : Byte) : (writeRegFrame a r v s).expWord = s.expWord := by
  simp [writeRegFrame]
@[simp] theorem writeRegFrame_expOk (a : BitVec 7) (r v : Byte) : (writeRegFrame a r v s).expOk = s.expOk := by
  simp [writeRegFrame]
@[simp] theorem writeRegFrame_evt (a : BitVec 7) (r v : Byte) : (writeRegFrame a r v s).evt = s.evt := by
  simp [writeRegFrame]
@[simp] theorem writeRegFrame_updWait (a : BitVec 7) (r v : Byte) : (writeRegFrame a r v s).updWait = s.updWait := by
  simp [writeRegFrame]
@[simp] theorem writeRegFrame_todo (a : BitVec 7) (r v : Byte) : (writeRegFrame a r v s).todo = s.todo := by
  simp [writeRegFrame]
@[simp] theorem writeRegFrame_host (a : BitVec 7) (r v : Byte) : (writeRegFrame a r v s).host = s.host := by
  simp [writeRegFrame]

@[simp] theorem setPointerFrame_params (a : BitVec 7) (r : Byte) : (setPointerFrame a r s).params = s.params := by
  simp [setPointerFrame]
@[simp] theorem setPointerFrame_cfg (a : BitVec 7) (r : Byte) : (setPointerFrame a r s).cfg = s.cfg := by
  simp [setPointerFrame]
@[simp] theorem setPointerFrame_cells (a : BitVec 7) (r : Byte) : (setPointerFrame a r s).cells = s.cells := by
  simp [setPointerFrame]
@[simp] theorem setPointerFrame_gpioLines (a : BitVec 7) (r : Byte) : (setPointerFrame a r s).gpioLines = s.gpioLines := by
  simp [setPointerFrame]
@[simp] theorem setPointerFrame_encs (a : BitVec 7) (r : Byte) : (setPointerFrame a r s).encs = s.encs := by
  simp [setPointerFrame]
@[simp] theorem setPointerFrame_exps (a : BitVec 7) (r : Byte) : (setPointerFrame a r s).exps = s.exps := by
  simp [setPointerFrame]
@[simp] theorem setPointerFrame_phase (a : BitVec 7) (r : Byte) : (setPointerFrame a r s).phase = s.phase := by
  simp [setPointerFrame]
@[simp] theorem setPointerFrame_ix (a : BitVec 7) (r : Byte) : (setPointerFrame a r s).ix = s.ix := by
  simp [setPointerFrame]
@[simp] theorem setPointerFrame_jx (a : BitVec 7) (r : Byte) : (setPointerFrame a r s).jx = s.jx := by
  simp [setPointerFrame]
@[simp] theorem setPointerFrame_initialized (a : BitVec 7) (r : Byte) : (setPointerFrame a r s).initialized = s.initialized := by
  simp [setPointerFrame]
@[simp] theorem setPointerFrame_busy (a : BitVec 7) (r : Byte) : (setPointerFrame a r s).busy = s.busy := by
  simp [setPointerFrame]
@[simp] theorem setPointerFrame_psMode (a : BitVec 7) (r : Byte) : (setPointerFrame a r s).psMode = s.psMode := by
  simp [setPointerFrame]
@[simp] theorem setPointerFrame_activity (a : BitVec 7) (r : Byte) : (setPointerFrame a r s).activity = s.activity := by
  simp [setPointerFrame]
@[simp] theorem setPointerFrame_errNotified (a : BitVec 7) (r : Byte) : (setPointerFrame a r s).errNotified = s.errNotified := by
  simp [setPointerFrame]
@[simp] theorem setPointerFrame_errKind (a : BitVec 7) (r : Byte) : (setPointerFrame a r s).errKind = s.errKind := by
  simp [setPointerFrame]
@[simp] theorem setPointerFrame_errSrc (a : BitVec 7) (r : Byte) : (setPointerFrame a r s).errSrc = s.errSrc := by
  simp [setPointerFrame]
@[simp] theorem setPointerFrame_errCause (a : BitVec 7) (r : Byte) : (setPointerFrame a r s).errCause = s.errCause := by
  simp [setPointerFrame]
@[simp] theorem setPointerFrame_tCycle (a : BitVec 7) (r : Byte) : (setPointerFrame a r s).tCycle = s.tCycle := by
  simp [setPointerFrame]
@[simp] theorem setPointerFrame_tActivity (a : BitVec 7) (r : Byte) : (setPointerFrame a r s).tActivity = s.tActivity := by
  simp [setPointerFrame]
@[simp] theorem setPointerFrame_colLatch (a : BitVec 7) (r : Byte) : (setPointerFrame a r s).colLatch = s.colLatch := by
  simp [setPointerFrame]
@[simp] theorem setPointerFrame_expWord (a : BitVec 7) (r : Byte) : (setPointerFrame a r s).expWord = s.expWord := by
  simp [setPointerFrame]
@[simp] theorem setPointerFrame_expOk (a : BitVec 7) (r : Byte) : (setPointerFrame a r s).expOk = s.expOk := by
  simp [setPointerFrame]
@[simp] theorem setPointerFrame_evt (a : BitVec 7) (r : Byte) : (setPointerFrame a r s).evt = s.evt := by
  simp [setPointerFrame]
@[simp] theorem setPointerFrame_updWait (a : BitVec 7) (r : Byte) : (setPointerFrame a r s).updWait = s.updWait := by
  simp [setPointerFrame]
@[simp] theorem setPointerFrame_todo (a : BitVec 7) (r : Byte) : (setPointerFrame a r s).todo = s.todo := by
  simp [setPointerFrame]
@[simp] theorem setPointerFrame_host (a : BitVec 7) (r : Byte) : (setPointerFrame a r s).host = s.host := by
  simp [setPointerFrame]

end Sys2Proof.Machine
end

