-- ==== Sys2Proof/Laws/Table.lean ====
section
/-! SUPPORT. The laws of the sparse register arrays: a read after a write, and the canonical form. -/

namespace Sys2Proof

variable {α : Type} (d : α)

@[simp] theorem Table.get_nil (n : Nat) : Table.get d [] n = d := rfl

theorem Table.get_cons (k : Nat) (v : α) (t : Table α) (n : Nat) :
    Table.get d ((k, v) :: t) n = if k = n then v else Table.get d t n := rfl

theorem Table.get_erase_same (n : Nat) (t : Table α) : Table.get d (Table.erase n t) n = d := by
  induction t with
  | nil => rfl
  | cons p t ih =>
    obtain ⟨k, v⟩ := p
    simp only [Table.erase]
    split
    · exact ih
    · rename_i h
      simp [Table.get, h, ih]

theorem Table.get_erase_other {n m : Nat} (h : m ≠ n) (t : Table α) :
    Table.get d (Table.erase n t) m = Table.get d t m := by
  induction t with
  | nil => rfl
  | cons p t ih =>
    obtain ⟨k, v⟩ := p
    simp only [Table.erase]
    split
    · rename_i hk
      simp [Table.get, ih, hk, Ne.symm h]
    · simp [Table.get, ih]

theorem Table.get_insert_other {n m : Nat} (h : m ≠ n) (x : α) (t : Table α) :
    Table.get d (Table.insert n x t) m = Table.get d t m := by
  induction t with
  | nil => simp [Table.insert, Table.get, Ne.symm h]
  | cons p t ih =>
    obtain ⟨k, v⟩ := p
    simp only [Table.insert]
    split
    · simp [Table.get, Ne.symm h]
    · simp [Table.get, ih]

theorem Table.get_insert_erase (n : Nat) (x : α) (t : Table α) :
    Table.get d (Table.insert n x (Table.erase n t)) n = x := by
  induction t with
  | nil => simp [Table.erase, Table.insert, Table.get]
  | cons p t ih =>
    obtain ⟨k, v⟩ := p
    simp only [Table.erase]
    split
    · exact ih
    · rename_i hk
      simp only [Table.insert]
      split
      · simp [Table.get]
      · simp [Table.get, hk, ih]

variable [DecidableEq α]

/-- A read after a write to the same index gives the value written. -/
@[simp] theorem Table.get_put_same (t : Table α) (n : Nat) (x : α) : Table.get d (Table.put d t n x) n = x := by
  unfold Table.put
  split
  · rename_i h
    rw [Table.get_erase_same, h]
  · exact Table.get_insert_erase d n x t

/-- A write leaves every other index alone. -/
theorem Table.get_put_other {n m : Nat} (h : m ≠ n) (t : Table α) (x : α) :
    Table.get d (Table.put d t n x) m = Table.get d t m := by
  unfold Table.put
  split
  · exact Table.get_erase_other d h t
  · rw [Table.get_insert_other d h, Table.get_erase_other d h]

/-- A read after a write, at any index. -/
theorem Table.get_put (t : Table α) (n m : Nat) (x : α) :
    Table.get d (Table.put d t n x) m = if m = n then x else Table.get d t m := by
  split
  · rename_i h
    rw [h, Table.get_put_same]
  · rename_i h
    exact Table.get_put_other d h t x

/-- The bound `lo` of the canonical form may be lowered. -/
theorem Table.wfFrom_weaken {lo lo' : Option Nat} (t : Table α)
    (hlo : ∀ l', lo' = some l' → ∃ l, lo = some l ∧ l' ≤ l) (h : Table.wfFrom d lo t = true) :
    Table.wfFrom d lo' t = true := by
  cases t with
  | nil => rfl
  | cons p t =>
    obtain ⟨k, v⟩ := p
    simp only [Table.wfFrom, Bool.and_eq_true] at h ⊢
    refine ⟨⟨?_, h.1.2⟩, h.2⟩
    cases lo' with
    | none => rfl
    | some l' =>
      obtain ⟨l, rfl, hl⟩ := hlo l' rfl
      have := h.1.1
      simp only [decide_eq_true_eq] at this ⊢
      omega

theorem Table.wfFrom_erase (n : Nat) (lo : Option Nat) (t : Table α) (h : Table.wfFrom d lo t = true) :
    Table.wfFrom d lo (Table.erase n t) = true := by
  induction t generalizing lo with
  | nil => rfl
  | cons p t ih =>
    obtain ⟨k, v⟩ := p
    simp only [Table.wfFrom, Bool.and_eq_true] at h
    simp only [Table.erase]
    split
    · refine ih lo (Table.wfFrom_weaken d t (lo := some k) ?_ h.2)
      intro l' hl'
      subst hl'
      have := h.1.1
      simp only [decide_eq_true_eq] at this
      exact ⟨k, rfl, by omega⟩
    · simp only [Table.wfFrom, Bool.and_eq_true]
      exact ⟨h.1, ih _ h.2⟩

/-- No entry of the table has index `n`. -/
def Table.lacks (n : Nat) (t : Table α) : Prop := ∀ p ∈ t, p.1 ≠ n

omit [DecidableEq α] in
theorem Table.lacks_erase (n : Nat) (t : Table α) : Table.lacks n (Table.erase n t) := by
  induction t with
  | nil => intro p hp; cases hp
  | cons p t ih =>
    obtain ⟨k, v⟩ := p
    simp only [Table.erase]
    split
    · exact ih
    · rename_i hk
      intro q hq
      rcases List.mem_cons.1 hq with rfl | hq
      · exact hk
      · exact ih q hq

theorem Table.wfFrom_insert (n : Nat) (x : α) (hx : x ≠ d) (lo : Option Nat) (t : Table α)
    (hn : ∀ l, lo = some l → l < n) (hl : Table.lacks n t) (h : Table.wfFrom d lo t = true) :
    Table.wfFrom d lo (Table.insert n x t) = true := by
  induction t generalizing lo with
  | nil =>
    cases lo with
    | none => simp [Table.insert, Table.wfFrom, hx]
    | some l => simp [Table.insert, Table.wfFrom, hx, hn l rfl]
  | cons p t ih =>
    obtain ⟨k, v⟩ := p
    simp only [Table.wfFrom, Bool.and_eq_true] at h
    have hk : k ≠ n := hl (k, v) (by simp)
    simp only [Table.insert]
    split
    · rename_i hlt
      simp only [Table.wfFrom, Bool.and_eq_true, decide_eq_true_eq]
      refine ⟨⟨?_, hx⟩, ⟨hlt, by simpa using h.1.2⟩, h.2⟩
      cases lo with
      | none => rfl
      | some l => simpa using hn l rfl
    · rename_i hge
      simp only [Table.wfFrom, Bool.and_eq_true]
      refine ⟨h.1, ih (some k) ?_ ?_ h.2⟩
      · intro l hl'
        cases hl'
        omega
      · intro q hq
        exact hl q (by simp [hq])

/-- A write keeps the canonical form. -/
theorem Table.wf_put (t : Table α) (n : Nat) (x : α) (h : Table.wf d t = true) :
    Table.wf d (Table.put d t n x) = true := by
  unfold Table.put Table.wf
  split
  · exact Table.wfFrom_erase d n none t h
  · rename_i hx
    exact Table.wfFrom_insert d n x hx none _ (by intro l hl; cases hl) (Table.lacks_erase n t)
      (Table.wfFrom_erase d n none t h)

@[simp] theorem Table.wf_nil : Table.wf d ([] : Table α) = true := rfl

end Sys2Proof
end

