-- ==== Sys2Proof/Laws/Ops.lean ====
section
/-! SUPPORT. What each shared operation does, said once: the register arrays, the answers of the environment, DEBOUNCE,
EMIT, RAISE and one poll of a line. -/

namespace Sys2Proof.Machine

open Sys2Proof.Safety

/-! ## Bits of a 16-bit word -/

/-- A write to one bit changes that bit only. -/
theorem setBit16_getLsbD (v : BitVec 16) (b : BitVec 4) (x : Bool) (k : Nat) :
    (setBit16 v b x).getLsbD k = if k = b.toNat then x else v.getLsbD k := by
  have hb : b.toNat < 16 := b.isLt
  unfold setBit16
  by_cases hk : k = b.toNat
  · subst hk
    cases x <;> simp [hb]
  · have h1 : (k < 16 → ¬ k < b.toNat → ¬ k - b.toNat = 0) := by omega
    by_cases hk16 : k < 16
    · by_cases hlt : k < b.toNat
      · cases x <;> simp [hk, hk16, hlt]
      · have : k - b.toNat ≠ 0 := h1 hk16 hlt
        cases x <;> simp [hk, hk16, this]
    · have : v.getLsbD k = false := BitVec.getLsbD_of_ge v k (by omega)
      cases x <;> simp [hk, hk16, this]

theorem Exp.lane_setLane_same (x : Exp) (b : BitVec 4) (l : Line) : (x.setLane b l).lane b = l := by
  obtain ⟨raw, conf, ts⟩ := l
  simp [Exp.lane, Exp.setLane, Exp.laneTs, setBit16_getLsbD]

theorem Exp.lane_setLane_other (x : Exp) {b c : BitVec 4} (h : c ≠ b) (l : Line) :
    (x.setLane b l).lane c = x.lane c := by
  have h' : c.toNat ≠ b.toNat := fun e => h (BitVec.eq_of_toNat_eq e)
  have h'' : b.toNat ≠ c.toNat := Ne.symm h'
  simp [Exp.lane, Exp.setLane, Exp.laneTs, setBit16_getLsbD, h', Vector.getElem_set_ne _ _ h'']

/-! ## The register arrays -/

/-- Different cells have different indices. -/
theorem cellIndex_inj {r c r' c' : Byte} : cellIndex r c = cellIndex r' c' ↔ r = r' ∧ c = c' := by
  have hc : c.toNat < 256 := c.isLt
  have hc' : c'.toNat < 256 := c'.isLt
  unfold cellIndex
  constructor
  · intro h
    exact ⟨BitVec.eq_of_toNat_eq (by omega), BitVec.eq_of_toNat_eq (by omega)⟩
  · rintro ⟨rfl, rfl⟩
    rfl

@[simp] theorem cell_setCell (s : State) (r c r' c' : Byte) (l : Line) :
    (setCell r c l s).cell r' c' = if r' = r ∧ c' = c then l else s.cell r' c' := by
  simp only [State.cell, setCell, Table.get_put, cellIndex_inj]

@[simp] theorem gpioLine_setGpioLine (s : State) (i j : Byte) (l : Line) :
    (setGpioLine i l s).gpioLine j = if j = i then l else s.gpioLine j := by
  simp only [State.gpioLine, setGpioLine, Table.get_put, BitVec.toNat_inj]

@[simp] theorem enc_setEnc (s : State) (e j : Byte) (x : Enc) :
    (setEnc e x s).enc j = if j = e then x else s.enc j := by
  simp only [State.enc, setEnc, Table.get_put, BitVec.toNat_inj]

@[simp] theorem exp_setExp (s : State) (d j : Byte) (x : Exp) :
    (setExp d x s).exp j = if j = d then x else s.exp j := by
  simp only [State.exp, setExp, Table.get_put, BitVec.toNat_inj]

@[simp] theorem latchedLevel_setColLatch (s : State) (c k : Nat) (l : Level) :
    (setColLatch c l s).latchedLevel k = if k = c then l else s.latchedLevel k := by
  simp only [State.latchedLevel, setColLatch, Table.get_put]

/-- The lines depend on the four arrays only. -/
theorem line_congr {s t : State} (hc : t.cells = s.cells) (hg : t.gpioLines = s.gpioLines) (he : t.encs = s.encs)
    (hx : t.exps = s.exps) (q : LineRef) : t.line q = s.line q := by
  cases q <;> simp [State.line, State.cell, State.gpioLine, State.enc, State.exp, hc, hg, he, hx]

theorem enc_congr {s t : State} (he : t.encs = s.encs) (e : Byte) : t.enc e = s.enc e := by
  simp [State.enc, he]

/-- A line read after it was written. -/
@[simp] theorem line_setLine_same (s : State) (ref : LineRef) (l : Line) : (setLine ref l s).line ref = l := by
  cases ref <;> simp [State.line, setLine, Exp.lane_setLane_same]

/-- Writing a line leaves every other line alone. -/
theorem line_setLine_other (s : State) {ref q : LineRef} (h : q ≠ ref) (l : Line) :
    (setLine ref l s).line q = s.line q := by
  cases ref with
  | cell r c =>
    cases q with
    | cell r' c' =>
      have : ¬ (r' = r ∧ c' = c) := fun e => h (by rw [e.1, e.2])
      simp [State.line, setLine, this]
    | _ => rfl
  | gpio i =>
    cases q with
    | gpio j =>
      have : j ≠ i := fun e => h (by rw [e])
      simp [State.line, setLine, this]
    | _ => rfl
  | encBtn e =>
    cases q with
    | encBtn j =>
      have : j ≠ e := fun e' => h (by rw [e'])
      simp [State.line, setLine, this]
    | _ => rfl
  | expLane d b =>
    cases q with
    | expLane d' b' =>
      by_cases hd : d' = d
      · have hb : b' ≠ b := fun e => h (by rw [hd, e])
        simp [State.line, setLine, hd, Exp.lane_setLane_other _ hb]
      · simp [State.line, setLine, hd]
    | _ => rfl

/-- Writing a line changes an encoder's button at most. -/
theorem enc_setLine (s : State) (ref : LineRef) (l : Line) (e : Byte) :
    (setLine ref l s).enc e = { s.enc e with btn := ((setLine ref l s).enc e).btn } := by
  cases ref with
  | encBtn j =>
    by_cases h : e = j
    · subst h
      simp [setLine]
    · simp [setLine, h]
  | _ => rfl

/-! ## The answers of the environment -/

/-- The answers shift by one when one is taken. -/
@[simp] theorem pinAnswer_afterPin (e : Env) (k : Nat) : e.afterPin.pinAnswer k = e.pinAnswer (k + 1) := by
  obtain ⟨p, n, st, a, b, d, ps⟩ := e
  cases p with
  | nil => simp [Env.afterPin, Env.pinAnswer, Nat.add_assoc, Nat.add_comm 1 k]
  | cons l r => simp [Env.afterPin, Env.pinAnswer]

@[simp] theorem endAnswer_afterEnd (e : Env) (k : Nat) : e.afterEnd.endAnswer k = e.endAnswer (k + 1) := by
  obtain ⟨p, n, st, a, b, d, ps⟩ := e
  cases st with
  | nil => simp [Env.afterEnd, Env.endAnswer, Nat.add_assoc, Nat.add_comm 1 k]
  | cons l r => simp [Env.afterEnd, Env.endAnswer]

@[simp] theorem afterPin_pins (e : Env) : e.afterPin.pins = e.pins := by
  unfold Env.afterPin; split <;> rfl

@[simp] theorem afterNow_pins (e : Env) : e.afterNow.pins = e.pins := by
  unfold Env.afterNow; split <;> rfl

@[simp] theorem afterEnd_pins (e : Env) : e.afterEnd.pins = e.pins := by
  unfold Env.afterEnd; split <;> rfl

@[simp] theorem afterByte_pins (e : Env) : e.afterByte.pins = e.pins := by
  unfold Env.afterByte; split <;> rfl

/-! ## Loops -/

/-- A loop keeps what its body keeps. -/
theorem forAsc_induct (P : State → Prop) (f : Nat → State → State) (hf : ∀ k s, P s → P (f k s)) (n : Nat) (s : State)
    (h : P s) : P (forAsc n f s) := by
  induction n with
  | zero => exact h
  | succ n ih => exact hf n _ ih

/-- A loop whose body leaves a view of the state alone leaves it alone. -/
theorem forAsc_view {β : Type} (v : State → β) (f : Nat → State → State) (hf : ∀ k s, v (f k s) = v s) (n : Nat)
    (s : State) : v (forAsc n f s) = v s := by
  induction n with
  | zero => rfl
  | succ n ih => exact (hf n _).trans ih

/-! ## DEBOUNCE, EMIT, RAISE, one poll -/

/-- DEBOUNCE called: the line and the result, by `debounceLine`. -/
theorem callDebounce_eq (ref : LineRef) (r : Bool) (s : State) :
    callDebounce ref r s =
      setLine ref (debounceLine (s.line ref) r s.tCycle s.cfg.debounceMs).1
        { s with call.line := ref, call.raw := r,
                 call.toggled := (debounceLine (s.line ref) r s.tCycle s.cfg.debounceMs).2 } := by
  have h : ({ s with call.line := ref, call.raw := r } : State).line ref = s.line ref :=
    line_congr rfl rfl rfl rfl ref
  simp only [callDebounce, debounceOp, h]

/-- EMIT called: a record on an enabled channel, else nothing but the operands. -/
theorem callEmit_eq (ch : Channel) (a b : Byte) (v : BitVec 4) (s : State) :
    callEmit ch a b v s =
      if s.cfg.evtEnable.getLsbD ch.bit = true then
        { s with call.channel := ch, call.evA := a, call.evB := b, call.evV := v,
                 evt := some (s.recordOf ch a b v), out := .record (s.recordOf ch a b v) :: s.out }
      else { s with call.channel := ch, call.evA := a, call.evB := b, call.evV := v } := by
  have hc : callEmit ch a b v s =
      if s.enabled ch = true then
        present (s.recordOf ch a b v) { s with call.channel := ch, call.evA := a, call.evB := b, call.evV := v }
      else { s with call.channel := ch, call.evA := a, call.evB := b, call.evV := v } := rfl
  rw [hc]
  rfl

/-- The operands that EMIT leaves. -/
@[simp] theorem callEmit_call (ch : Channel) (a b : Byte) (v : BitVec 4) (s : State) :
    (callEmit ch a b v s).call = { s.call with channel := ch, evA := a, evB := b, evV := v } := by
  rw [callEmit_eq]
  split <;> rfl

/-- RAISE called does what R284 to R286 say. -/
theorem callRaise_raised (k : FaultKind) (src cause : Byte) (s : State) :
    Raised k src cause s (callRaise k src cause s) := by
  unfold Raised callRaise raiseOp
  cases k <;> cases hn : s.errNotified <;> cases he : s.cfg.evtEnable[5] <;>
    simp [callEmit_eq, State.recordOf, Channel.code, Channel.bit, errorCode, he]

/-- One poll of a line does what `Polled` says, on any channel but the error channel. -/
theorem pollLine_polled (ref : LineRef) (r : Bool) (ch : Channel) (hch : ch ≠ .error) (a b : Byte) (s : State) :
    Polled ref r ch a b s (pollLine ref r ch a b s) := by
  have hd : ∀ q, (callDebounce ref r s).line q =
      if q = ref then (debounceLine (s.line ref) r s.tCycle s.cfg.debounceMs).1 else s.line q := by
    intro q
    rw [callDebounce_eq]
    split
    · rename_i h
      subst h
      simp
    · rename_i h
      rw [line_setLine_other _ h]
      exact line_congr rfl rfl rfl rfl q
  have he : ∀ e, (callDebounce ref r s).enc e = { s.enc e with btn := ((callDebounce ref r s).enc e).btn } := by
    intro e
    rw [callDebounce_eq]
    exact enc_setLine _ ref _ e
  have ht : (callDebounce ref r s).call.toggled = (debounceLine (s.line ref) r s.tCycle s.cfg.debounceMs).2 := by
    rw [callDebounce_eq]
    cases ref <;> rfl
  have hc : (callDebounce ref r s).call = { s.call with
      line := ref, raw := r, toggled := (debounceLine (s.line ref) r s.tCycle s.cfg.debounceMs).2 } := by
    rw [callDebounce_eq]
    cases ref <;> rfl
  have hs : callDebounce ref r s = { s with
      cells := (callDebounce ref r s).cells, gpioLines := (callDebounce ref r s).gpioLines,
      encs := (callDebounce ref r s).encs, exps := (callDebounce ref r s).exps,
      call := (callDebounce ref r s).call } := by
    rw [callDebounce_eq]
    cases ref <;> rfl
  unfold Polled pollLine
  dsimp only
  rw [ht]
  generalize hu : callDebounce ref r s = u at *
  cases hdt : (debounceLine (s.line ref) r s.tCycle s.cfg.debounceMs).2 with
  | false =>
    rw [if_neg (by simp)]
    refine ⟨by rw [hd]; simp, fun q hq => by rw [hd]; simp [hq], he, ?_, ?_, by rw [ht, hdt], by rw [hc], ?_⟩
    · rw [hs]; simp
    · rw [hs]; simp
    · rw [hs]
  | true =>
    rw [if_pos rfl]
    have hu' : u.cfg = s.cfg := by rw [hs]
    have ho : u.out = s.out := by rw [hs]
    have hev : u.evt = s.evt := by rw [hs]
    have hli : u.line ref = (debounceLine (s.line ref) r s.tCycle s.cfg.debounceMs).1 := by rw [hd]; simp
    rw [callEmit_eq]
    simp only [hu', hli, toggleCode]
    cases hen : s.cfg.evtEnable.getLsbD ch.bit with
    | false =>
      rw [if_neg (by simp)]
      refine ⟨?_, ?_, ?_, by simp, ?_, by simp [ht, hdt], by simp [hc], ?_⟩
      · exact (line_congr rfl rfl rfl rfl ref).trans hli
      · intro q hq
        refine (line_congr (s := u) rfl rfl rfl rfl q).trans ?_
        rw [hd]; simp [hq]
      · exact he
      · simp [ho, hev]
      · rw [hs]
    | true =>
      rw [if_pos rfl]
      refine ⟨?_, ?_, ?_, by simp, ?_, by simp [ht, hdt], by simp [hc], ?_⟩
      · exact (line_congr rfl rfl rfl rfl ref).trans hli
      · intro q hq
        refine (line_congr (s := u) rfl rfl rfl rfl q).trans ?_
        rw [hd]; simp [hq]
      · exact he
      · simp [ho, State.recordOf, hch]
      · rw [hs]

/-! ## Codes (30_encoding.md R106, R118) -/

/-- A status is read back from its code. -/
@[simp] theorem Status.ofCode_code (st : Status) : Status.ofCode st.code = some st := by cases st <;> rfl

/-- A code that stands for a status is that status's code, so 3 is never produced. -/
theorem Status.code_of_ofCode {c : BitVec 2} {st : Status} (h : Status.ofCode c = some st) : st.code = c := by
  unfold Status.ofCode at h
  split at h <;> cases h <;> apply BitVec.eq_of_toNat_eq <;> simp_all [Status.code]

/-- A pin mode is read back from its code. -/
@[simp] theorem PinMode.ofCode_code (m : PinMode) : PinMode.ofCode m.code = some m := by cases m <;> rfl

/-- A code that stands for a pin mode is that mode's code, so 3 is never issued. -/
theorem PinMode.code_of_ofCode {c : BitVec 2} {m : PinMode} (h : PinMode.ofCode c = some m) : m.code = c := by
  unfold PinMode.ofCode at h
  split at h <;> cases h <;> apply BitVec.eq_of_toNat_eq <;> simp_all [PinMode.code]

end Sys2Proof.Machine
end

