-- ==== Sys2Proof/Laws/Requests.lean ====
section
/-! SUPPORT. What the requests to the environment leave: the trace, the pins, the answers still to come; for one request,
for two in a row, and for a loop. -/

namespace Sys2Proof.Machine

open Sys2Proof.Safety

/-! ## Pins -/

theorem driveAfter_append (p : Byte) (as bs : List Request) (d : PinDrive) :
    driveAfter p (as ++ bs) d = driveAfter p bs (driveAfter p as d) := by
  induction as generalizing d with
  | nil => rfl
  | cons a as ih => cases a <;> simp only [List.cons_append, driveAfter, ih]

/-- Nothing is issued, nothing changes at the pins. -/
theorem issued_nil (s : State) : Issued [] s s := ⟨rfl, fun _ => rfl⟩

/-- Two stretches of requests in a row. -/
theorem issued_append {as bs : List Request} {s t u : State} (h : Issued as s t) (h' : Issued bs t u) :
    Issued (as ++ bs) s u := by
  refine ⟨?_, fun p => ?_⟩
  · rw [h'.1, h.1]
    simp
  · rw [h'.2, h.2, driveAfter_append]

theorem pinMode_issued (p : Byte) (m : PinMode) (s : State) : Issued [.pinMode p m] s (pinMode p m s) := by
  refine ⟨rfl, fun q => ?_⟩
  simp only [State.pin, pinMode, request, driveAfter, Table.get_put]
  by_cases h : p = q
  · simp [h]
  · have h' : ¬ q.toNat = p.toNat := fun e => h (BitVec.eq_of_toNat_eq e.symm)
    simp [h, h']

theorem pinWrite_issued (p : Byte) (l : Level) (s : State) : Issued [.pinWrite p l] s (pinWrite p l s) := by
  refine ⟨rfl, fun q => ?_⟩
  simp only [State.pin, pinWrite, request, driveAfter, Table.get_put]
  by_cases h : p = q
  · simp [h]
  · have h' : ¬ q.toNat = p.toNat := fun e => h (BitVec.eq_of_toNat_eq e.symm)
    simp [h, h']

theorem pinRead_issued (p : Byte) (s : State) : Issued [.pinRead p] s (pinRead p s) := by
  refine ⟨rfl, fun q => ?_⟩
  simp [State.pin, pinRead, request, driveAfter]

theorem waitMicros_issued (n : Nat) (s : State) : Issued [.waitMicros n] s (request (.waitMicros n) s) :=
  ⟨rfl, fun _ => rfl⟩

/-- Only the pins and the trace differ. -/
def PinsOnly (s t : State) : Prop := t = { s with env.pins := t.env.pins, out := t.out }

theorem PinsOnly.refl (s : State) : PinsOnly s s := rfl

theorem PinsOnly.trans {s t u : State} (h : PinsOnly s t) (h' : PinsOnly t u) : PinsOnly s u := by
  unfold PinsOnly at *
  rw [h', h]

theorem PinsOnly.cfg {s t : State} (h : PinsOnly s t) : t.cfg = s.cfg := by rw [h]

theorem pinMode_pinsOnly (p : Byte) (m : PinMode) (s : State) : PinsOnly s (pinMode p m s) := rfl

theorem pinWrite_pinsOnly (p : Byte) (l : Level) (s : State) : PinsOnly s (pinWrite p l s) := rfl

/-- A loop whose body issues `rs k`, whatever the pins are, and touches nothing but the pins. -/
theorem forAsc_issued {s : State} (rs : Nat → List Request) (f : Nat → State → State)
    (hf : ∀ k t, PinsOnly s t → Issued (rs k) t (f k t) ∧ PinsOnly t (f k t)) (n : Nat) :
    Issued ((List.range n).flatMap rs) s (forAsc n f s) ∧ PinsOnly s (forAsc n f s) := by
  induction n with
  | zero => exact ⟨issued_nil s, PinsOnly.refl s⟩
  | succ n ih =>
    obtain ⟨h1, h2⟩ := hf n _ ih.2
    refine ⟨?_, ih.2.trans h2⟩
    rw [List.range_succ, List.flatMap_append]
    simpa [forAsc] using issued_append ih.1 h1

/-- `driveRowInactive` (47_host_commands.md R267, 46_update_cycle.md R242). -/
theorem driveRowInactive_issued (s : State) (r : Nat) :
    Issued [.pinMode (s.cfg.rowPinAt (BitVec.ofNat 8 r)) .output, .pinWrite (s.cfg.rowPinAt (BitVec.ofNat 8 r)) true] s
      (driveRowInactive s r) :=
  issued_append (pinMode_issued _ _ s) (pinWrite_issued _ _ _)

/-- The rows restored, one after the other (R267, R242). -/
theorem restoreRows_issued (s : State) (n : Nat) :
    Issued ((List.range n).flatMap fun r => [.pinMode (s.cfg.rowPinAt (BitVec.ofNat 8 r)) .output,
        .pinWrite (s.cfg.rowPinAt (BitVec.ofNat 8 r)) true]) s (forAsc n (fun r t => driveRowInactive t r) s) ∧
      PinsOnly s (forAsc n (fun r t => driveRowInactive t r) s) :=
  forAsc_issued _ (fun r t => driveRowInactive t r)
    (fun k t ht => ⟨by simpa only [ht.cfg] using driveRowInactive_issued t k, rfl⟩) n

/-- The pin of each item put in a mode, one after the other (R267, 46_update_cycle.md R235). -/
theorem setModes_issued (s : State) (pinAt : HostCfg → Byte → Byte) (m : PinMode) (n : Nat) :
    Issued ((List.range n).flatMap fun k => [.pinMode (pinAt s.cfg (BitVec.ofNat 8 k)) m]) s
        (forAsc n (fun k t => pinMode (pinAt t.cfg (BitVec.ofNat 8 k)) m t) s) ∧
      PinsOnly s (forAsc n (fun k t => pinMode (pinAt t.cfg (BitVec.ofNat 8 k)) m t) s) :=
  forAsc_issued _ (fun k t => pinMode (pinAt t.cfg (BitVec.ofNat 8 k)) m t)
    (fun k t ht => ⟨by simpa only [ht.cfg] using pinMode_issued _ m t, rfl⟩) n

/-! ## The environment that a move leaves which `rst` cuts short (70_reset_and_hazards.md R332) -/

@[simp] theorem Env.afterPin_pins (e : Env) : e.afterPin.pins = e.pins := by unfold Env.afterPin; split <;> rfl
@[simp] theorem Env.afterNow_pins (e : Env) : e.afterNow.pins = e.pins := by unfold Env.afterNow; split <;> rfl
@[simp] theorem Env.afterEnd_pins (e : Env) : e.afterEnd.pins = e.pins := by unfold Env.afterEnd; split <;> rfl
@[simp] theorem Env.afterAvail_pins (e : Env) : e.afterAvail.pins = e.pins := by unfold Env.afterAvail; split <;> rfl
@[simp] theorem Env.afterByte_pins (e : Env) : e.afterByte.pins = e.pins := by unfold Env.afterByte; split <;> rfl

/-- A table of pins with one pin changed. -/
theorem pins_put (pins : Table PinDrive) (p q : Byte) (d : PinDrive) :
    Table.get PinDrive.reset (Table.put PinDrive.reset pins q.toNat d) p.toNat =
      if q = p then d else Table.get PinDrive.reset pins p.toNat := by
  rw [Table.get_put]
  by_cases h : q = p
  · simp [h]
  · have h' : ¬ p.toNat = q.toNat := fun e => h (BitVec.eq_of_toNat_eq e.symm)
    simp [h, h']

/-- What one request makes of a pin. -/
theorem Env.after_pin (r : Request) (e : Env) (p : Byte) :
    Table.get PinDrive.reset (e.after r).pins p.toNat = driveAfter p [r] (Table.get PinDrive.reset e.pins p.toNat) := by
  cases r with
  | pinMode q m =>
    simp only [Env.after, driveAfter, pins_put]
    by_cases h : q = p <;> simp [h]
  | pinWrite q l =>
    simp only [Env.after, driveAfter, pins_put]
    by_cases h : q = p <;> simp [h]
  | _ => simp [Env.after, driveAfter]

/-- A request keeps the canonical form of the pins. -/
theorem Env.after_wf (r : Request) {e : Env} (h : Table.wf PinDrive.reset e.pins = true) :
    Table.wf PinDrive.reset (e.after r).pins = true := by
  cases r with
  | pinMode q m => simp only [Env.after]; exact Table.wf_put _ _ _ _ h
  | pinWrite q l => simp only [Env.after]; exact Table.wf_put _ _ _ _ h
  | _ => simpa [Env.after] using h

/-- What was issued makes of a pin what its requests make of it. -/
theorem Env.served_pin (b : Bool) (l : List Out) (e : Env) (p : Byte) :
    Table.get PinDrive.reset (e.served b l).pins p.toNat =
      driveAfter p (requestsIn l) (Table.get PinDrive.reset e.pins p.toNat) := by
  induction l generalizing b e with
  | nil => rfl
  | cons o rest ih =>
    cases o with
    | response st d => exact ih _ _
    | record w => exact ih _ _
    | request r =>
      show Table.get _ (Env.served _ rest _).pins _ = driveAfter p ([r] ++ requestsIn rest) _
      rw [ih, driveAfter_append]
      split
      · rename_i hb
        have hr : r = .now := by simp_all
        rw [hr, driveAfter, driveAfter]
      · rw [Env.after_pin]

/-- What was issued keeps the canonical form of the pins. -/
theorem Env.served_wf (b : Bool) (l : List Out) {e : Env} (h : Table.wf PinDrive.reset e.pins = true) :
    Table.wf PinDrive.reset (e.served b l).pins = true := by
  induction l generalizing b e with
  | nil => exact h
  | cons o rest ih =>
    cases o with
    | response st d => exact ih _ h
    | record w => exact ih _ h
    | request r =>
      refine ih _ ?_
      split
      · exact h
      · exact Env.after_wf r h

/-- The bytes that a `BusRead` has not taken stay (R332). -/
theorem Env.served_byteIn (b : Bool) (l : List Out) (e : Env) :
    (e.served b l).byteIn = e.byteIn.drop ((requestsIn l).count .busRead) := by
  have h1 : ∀ (r : Request) (e : Env), (e.after r).byteIn = e.byteIn.drop (if r = .busRead then 1 else 0) := by
    intro r e
    cases r <;> simp only [Env.after, Env.afterPin, Env.afterNow, Env.afterEnd, Env.afterAvail, Env.afterByte] <;>
      (try split) <;> simp_all
  induction l generalizing b e with
  | nil => rfl
  | cons o rest ih =>
    cases o with
    | response st d => exact ih _ _
    | record w => exact ih _ _
    | request r =>
      show (Env.served _ rest _).byteIn = e.byteIn.drop ((r :: requestsIn rest).count .busRead)
      rw [ih, List.count_cons]
      split
      · rename_i hb
        have hr : r = .now := by simp_all
        simp [hr]
      · rw [h1, List.drop_drop, Nat.add_comm]
        congr 2
        simp [beq_iff_eq]

end Sys2Proof.Machine
end

