-- ==== Sys2Proof/Laws/BusWait.lean ====
section
/-! SUPPORT. The wait of BF_READ2 (45_expander.md R206), said once: data in time, no data in time, and what it touches
whatever the environment answers. -/

namespace Sys2Proof.Machine

open Sys2Proof.Safety

/-- Data that arrives in time. -/
theorem waitData_ok (w0 : Word) (ts nows : List Word) (ns avail : List Byte) (n b0 b1 : Byte) (bytes : List Byte) (s : State)
    (hn : s.env.nowIn = ts ++ nows) (ha : s.env.availIn = ns ++ n :: avail) (hb : s.env.byteIn = b0 :: b1 :: bytes)
        (hl : ts.length = ns.length)
    (h2 : ∀ m ∈ ns, m.toNat < 2) (ht : ∀ t ∈ ts, (t - w0).toNat ≤ s.params.expTimeoutMs.toNat) (hn2 : 2 ≤ n.toNat) :
    waitData w0 (ns ++ n :: avail) s = { s with call.read := .ok b0 b1
                                                env := { s.env with nowIn := nows, availIn := avail, byteIn := bytes }
                                                out := [.request .busRead, .request .busRead, .request .busAvail] ++
                  (List.replicate ns.length [Out.request .now, Out.request .busAvail]).flatten ++ s.out } := by
  induction ns generalizing s ts with
  | nil =>
    cases ts with
    | cons _ _ => simp at hl
    | nil =>
      simp only [List.nil_append, waitData]
      rw [if_pos hn2]
      have hn' : s.env.nowIn = nows := by simpa using hn
      simp [takeBytes, busRead, request, Env.byteAnswer, Env.afterByte, hb, ← hn']
  | cons m ns ih =>
    cases ts with
    | nil => simp at hl
    | cons t ts =>
      simp only [List.cons_append, waitData]
      have hm := h2 m (by simp)
      rw [if_neg (by omega)]
      have htt := ht t (by simp)
      have hnow : (request .busAvail {s with env.availIn := ns ++ n :: avail}).env.nowAnswer = t := by simp [request,
          Env.nowAnswer, hn]
      rw [hnow]
      have hex : exceeds t w0 s.params.expTimeoutMs = false := decide_eq_false (Nat.not_lt.2 htt)
      have hp : (request .busAvail {s with env.availIn := ns ++ n :: avail}).params = s.params := rfl
      rw [hex, if_neg (by simp)]
      rw [ih ts (now (request .busAvail {s with env.availIn := ns ++ n :: avail})) (by simp [now, request, Env.afterNow,
          hn]) (by simp [now, request, Env.afterNow, hn]) (by simp [now, request, Env.afterNow, hn, hb])
          (by simpa using hl) (fun m hm => h2 m (by simp [hm])) (fun t ht' => ht t (by simp [ht']))]
      simp [now, request, Env.afterNow, hn, List.replicate_succ']

/-- The limit is exceeded first. -/
theorem waitData_timeout (w0 t1 : Word) (ts nows : List Word) (ns avail : List Byte) (n : Byte) (s : State)
    (hn : s.env.nowIn = ts ++ t1 :: nows) (ha : s.env.availIn = ns ++ n :: avail)  (hl : ts.length = ns.length)
    (h2 : ∀ m ∈ ns, m.toNat < 2) (ht : ∀ t ∈ ts, (t - w0).toNat ≤ s.params.expTimeoutMs.toNat) (hn2 : n.toNat < 2)
        (hx : s.params.expTimeoutMs.toNat < (t1 - w0).toNat) :
    waitData w0 (ns ++ n :: avail) s = { s with call.read := .timeout n
                                                env := { s.env with nowIn := nows, availIn := avail }
                                                out := [.request .now, .request .busAvail] ++
                  (List.replicate ns.length [Out.request .now, Out.request .busAvail]).flatten ++ s.out } := by
  induction ns generalizing s ts with
  | nil =>
    cases ts with
    | cons _ _ => simp at hl
    | nil =>
      simp only [List.nil_append, waitData]
      rw [if_neg (by omega)]
      have hnow : (request .busAvail {s with env.availIn := avail}).env.nowAnswer = t1 := by simp [request,
          Env.nowAnswer, hn]
      rw [hnow]
      have hex : exceeds t1 w0 s.params.expTimeoutMs = true := decide_eq_true hx
      rw [hex, if_pos rfl]
      simp [now, request, Env.afterNow, hn]
  | cons m ns ih =>
    cases ts with
    | nil => simp at hl
    | cons t ts =>
      simp only [List.cons_append, waitData]
      have hm := h2 m (by simp)
      rw [if_neg (by omega)]
      have htt := ht t (by simp)
      have hnow : (request .busAvail {s with env.availIn := ns ++ n :: avail}).env.nowAnswer = t := by simp [request,
          Env.nowAnswer, hn]
      rw [hnow]
      have hex : exceeds t w0 s.params.expTimeoutMs = false := decide_eq_false (Nat.not_lt.2 htt)
      rw [hex, if_neg (by simp)]
      rw [ih ts (now (request .busAvail {s with env.availIn := ns ++ n :: avail})) (by simp [now, request, Env.afterNow,
          hn]) (by simp [now, request, Env.afterNow, hn]) (by simpa using hl) (fun m hm => h2 m (by simp [hm]))
          (fun t ht' => ht t (by simp [ht'])) hx]
      simp [now, request, Env.afterNow, hn, List.replicate_succ']

theorem afterNow_fields (e : Env) : e.afterNow = { e with nowIn := e.afterNow.nowIn, draws := e.afterNow.draws } := by
  unfold Env.afterNow; split <;> rfl

theorem afterByte_fields (e : Env) : e.afterByte = { e with byteIn := e.afterByte.byteIn, draws := e.afterByte.draws } := by
  unfold Env.afterByte; split <;> rfl

/-- Only the result of the read, the trace and the answers of the bus and the clock differ. -/
def BusOnly (s t : State) : Prop :=
  t = { s with call.read := t.call.read, out := t.out,
               env := { t.env with pinIn := s.env.pinIn, endIn := s.env.endIn, pins := s.env.pins } }

theorem BusOnly.trans {s t u : State} (h : BusOnly s t) (h' : BusOnly t u) : BusOnly s u := by
  unfold BusOnly at *
  have e1 : t.env.pinIn = s.env.pinIn := by rw [h]
  have e2 : t.env.endIn = s.env.endIn := by rw [h]
  have e3 : t.env.pins = s.env.pins := by rw [h]
  rw [h', e1, e2, e3]
  conv_lhs => rw [h]

theorem request_busOnly (r : Request) (s : State) : BusOnly s (request r s) := rfl

theorem now_busOnly (s : State) : BusOnly s (now s) := by unfold BusOnly now request; simp only []; rw [afterNow_fields]

theorem busRead_busOnly (s : State) : BusOnly s (busRead s)
    := by unfold BusOnly busRead request; simp only []; rw [afterByte_fields]

theorem takeBytes_busOnly (s : State) : BusOnly s (takeBytes s) := by
  have := (busRead_busOnly s).trans (busRead_busOnly (busRead s))
  refine this.trans ?_
  rfl

/-- Whatever the environment answers, the wait ends with data or with a time-out of 0 or 1 bytes. -/
theorem waitData_ends (w0 : Word) (avail : List Byte) (s : State) :
    ((∃ b0 b1, (waitData w0 avail s).call.read = .ok b0 b1) ∨ ∃ n, (waitData w0 avail s).call.read = .timeout n ∧
        n.toNat < 2) ∧
     BusOnly s (waitData w0 avail s) := by
  induction avail generalizing s with
  | nil =>
    simp only [waitData]
    split
    · exact ⟨.inl ⟨_, _, rfl⟩, BusOnly.trans (t := request .busAvail { s with env.draws := s.env.draws + 1 })
          rfl (takeBytes_busOnly _)⟩
    · refine ⟨.inr ⟨_, rfl, ?_⟩, rfl⟩
      split <;> decide
  | cons n rest ih =>
    simp only [waitData]
    split
    · exact ⟨.inl ⟨_, _, rfl⟩, BusOnly.trans (t := request .busAvail { s with env.availIn := rest })
          rfl (takeBytes_busOnly _)⟩
    · have h1 : BusOnly s (now (request .busAvail { s with env.availIn := rest }))
          := BusOnly.trans (t := request .busAvail { s with env.availIn := rest }) rfl (now_busOnly _)
      split
      · exact ⟨.inr ⟨_, rfl, by omega⟩, h1.trans rfl⟩
      · obtain ⟨a, b⟩ := ih (now (request .busAvail { s with env.availIn := rest }))
        exact ⟨a, h1.trans b⟩

end Sys2Proof.Machine
end

