-- ==== Sys2Proof/Laws/Step.lean ====
section
/-! SUPPORT. What one step can do, said once: the engine's turn, the tasks, and the cases of a step. -/

namespace Sys2Proof.Machine

open Sys2Proof.Safety

@[simp] theorem runMove_settled (s : State) : runMove (.settled s) = .next s := rfl
@[simp] theorem runMove_fetch (f : Fmt) (w : BitVec 64) (s : State) : runMove (.fetch f w s) = runWord f w s := rfl

/-- A word that decodes is run. -/
theorem runWord_ok {f : Fmt} {w : BitVec 64} {i : Instr} (hd : decode f w = .ok i) (s : State) : runWord f w s = exec i s := by
  rw [runWord, hd]

/-- Where it is the engine's turn and no record waits, the next move is the engine's. -/
theorem nextMove_engine {s s' : State} (h : EngineTurn s s') (he : s.evt = none) : nextMove s = engineMove s' := by
  rcases h with ⟨h, rfl⟩ | ⟨r, h, rfl⟩ | ⟨r, h, -, hb, rfl⟩
  · simp [nextMove, h]
  · simp [nextMove, h]
  · rcases hb with hb | hb <;> simp [nextMove, h, State.answersHost, he, hb]

/-- The engine's turn takes an action of the host at most. -/
theorem engineTurn_fields {s s' : State} (h : EngineTurn s s') : s' = { s with host := s'.host } := by
  rcases h with ⟨h, rfl⟩ | ⟨r, h, rfl⟩ | ⟨r, h, -, hb, rfl⟩ <;> rfl

/-- The engine's turn while a record waits: nothing happens. -/
theorem nextMove_stalled {s s' : State} (h : EngineTurn s s') (he : s.evt ≠ none) : nextMove s = .settled s' := by
  have hs : s.evt.isSome = true := by
    cases h' : s.evt with
    | none => exact absurd h' he
    | some _ => rfl
  rcases h with ⟨h, rfl⟩ | ⟨r, h, rfl⟩ | ⟨r, h, hn, hb, rfl⟩
  · simp [nextMove, h, engineMove, hs]
  · simp [nextMove, h, engineMove, hs]
  · exact absurd hn he

/-- A step with a command word from the host. -/
theorem step_command {s : State} {w : BitVec 64} {h : List HostAct} (hh : s.host = .cmd w :: h) :
    step s = runWord .cmd64 w { s with host := h } := by
  rw [step, nextMove, hh]
  rfl

/-- A step in the engine's turn: the first task of its work list. -/
theorem step_task {s s' : State} {k : Task} {rest : List Task} (h : EngineTurn s s') (he : s.evt = none)
    (hl : s.todo = k :: rest) : step s = runMove (taskMove k { s' with todo := rest }) := by
  have hf := engineTurn_fields h
  have e1 : s'.evt = none := by rw [hf]; exact he
  have e2 : s'.todo = k :: rest := by rw [hf]; exact hl
  rw [step, nextMove_engine h he, engineMove, e1, e2]
  rfl

/-- The state in which an operation of the work list runs: the task is taken, `ix` and `phase` are loaded. -/
def loaded (f : Fmt) (w : BitVec 64) (item : Option Byte) (rest : List Task) (s : State) : State :=
  loadSequencer f w item { s with todo := rest }

/-- What the engine does with a task that holds no word. -/
def settleTask (t : Task) (s : State) : State :=
  match t with
  | .op _ _ _      => s
  | .matCols n     => matDebFrom n s
  | .expLanes n    => expDebFrom n s
  | .commitRest    => commitRest s
  | .afterGate     => { s with todo := (if s.call.skip then skipTasks else pollTasks s) ++ s.todo }
  | .afterValidate => if s.call.valid then { s with todo := beginTasks s ++ s.todo } else respond .error 0#32 (goIdle s)
  | .beginEnd      =>
    respond .ok 0#32 (goIdle { s with psMode := false, activity := false, tActivity := s.tCycle, initialized := true })
  | .cycleEnd      => respond .ok 0#32 (goIdle s)

/-! ## `rst` during a move -/

/-- A move cut short always answers a next state. -/
theorem runMove_cut (k : Nat) (m : Move) (s : State) :
    ∃ l, (∀ u, runMove m = .next u → l = (issuedBetween s u).take k) ∧
      runMove (.cut k m s) = .next (resetBlock { s with env := s.env.served false l, out := l.reverse ++ s.out }) := by
  rw [runMove]
  cases runMove m with
  | next u =>
    refine ⟨(issuedBetween s u).take k, fun v hv => ?_, rfl⟩
    cases hv
    rfl
  | fault r =>
    refine ⟨[], fun v hv => ?_, rfl⟩
    cases hv
  | refused r =>
    refine ⟨[], fun v hv => ?_, rfl⟩
    cases hv

/-- A step of a host that passes is the engine's move. -/
theorem step_pass (s : State) (h : List HostAct) :
    step { s with host := .pass :: h } = runMove (engineMove { s with host := h }) := rfl

/-- A step that `rst` cuts short always answers a next state: the block at its reset values, and of the engine's move
nothing but the first `k` things it issues (log 24). -/
theorem step_rstAfter {s : State} {k : Nat} {h : List HostAct} (hh : s.host = .rstAfter k :: h) :
    ∃ l, (∀ u, step { s with host := .pass :: h } = .next u → l = (issuedBetween s u).take k) ∧
      step s = .next (resetBlock { s with host := h, env := s.env.served false l, out := l.reverse ++ s.out }) := by
  have hs : step s = runMove (.cut k (engineMove { s with host := h }) { s with host := h }) := by
    rw [step, nextMove, hh]
  rw [hs, step_pass]
  exact runMove_cut k _ { s with host := h }

/-- The ways in which a step takes `s` to `t`. -/
inductive StepCase (s t : State) : Prop where
  /-- A command word that names a command. -/
  | command (w : BitVec 64) (h : List HostAct) (i : Instr) (hh : s.host = .cmd w :: h) (hd : decode .cmd64 w = .ok i)
      (hx : exec i { s with host := h } = .next t)
  /-- A reserved command word. -/
  | reserved (w : BitVec 64) (h : List HostAct) (r : Reject) (hh : s.host = .cmd w :: h) (hd : decode .cmd64 w = .error r)
      (ht : t = respond .error 0#32 { s with host := h })
  /-- An acknowledge. -/
  | ack (bit : Bool) (h : List HostAct) (hh : s.host = .ack bit :: h) (ht : t = { s with host := h, evt := none })
  /-- `rst`. -/
  | rst (h : List HostAct) (hh : s.host = .rst :: h) (ht : t = resetBlock { s with host := h })
  /-- `rst` during the engine's move. -/
  | cut (k : Nat) (h : List HostAct) (l : List Out) (hh : s.host = .rstAfter k :: h)
      (hl : ∀ u, step { s with host := .pass :: h } = .next u → l = (issuedBetween s u).take k)
      (ht : t = resetBlock { s with host := h, env := s.env.served false l, out := l.reverse ++ s.out })
  /-- The host has waited long enough. -/
  | waited (h : List HostAct) (hh : s.host = .await :: h) (ha : s.answersHost = true) (ht : t = { s with host := h })
  /-- The engine is stalled. -/
  | stalled (s' : State) (hs : EngineTurn s s') (he : s.evt ≠ none) (ht : t = s')
  /-- The engine runs an operation of the work list. -/
  | run (s' : State) (f : Fmt) (w : BitVec 64) (item : Option Byte) (rest : List Task) (i : Instr) (hs : EngineTurn s s')
      (he : s.evt = none) (hl : s.todo = .op f w item :: rest) (hd : decode f w = .ok i)
      (hx : exec i (loaded f w item rest s') = .next t)
  /-- The engine answers a reserved command word of its work list, which no run puts there. -/
  | odd (s' : State) (w : BitVec 64) (item : Option Byte) (rest : List Task) (r : Reject) (hs : EngineTurn s s')
      (he : s.evt = none) (hl : s.todo = .op .cmd64 w item :: rest) (hd : decode .cmd64 w = .error r)
      (ht : t = respond .error 0#32 (loaded .cmd64 w item rest s'))
  /-- The engine goes on with another task. -/
  | task (s' : State) (k : Task) (rest : List Task) (hs : EngineTurn s s') (he : s.evt = none) (hl : s.todo = k :: rest)
      (hk : ∀ f w item, k ≠ .op f w item) (ht : t = settleTask k { s' with todo := rest })
  /-- The engine takes a waiting UPDATE. -/
  | update (s' : State) (hs : EngineTurn s s') (he : s.evt = none) (hl : s.todo = []) (hu : s.updWait ≠ 0)
      (hb : s.busy = false) (hx : exec .update { s' with updWait := s.updWait - 1 } = .next t)
  /-- The engine is in U_IDLE. -/
  | idle (s' : State) (hs : EngineTurn s s') (he : s.evt = none) (hl : s.todo = []) (ht : t = s')

/-- The engine's part of `step_cases`. -/
theorem engine_cases {s s' t : State} (hs : EngineTurn s s') (hn : nextMove s = engineMove s') (h : step s = .next t) :
    StepCase s t := by
  have hf := engineTurn_fields hs
  have e1 : s'.evt = s.evt := by rw [hf]
  have e2 : s'.todo = s.todo := by rw [hf]
  have e3 : s'.updWait = s.updWait := by rw [hf]
  have e4 : s'.busy = s.busy := by rw [hf]
  by_cases he : s.evt = none
  · have e5 : s'.evt.isSome = false := by rw [e1, he]; rfl
    have hm : engineMove s' = match s.todo with
      | k :: rest => taskMove k { s' with todo := rest }
      | [] =>
        if s.updWait ≠ 0 ∧ s.busy = false then
          .fetch .cmd64 (encode .update).2 { s' with updWait := s.updWait - 1 }
        else .fetch .uop5 (encode .uIdle).2 s' := by
      unfold engineMove
      rw [e5, if_neg (by decide)]
      simp only [e2, e3, e4]
      all_goals rfl
    unfold step at h
    rw [hn, hm] at h
    cases hl : s.todo with
    | nil =>
      rw [hl] at h
      dsimp only at h
      by_cases hc : s.updWait ≠ 0 ∧ s.busy = false
      · rw [if_pos hc] at h
        have hd : decode .cmd64 (encode .update).2 = .ok .update := by decide
        simp only [runMove_fetch, runWord, hd] at h
        exact .update s' hs he hl hc.1 hc.2 h
      · rw [if_neg hc] at h
        have hd : decode .uop5 (encode .uIdle).2 = .ok .uIdle := by decide
        simp only [runMove_fetch, runWord, hd] at h
        exact .idle s' hs he hl (by simpa [exec, execUIdle] using h.symm)
    | cons k rest =>
      rw [hl] at h
      cases k with
      | op f w item =>
        simp only [taskMove, runMove_fetch, runWord] at h
        cases hd : decode f w with
        | ok i =>
          rw [hd] at h
          exact .run s' f w item rest i hs he hl hd h
        | error r =>
          rw [hd] at h
          cases f with
          | cmd64 =>
            exact .odd s' w item rest r hs he hl hd (by simpa [rejectWord, loaded] using h.symm)
          | _ => simp [rejectWord] at h
      | matCols n => exact .task s' _ rest hs he hl (by simp) (by simpa [taskMove, settleTask] using h.symm)
      | expLanes n => exact .task s' _ rest hs he hl (by simp) (by simpa [taskMove, settleTask] using h.symm)
      | commitRest => exact .task s' _ rest hs he hl (by simp) (by simpa [taskMove, settleTask] using h.symm)
      | afterGate =>
        refine .task s' _ rest hs he hl (by simp) ?_
        simp only [taskMove, runMove_settled, Host.Outcome.next.injEq] at h
        rw [← h]
        simp only [settleTask]
        split <;> rfl
      | afterValidate => exact .task s' _ rest hs he hl (by simp) (by simpa [taskMove, settleTask] using h.symm)
      | beginEnd => exact .task s' _ rest hs he hl (by simp) (by simpa [taskMove, settleTask] using h.symm)
      | cycleEnd => exact .task s' _ rest hs he hl (by simp) (by simpa [taskMove, settleTask] using h.symm)
  · refine .stalled s' hs he ?_
    rw [step, nextMove_stalled hs he] at h
    simpa using h.symm

/-- Everything a step that answers a next state can do. -/
theorem step_cases {s t : State} (h : step s = .next t) : StepCase s t := by
  have h0 := h
  unfold step nextMove at h
  cases hh : s.host with
  | nil => exact engine_cases (.inl ⟨hh, rfl⟩) (by simp [nextMove, hh]) h0
  | cons a r =>
    rw [hh] at h
    cases a with
    | cmd w =>
      simp only [runMove_fetch, runWord] at h
      cases hd : decode .cmd64 w with
      | ok i =>
        rw [hd] at h
        exact .command w r i hh hd h
      | error e =>
        rw [hd] at h
        exact .reserved w r e hh hd (by simpa [rejectWord] using h.symm)
    | ack b => exact .ack b r hh (by simpa [acknowledge] using h.symm)
    | pass => exact engine_cases (.inr (.inl ⟨r, hh, rfl⟩)) (by simp [nextMove, hh]) h0
    | await =>
      dsimp only at h
      by_cases ha : s.answersHost = true
      · rw [if_pos ha] at h
        exact .waited r hh ha (by simpa using h.symm)
      · have hb : s.evt = none ∧ (s.busy = true ∨ s.updWait ≠ 0) := by
          simp only [State.answersHost, Bool.or_eq_true, Bool.and_eq_true, not_or, not_and] at ha
          refine ⟨by cases he : s.evt <;> simp_all, ?_⟩
          cases hb : s.busy
          · right
            have := ha.2 (by simp [hb])
            simpa using this
          · exact .inl rfl
        exact engine_cases (.inr (.inr ⟨r, hh, hb.1, hb.2, rfl⟩)) (by simp [nextMove, hh, ha]) h0
    | rst => exact .rst r hh (by simpa [runMove] using h.symm)
    | rstAfter k =>
      obtain ⟨l, hl, hst⟩ := step_rstAfter hh
      rw [hst] at h0
      cases h0
      exact .cut k r l hh hl rfl

end Sys2Proof.Machine
end

