-- ==== Sys2Proof/Laws/Chain.lean ====
section
/-! SUPPORT. What a micro-operation can do, said once: it is a chain of primitive updates, so that what every primitive
update keeps, every micro-operation keeps. U_STATEINIT, U_PS_ENTER, U_PS_EXIT, U_FIN and U_VALIDATE do one thing more
each, which is said beside them. -/

namespace Sys2Proof.Machine

open Sys2Proof.Safety

/-- A word that the block may present (30_encoding.md R110). -/
def LegalRecord (w : BitVec 32) : Prop := ∃ i, decodeEvt w = .ok i ∧ i.wf = true

/-- One primitive update of the state by the engine. -/
inductive Prim (s : State) : State → Prop where
  | out (r : Request) : Prim s (request r s)
  | env (e : Env) (h : Table.wf PinDrive.reset s.env.pins = true → Table.wf PinDrive.reset e.pins = true) :
      Prim s { s with env := e }
  | call (c : Call) (h : c.valid = s.call.valid) : Prim s { s with call := c }
  | line (ref : LineRef) (l : Line) : Prim s (setLine ref l s)
  | enc (e : Byte) (x : Enc) (h1 : (s.enc e).errorCount.toNat ≤ x.errorCount.toNat)
      (h2 : (s.enc e).malReported = true → x.malReported = true)
      (h3 : ((s.enc e).valid = false → (s.enc e).malReported = true) → x.valid = false → x.malReported = true) :
      Prim s (setEnc e x s)
  | exp (d : Byte) (x : Exp) : Prim s (setExp d x s)
  | latch (c : Nat) (l : Level) : Prim s (setColLatch c l s)
  | word (w : BitVec 16) (ok : Bool) : Prim s { s with expWord := w, expOk := ok }
  | jx (j : Byte) : Prim s { s with jx := j }
  | active : Prim s { s with activity := true }
  | present (w : BitVec 32) (h : LegalRecord w) : Prim s (present w s)
  | slot (k : FaultKind) (src cause : Byte) (n : Bool) :
      Prim s { s with errKind := k.toErr, errSrc := src, errCause := cause, errNotified := n }
  | push (t : Task) (h : Safety.Inner t) : Prim s (pushTask t s)

/-- Any number of primitive updates. -/
def Chain (s t : State) : Prop := Relation.ReflTransGen Prim s t

theorem Chain.refl (s : State) : Chain s s := Relation.ReflTransGen.refl
theorem Chain.trans {s t u : State} (h : Chain s t) (h' : Chain t u) : Chain s u := Relation.ReflTransGen.trans h h'
theorem Chain.one {s t : State} (h : Prim s t) : Chain s t := Relation.ReflTransGen.single h

/-- What every primitive update keeps, a chain keeps. -/
theorem Chain.keeps {P : State → Prop} (hp : ∀ s t, P s → Prim s t → P t) {s t : State} (h : Chain s t) (hs : P s) :
    P t := by
  induction h with
  | refl => exact hs
  | tail _ h2 ih => exact hp _ _ ih h2

/-- A view that no primitive update changes, no chain changes. -/
theorem Chain.view {β : Type} (v : State → β) (hv : ∀ s t, Prim s t → v t = v s) {s t : State} (h : Chain s t) :
    v t = v s :=
  Chain.keeps (P := fun u => v u = v s) (fun _ _ h1 h2 => (hv _ _ h2).trans h1) h rfl

/-! ## What no primitive update changes -/

theorem Prim.params {s t : State} (h : Prim s t) : t.params = s.params := by
  cases h with
  | line ref l => cases ref <;> rfl
  | _ => rfl
theorem Prim.cfg {s t : State} (h : Prim s t) : t.cfg = s.cfg := by
  cases h with
  | line ref l => cases ref <;> rfl
  | _ => rfl
theorem Prim.phase {s t : State} (h : Prim s t) : t.phase = s.phase := by
  cases h with
  | line ref l => cases ref <;> rfl
  | _ => rfl
theorem Prim.ix {s t : State} (h : Prim s t) : t.ix = s.ix := by
  cases h with
  | line ref l => cases ref <;> rfl
  | _ => rfl
theorem Prim.initialized {s t : State} (h : Prim s t) : t.initialized = s.initialized := by
  cases h with
  | line ref l => cases ref <;> rfl
  | _ => rfl
theorem Prim.busy {s t : State} (h : Prim s t) : t.busy = s.busy := by
  cases h with
  | line ref l => cases ref <;> rfl
  | _ => rfl
theorem Prim.psMode {s t : State} (h : Prim s t) : t.psMode = s.psMode := by
  cases h with
  | line ref l => cases ref <;> rfl
  | _ => rfl
theorem Prim.tCycle {s t : State} (h : Prim s t) : t.tCycle = s.tCycle := by
  cases h with
  | line ref l => cases ref <;> rfl
  | _ => rfl
theorem Prim.updWait {s t : State} (h : Prim s t) : t.updWait = s.updWait := by
  cases h with
  | line ref l => cases ref <;> rfl
  | _ => rfl
theorem Prim.host {s t : State} (h : Prim s t) : t.host = s.host := by
  cases h with
  | line ref l => cases ref <;> rfl
  | _ => rfl
theorem Prim.valid {s t : State} (h : Prim s t) : t.call.valid = s.call.valid := by
  cases h with
  | line ref l => cases ref <;> rfl
  | call c h => exact h
  | _ => rfl

theorem Chain.params {s t : State} (h : Chain s t) : t.params = s.params := Chain.view State.params
    (fun _ _ => Prim.params) h
theorem Chain.cfg {s t : State} (h : Chain s t) : t.cfg = s.cfg := Chain.view State.cfg (fun _ _ => Prim.cfg) h
theorem Chain.phase {s t : State} (h : Chain s t) : t.phase = s.phase := Chain.view State.phase (fun _ _ => Prim.phase) h
theorem Chain.ix {s t : State} (h : Chain s t) : t.ix = s.ix := Chain.view State.ix (fun _ _ => Prim.ix) h
theorem Chain.initialized {s t : State} (h : Chain s t) : t.initialized = s.initialized :=
  Chain.view State.initialized (fun _ _ => Prim.initialized) h
theorem Chain.busy {s t : State} (h : Chain s t) : t.busy = s.busy := Chain.view State.busy (fun _ _ => Prim.busy) h
theorem Chain.psMode {s t : State} (h : Chain s t) : t.psMode = s.psMode := Chain.view State.psMode
    (fun _ _ => Prim.psMode) h
theorem Chain.tCycle {s t : State} (h : Chain s t) : t.tCycle = s.tCycle := Chain.view State.tCycle
    (fun _ _ => Prim.tCycle) h
theorem Chain.updWait {s t : State} (h : Chain s t) : t.updWait = s.updWait :=
  Chain.view State.updWait (fun _ _ => Prim.updWait) h
theorem Chain.host {s t : State} (h : Chain s t) : t.host = s.host := Chain.view State.host (fun _ _ => Prim.host) h
theorem Chain.valid {s t : State} (h : Chain s t) : t.call.valid = s.call.valid :=
  Chain.view (fun u => u.call.valid) (fun _ _ => Prim.valid) h

/-- A chain puts micro-operations in front of the work list at most. -/
theorem Chain.todo {s t : State} (h : Chain s t) : ∃ pre, t.todo = pre ++ s.todo ∧ ∀ k ∈ pre, Safety.Inner k := by
  refine Chain.keeps (P := fun u => ∃ pre, u.todo = pre ++ s.todo ∧ ∀ k ∈ pre, Safety.Inner k) ?_ h
    ⟨[], rfl, fun _ hk => by cases hk⟩
  rintro u v ⟨pre, h1, h2⟩ hp
  cases hp with
  | line ref l =>
    refine ⟨pre, ?_, h2⟩
    rw [← h1]
    cases ref <;> rfl
  | push k hk =>
    refine ⟨k :: pre, ?_, ?_⟩
    · simp [pushTask, h1]
    · intro k' hk'
      rcases List.mem_cons.1 hk' with rfl | hk'
      · exact hk
      · exact h2 _ hk'
  | _ => exact ⟨pre, h1, h2⟩

/-- A chain returns no response. -/
theorem Chain.responses {s t : State} (h : Chain s t) : responses t.out = responses s.out := by
  refine Chain.view (fun u => Safety.responses u.out) ?_ h
  intro u v hp
  cases hp with
  | line ref l => cases ref <;> rfl
  | _ => rfl

/-- A chain keeps the canonical forms. -/
theorem Chain.canonical {s t : State} (h : Chain s t) (hs : Canonical s) : Canonical t := by
  refine Chain.keeps (P := Canonical) ?_ h hs
  rintro u v ⟨h1, h2, h3, h4, h5, h6, h7⟩ hp
  cases hp with
  | line ref l =>
    cases ref with
    | cell r c => exact ⟨Table.wf_put _ _ _ _ h1, h2, h3, h4, h5, h6, h7⟩
    | gpio i => exact ⟨h1, Table.wf_put _ _ _ _ h2, h3, h4, h5, h6, h7⟩
    | encBtn e => exact ⟨h1, h2, Table.wf_put _ _ _ _ h3, h4, h5, h6, h7⟩
    | expLane d b => exact ⟨h1, h2, h3, Table.wf_put _ _ _ _ h4, h5, h6, h7⟩
  | enc e x => exact ⟨h1, h2, Table.wf_put _ _ _ _ h3, h4, h5, h6, h7⟩
  | exp d x => exact ⟨h1, h2, h3, Table.wf_put _ _ _ _ h4, h5, h6, h7⟩
  | latch c l => exact ⟨h1, h2, h3, h4, Table.wf_put _ _ _ _ h5, h6, h7⟩
  | env e h => exact ⟨h1, h2, h3, h4, h5, h h6, h7⟩
  | _ => exact ⟨h1, h2, h3, h4, h5, h6, h7⟩

/-- A chain keeps the last-error slot legal. -/
theorem Chain.slotLegal {s t : State} (h : Chain s t) (hs : SlotLegal s) : SlotLegal t := by
  refine Chain.keeps (P := SlotLegal) ?_ h hs
  intro u v hu hp
  cases hp with
  | line ref l => cases ref <;> exact hu
  | slot k src cause n => exact ⟨by cases k <;> simp [FaultKind.toErr],
        fun hk => by cases k <;> simp [FaultKind.toErr] at hk⟩
  | _ => exact hu

/-- A chain keeps the pending record legal. -/
theorem Chain.recordLegal {s t : State} (h : Chain s t) (hs : RecordLegal s) : RecordLegal t := by
  refine Chain.keeps (P := RecordLegal) ?_ h hs
  intro u v hu hp
  cases hp with
  | line ref l => cases ref <;> exact hu
  | present w hw =>
    intro w' hw'
    cases hw'
    exact hw
  | _ => exact hu

/-- Writing a line keeps the encoder records but for their buttons. -/
theorem setLine_encKeeps (s : State) (ref : LineRef) (l : Line) (e : Byte) :
    ((setLine ref l s).enc e).errorCount = (s.enc e).errorCount ∧
    ((setLine ref l s).enc e).malReported = (s.enc e).malReported ∧ ((setLine ref l s).enc e).valid = (s.enc e).valid := by
  rw [enc_setLine]
  exact ⟨rfl, rfl, rfl⟩

/-- A chain keeps every malfunction latched. -/
theorem Chain.malfunctionLatched {s t : State} (h : Chain s t) (hs : MalfunctionLatched s) : MalfunctionLatched t := by
  refine Chain.keeps (P := MalfunctionLatched) ?_ h hs
  intro u v hu hp
  cases hp with
  | line ref l =>
    intro e
    obtain ⟨-, h2, h3⟩ := setLine_encKeeps u ref l e
    rw [h2, h3]
    exact hu e
  | enc e x h1 h2 h3 =>
    intro k hk
    rw [enc_setEnc] at hk ⊢
    split
    · rename_i he
      rw [if_pos he] at hk
      exact h3 (hu e) hk
    · rename_i he
      rw [if_neg he] at hk
      exact hu k hk
  | _ => exact hu

/-- A chain lowers no error counter and clears no malfunction latch. -/
theorem Chain.counters {s t : State} (h : Chain s t) (e : Byte) :
    (s.enc e).errorCount.toNat ≤ (t.enc e).errorCount.toNat ∧
    ((s.enc e).malReported = true → (t.enc e).malReported = true) := by
  refine Chain.keeps (P := fun u => (s.enc e).errorCount.toNat ≤ (u.enc e).errorCount.toNat ∧
    ((s.enc e).malReported = true → (u.enc e).malReported = true)) ?_ h ⟨Nat.le_refl _, id⟩
  intro u v hu hp
  cases hp with
  | line ref l =>
    obtain ⟨h1, h2, -⟩ := setLine_encKeeps u ref l e
    rw [h1, h2]
    exact hu
  | enc k x h1 h2 h3 =>
    rw [enc_setEnc]
    split
    · rename_i he
      subst he
      exact ⟨Nat.le_trans hu.1 h1, fun h => h2 (hu.2 h)⟩
    · exact hu
  | _ => exact hu

/-! ## The shared operations are chains -/

theorem chain_request (r : Request) (s : State) : Chain s (request r s) := .one (.out r)

theorem chain_env (e : Env) (s : State) (h : e.pins = s.env.pins) : Chain s { s with env := e } :=
  .one (.env e (by rw [h]; exact id))

theorem chain_pinRead (p : Byte) (s : State) : Chain s (pinRead p s) :=
  (chain_env _ s (afterPin_pins _)).trans (chain_request _ _)

theorem chain_pinMode (p : Byte) (m : PinMode) (s : State) : Chain s (pinMode p m s) :=
  (Chain.one (.env { s.env with pins := Table.put PinDrive.reset s.env.pins p.toNat { s.pin p with mode := some m } }
    (fun h => Table.wf_put PinDrive.reset s.env.pins p.toNat { s.pin p with mode := some m } h))).trans (chain_request _ _)

theorem chain_pinWrite (p : Byte) (l : Level) (s : State) : Chain s (pinWrite p l s) :=
  (Chain.one (.env { s.env with pins := Table.put PinDrive.reset s.env.pins p.toNat { s.pin p with level := some l } }
    (fun h => Table.wf_put PinDrive.reset s.env.pins p.toNat { s.pin p with level := some l } h))).trans (chain_request _ _)

theorem chain_now (s : State) : Chain s (now s) :=
  (chain_env _ s (afterNow_pins _)).trans (chain_request _ _)

theorem chain_busRead (s : State) : Chain s (busRead s) :=
  (chain_env _ s (afterByte_pins _)).trans (chain_request _ _)

theorem chain_busEnd (s : State) : Chain s (busEnd s) :=
  ((chain_env _ s (afterEnd_pins _)).trans (.one (.call { s.call with status := s.env.endAnswer 0 } rfl))).trans
    (chain_request _ _)

theorem chain_forAsc (f : Nat → State → State) (hf : ∀ k s, Chain s (f k s)) (n : Nat) (s : State) :
    Chain s (forAsc n f s) :=
  forAsc_induct (Chain s) f (fun k t h => h.trans (hf k t)) n s (.refl s)

theorem chain_takeBytes (s : State) : Chain s (takeBytes s) :=
  ((chain_busRead s).trans (chain_busRead _)).trans (.one (.call _ rfl))

theorem chain_waitData (w0 : Word) (avail : List Byte) (s : State) : Chain s (waitData w0 avail s) := by
  induction avail generalizing s with
  | nil =>
    have h1 : Chain s (request .busAvail { s with env.draws := s.env.draws + 1 }) :=
      (chain_env { s.env with draws := s.env.draws + 1 } s rfl).trans (chain_request _ _)
    simp only [waitData]
    split
    · exact h1.trans (chain_takeBytes _)
    · exact (h1.trans (chain_request .now _)).trans (.one (.call _ rfl))
  | cons n rest ih =>
    have h1 : Chain s (request .busAvail { s with env.availIn := rest }) :=
      (chain_env { s.env with availIn := rest } s rfl).trans (chain_request _ _)
    simp only [waitData]
    split
    · exact h1.trans (chain_takeBytes _)
    · have h2 := h1.trans (chain_now _)
      split
      · exact h2.trans (.one (.call _ rfl))
      · exact h2.trans (ih _)

theorem chain_writeRegFrame (a : BitVec 7) (r v : Byte) (s : State) : Chain s (writeRegFrame a r v s) :=
  (((chain_request _ s).trans (chain_request _ _)).trans (chain_request _ _)).trans (chain_busEnd _)

theorem chain_setPointerFrame (a : BitVec 7) (r : Byte) (s : State) : Chain s (setPointerFrame a r s) :=
  ((chain_request _ s).trans (chain_request _ _)).trans (chain_busEnd _)

theorem chain_read2Frame (a : BitVec 7) (s : State) : Chain s (read2Frame a s) :=
  ((chain_request _ s).trans (chain_now _)).trans (chain_waitData _ _ _)

theorem chain_callEmit (ch : Channel) (a b : Byte) (v : BitVec 4) (s : State) (h : LegalRecord (s.recordOf ch a b v)) :
    Chain s (callEmit ch a b v s) := by
  have h1 : Chain s { s with call.channel := ch, call.evA := a, call.evB := b, call.evV := v } := .one (.call _ rfl)
  rw [callEmit_eq]
  split
  · exact h1.trans (.one (.present _ h))
  · exact h1

theorem decodeEvt_evtWord (ch : BitVec 4) (p a b : Byte) (v : BitVec 4) :
    (evtWord ch p a b v).extractLsb' 28 4 = ch ∧ (evtWord ch p a b v).extractLsb' 20 8 = p ∧
    (evtWord ch p a b v).extractLsb' 12 8 = a ∧ (evtWord ch p a b v).extractLsb' 4 8 = b ∧
    (evtWord ch p a b v).extractLsb' 0 4 = v := by
  refine ⟨?_, ?_, ?_, ?_, ?_⟩ <;>
  · apply BitVec.eq_of_getLsbD_eq
    intro k hk
    simp only [evtWord, BitVec.getLsbD_extractLsb', BitVec.getLsbD_append, hk, decide_true, Bool.true_and]
    repeat' split
    all_goals first
      | omega
      | (congr 1; omega)

theorem legal_toggle (s : State) (ch : Channel) (a b : Byte) (x : Bool)
    (h : ch = .matrix ∨ (ch = .gpio ∧ b = 0#8) ∨ (ch = .encButton ∧ b = 0#8) ∨ (ch = .expander ∧ b.toNat < 16)) :
    LegalRecord (s.recordOf ch a b (toggleCode x)) := by
  have ht : toggleValue (toggleCode x) = true := by cases x <;> decide
  unfold LegalRecord State.recordOf decodeEvt
  obtain ⟨e1, e2, e3, e4, e5⟩ := decodeEvt_evtWord ch.code (if ch = .error then 0#8 else s.cfg.activeProfile)
      a b (toggleCode x)
  rw [e1, e2, e3, e4, e5]
  rcases h with rfl | ⟨rfl, rfl⟩ | ⟨rfl, rfl⟩ | ⟨rfl, hb⟩
  · exact ⟨_, rfl, ht⟩
  · exact ⟨_, rfl, by simpa [Instr.wf] using ht⟩
  · exact ⟨_, rfl, by simpa [Instr.wf] using ht⟩
  · exact ⟨_, rfl, by simp [Instr.wf, ht, hb]⟩

theorem legal_rotate (s : State) (e : Byte) {d : Dir} (h : d ≠ .none) :
    LegalRecord (s.recordOf .encRotate e 0#8 (rotateCode d)) := by
  have ht : rotateValue (rotateCode d) = true := by cases d <;> first | decide | exact absurd rfl h
  unfold LegalRecord State.recordOf decodeEvt
  obtain ⟨e1, e2, e3, e4, e5⟩ :=
    decodeEvt_evtWord Channel.encRotate.code (if Channel.encRotate = .error then 0#8 else s.cfg.activeProfile)
        e 0#8 (rotateCode d)
  rw [e1, e2, e3, e4, e5]
  exact ⟨_, rfl, by simpa [Instr.wf] using ht⟩

theorem legal_error (s : State) (k : FaultKind) (src cause : Byte) :
    LegalRecord (s.recordOf .error src cause (errorCode k)) := by
  have ht : errorValue (errorCode k) = true := by cases k <;> decide
  unfold LegalRecord State.recordOf decodeEvt
  obtain ⟨e1, e2, e3, e4, e5⟩ :=
    decodeEvt_evtWord Channel.error.code (if Channel.error = .error then 0#8 else s.cfg.activeProfile)
        src cause (errorCode k)
  rw [e1, e2, e3, e4, e5]
  exact ⟨_, rfl, by simpa [Instr.wf] using ht⟩

theorem chain_callRaise (k : FaultKind) (src cause : Byte) (s : State) : Chain s (callRaise k src cause s) := by
  have h1 : Chain s { s with call.kind := k, call.src := src, call.cause := cause } := .one (.call _ rfl)
  unfold callRaise raiseOp
  dsimp only
  split
  · exact (h1.trans (.one (.slot k src cause _))).trans (chain_callEmit _ _ _ _ _ (legal_error _ _ _ _))
  · split
    · exact h1.trans (.one (.slot k src cause _))
    · exact (h1.trans (.one (.slot k src cause true))).trans (chain_callEmit _ _ _ _ _ (legal_error _ _ _ _))

theorem chain_callDebounce (ref : LineRef) (r : Bool) (s : State) : Chain s (callDebounce ref r s) := by
  rw [callDebounce_eq]
  exact (Chain.one (.call { s.call with
    line := ref, raw := r, toggled := (debounceLine (s.line ref) r s.tCycle s.cfg.debounceMs).2 } rfl)).trans
    (.one (.line _ _))

theorem chain_pollLine (ref : LineRef) (r : Bool) (ch : Channel) (a b : Byte) (s : State)
    (h : ch = .matrix ∨ (ch = .gpio ∧ b = 0#8) ∨ (ch = .encButton ∧ b = 0#8) ∨ (ch = .expander ∧ b.toNat < 16)) :
    Chain s (pollLine ref r ch a b s) := by
  have h1 := chain_callDebounce ref r s
  unfold pollLine
  dsimp only
  split
  · exact (h1.trans (.one .active)).trans (chain_callEmit _ _ _ _ _ (legal_toggle _ _ _ _ _ h))
  · exact h1

/-! ## The micro-operations are chains -/

theorem chain_driveRowInactive (s : State) (r : Nat) : Chain s (driveRowInactive s r) :=
  (chain_pinMode _ _ s).trans (chain_pinWrite _ _ _)

theorem chain_pinInit (s : State) : Chain s (pinInit s) := by
  unfold pinInit
  refine (((chain_forAsc _ (fun k t => chain_driveRowInactive t k) _ s).trans
    (chain_forAsc _ (fun k t => chain_pinMode _ _ t) _ _)).trans
    (chain_forAsc _ (fun k t => chain_pinMode _ _ t) _ _)).trans (chain_forAsc _ (fun k t => ?_) _ _)
  have h := (chain_pinMode (t.cfg.encPinAAt (BitVec.ofNat 8 k)) .inputPullup t).trans
    (chain_pinMode (t.cfg.encPinBAt (BitVec.ofNat 8 k)) .inputPullup _)
  dsimp only
  split
  · exact h
  · exact h.trans (chain_pinMode _ _ _)

theorem chain_expInitWrites (d : Byte) (x : ExpCfg) (l : List InitWrite) (s : State) :
    Chain s (expInitWrites d x l s) := by
  induction l generalizing s with
  | nil => exact .refl s
  | cons w rest ih =>
    have h := chain_writeRegFrame x.addr w.reg w.value s
    unfold expInitWrites
    split
    · dsimp only
      split
      · exact h.trans (ih _)
      · exact h.trans (chain_callRaise _ _ _ _)
    · exact ih s

theorem chain_expRead (s : State) : Chain s (expRead s) := by
  have h : Chain s (setPointerFrame (s.cfg.expCfgAt s.ix).addr s.params.expRegs.gpioa { s with expOk := false }) :=
    (Chain.one (.word s.expWord false)).trans (chain_setPointerFrame _ _ _)
  unfold expRead
  dsimp only
  split
  · have h' := h.trans (chain_read2Frame (s.cfg.expCfgAt s.ix).addr _)
    split
    · exact h'.trans (chain_callRaise _ _ _ _)
    · exact h'.trans (.one (.word _ _))
  · exact h.trans (chain_callRaise _ _ _ _)

theorem chain_expDebFrom (n : Nat) (s : State) : Chain s (expDebFrom n s) := by
  induction n generalizing s with
  | zero => exact .refl s
  | succ n ih =>
    have hb : (BitVec.ofNat 8 (16 - (n + 1)) : Byte).toNat < 16 := by simp; omega
    have h := (Chain.one (Prim.jx (s := s) (BitVec.ofNat 8 (16 - (n + 1))))).trans
      (chain_pollLine (.expLane s.ix (BitVec.ofNat 4 (16 - (n + 1)))) (!s.expWord.getLsbD (16 - (n + 1))) .expander s.ix
        (BitVec.ofNat 8 (16 - (n + 1))) _ (.inr (.inr (.inr ⟨rfl, hb⟩))))
    unfold expDebFrom
    dsimp only
    split
    · exact h.trans (.one (.push _ trivial))
    · exact h.trans (ih _)

theorem chain_matRow (s : State) : Chain s (matRow s) := by
  unfold matRow
  refine (((chain_pinWrite _ _ s).trans (chain_request _ _)).trans
    (chain_forAsc _ (fun k t => ?_) _ _)).trans (chain_pinWrite _ _ _)
  exact (chain_pinRead _ t).trans (.one (.latch _ _))

theorem chain_matDebFrom (n : Nat) (s : State) : Chain s (matDebFrom n s) := by
  induction n generalizing s with
  | zero => exact .refl s
  | succ n ih =>
    have h := (Chain.one (Prim.jx (s := s) (BitVec.ofNat 8 (s.cfg.numCols.toNat - (n + 1))))).trans
      (chain_pollLine (.cell s.ix (BitVec.ofNat 8 (s.cfg.numCols.toNat - (n + 1))))
        (!s.latchedLevel (s.cfg.numCols.toNat - (n + 1))) .matrix s.ix
        (BitVec.ofNat 8 (s.cfg.numCols.toNat - (n + 1))) _ (.inl rfl))
    unfold matDebFrom
    dsimp only
    split
    · exact h.trans (.one (.push _ trivial))
    · exact h.trans (ih _)

theorem chain_commitRest (s : State) : Chain s (commitRest s) := by
  have hr : ∀ ok : Bool, ok = underThreshold s.params (s.enc s.ix).errorCount → commitRest s =
      if (!ok && !(s.enc s.ix).malReported) = true then
        callRaise .encoderMalfunction s.ix 0#8 (setEnc s.ix { s.enc s.ix with valid := ok, malReported := true } s)
      else setEnc s.ix { s.enc s.ix with valid := ok } s := by
    rintro ok rfl
    rfl
  generalize underThreshold s.params (s.enc s.ix).errorCount = ok at hr
  rw [hr ok rfl]
  by_cases h : (!ok && !(s.enc s.ix).malReported) = true
  · rw [if_pos h]
    exact (Chain.one (Prim.enc (s := s) s.ix { s.enc s.ix with valid := ok, malReported := true } (Nat.le_refl _)
      (fun _ => rfl) (fun _ _ => rfl))).trans (chain_callRaise _ _ _ _)
  · rw [if_neg h]
    refine .one (Prim.enc (s := s) s.ix { s.enc s.ix with valid := ok } (Nat.le_refl _) id (fun _ hv => ?_))
    have hv' : ok = false := hv
    show (s.enc s.ix).malReported = true
    rw [hv'] at h
    simpa using h

theorem chain_commit {d : Dir} (hd : d ≠ .none) (s : State) : Chain s (commit d s) := by
  have h1 := (Chain.one (Prim.enc (s := s) s.ix
    { s.enc s.ix with
      position := movePosition (s.enc s.ix).position d (positionStep (s.cfg.encDivisorAt s.ix))
      lastDir := d, pendingDir := .none } (Nat.le_refl _) id id)).trans (.one .active)
  have h2 := h1.trans (chain_callEmit .encRotate s.ix 0#8 (rotateCode d) _ (legal_rotate _ _ hd))
  unfold commit
  dsimp only
  split
  · exact h2.trans (.one (.push _ trivial))
  · exact h2.trans (chain_commitRest _)

theorem bumpErrors_ge (n : Word) : n.toNat ≤ (bumpErrors n).toNat := by
  have := n.isLt
  unfold bumpErrors
  rw [BitVec.toNat_ofNat, Nat.mod_eq_of_lt (by omega)]
  omega

/-- A legal transition has a direction. -/
theorem classify_legal {last cur : BitVec 2} {d : Dir} (h : classify last cur = .legal d) : d ≠ .none := by
  rintro rfl
  revert h
  revert last cur
  decide

theorem chain_encStep (s : State) : Chain s (encStep s) := by
  unfold encStep
  dsimp only
  split
  · exact .refl s
  · have h := (chain_pinRead (s.cfg.encPinAAt s.ix) s).trans (chain_pinRead (s.cfg.encPinBAt s.ix) _)
    split
    · refine h.trans (.one (.enc _ _ ?_ ?_ ?_)) <;>
      · unfold speedIdle
        split <;> first | exact Nat.le_refl _ | exact id
    · exact h.trans (.one (.enc _ _ (bumpErrors_ge _) id id))
    · rename_i d hd
      have h' := h.trans (.one (.enc s.ix { acceptChange s.tCycle
        (encState (s.env.pinAnswer 0) ((pinRead (s.cfg.encPinAAt s.ix) s).env.pinAnswer 0)) (s.enc s.ix) with
        pendingDir := d } (Nat.le_refl _) id id))
      split
      · exact h'.trans (chain_commit (classify_legal hd) _)
      · exact h'

end Sys2Proof.Machine
end

