-- ==== Sys2Proof/Laws/Encoder.lean ====
section
/-! SUPPORT. U_ENC_STEP in the terms of Safety.lean: the gate, the classification, the record after a state change, and
the two forms of a commit. -/

namespace Sys2Proof.Machine

open Sys2Proof.Safety

/-- One encoder record is written. -/
theorem setEnc_becomes (e : Byte) (x : Enc) (s : State) : EncBecomes e x s (setEnc e x s) :=
  ⟨by simp, fun k hk => by simp [hk], rfl⟩

/-- The classification (44_quadrature.md R175) in the terms of `QuarterStep`. -/
theorem classify_cases (last cur : BitVec 2) :
    (classify last cur = .same ∧ last = cur) ∨
    (classify last cur = .illegal ∧ last ≠ cur ∧ ∀ d, ¬ QuarterStep d last cur) ∨
    (∃ d, classify last cur = .legal d ∧ last ≠ cur ∧ ∀ d', QuarterStep d' last cur ↔ d' = d) := by
  have h1 : last = 0#2 ∨ last = 1#2 ∨ last = 2#2 ∨ last = 3#2 := by revert last; decide
  have h2 : cur = 0#2 ∨ cur = 1#2 ∨ cur = 2#2 ∨ cur = 3#2 := by revert cur; decide
  rcases h1 with rfl | rfl | rfl | rfl <;> rcases h2 with rfl | rfl | rfl | rfl <;>
   first
   | exact .inl ⟨rfl, rfl⟩
   | (refine .inr (.inl ⟨rfl, by decide, fun d => ?_⟩); cases d <;> simp [QuarterStep, Clockwise])
   | (refine .inr (.inr ⟨_, rfl, by decide, fun d => ?_⟩); cases d <;> simp [QuarterStep, Clockwise])

/-- A quarter-step changes the state, and has a direction. -/
theorem quarterStep_ne {d : Dir} {last cur : BitVec 2} (h : QuarterStep d last cur) : last ≠ cur := by
  rintro rfl
  revert h
  have h1 : last = 0#2 ∨ last = 1#2 ∨ last = 2#2 ∨ last = 3#2 := by revert last; decide
  rcases h1 with rfl | rfl | rfl | rfl <;> cases d <;> simp [QuarterStep, Clockwise]

theorem quarterStep_dir {d : Dir} {last cur : BitVec 2} (h : QuarterStep d last cur) : d ≠ .none := by
  rintro rfl
  simp [QuarterStep] at h

/-- The gate (R172). -/
theorem gateClosed_of_open {s : State} (h : GateOpen s) : gateClosed s (s.enc s.ix) = false := by
  unfold gateClosed elapsed
  exact decide_eq_false (Nat.not_lt.2 h)

theorem gateClosed_of_not_open {s : State} (h : ¬ GateOpen s) : gateClosed s (s.enc s.ix) = true := by
  unfold gateClosed elapsed
  exact decide_eq_true (Nat.lt_of_not_le h)

/-- The speed (R181). -/
theorem speedAfter_eq (dt old : Word) :
    speedAfter dt old = if dt = 0#32 then old else BitVec.ofNat 32 (1000 / (4 * dt.toNat)) := by
  unfold speedAfter Config.speedNum Config.speedMult
  rw [Nat.mul_comm 4]

theorem acceptChange_eq (s : State) : acceptChange s.tCycle (pinsShow s) (s.enc s.ix) = changed s := by
  unfold acceptChange changed
  rw [speedAfter_eq]
  rfl

theorem encState_eq (s : State) :
    encState (s.env.pinAnswer 0) ((pinRead (s.cfg.encPinAAt s.ix) s).env.pinAnswer 0) = pinsShow s := by
  have h : (pinRead (s.cfg.encPinAAt s.ix) s).env.pinAnswer 0 = s.env.pinAnswer 1 := by simp [pinRead, request]
  rw [h]
  rfl

/-- U_ENC_STEP (R172). -/
theorem encStep_eq (s : State) : encStep s =
    if gateClosed s (s.enc s.ix) = true then s else
    match classify (s.enc s.ix).lastState (pinsShow s) with
    | .same    => setEnc s.ix (speedIdle s.params s.tCycle (s.enc s.ix)) (encPinsRead s)
    | .illegal => setEnc s.ix { changed s with errorCount := bumpErrors (s.enc s.ix).errorCount } (encPinsRead s)
    | .legal d =>
      if pinsShow s = s.params.encSettleState ∧ (s.enc s.ix).pendingDir = d then
        commit d (setEnc s.ix { changed s with pendingDir := d } (encPinsRead s))
      else setEnc s.ix { changed s with pendingDir := d } (encPinsRead s) := by
  unfold encStep
  simp only [encState_eq, acceptChange_eq]
  rfl

/-- `speed_idle` (R173). -/
theorem speedIdle_eq (p : Params) (t : Word) (x : Enc) :
    speedIdle p t x =
      { x with speed := if p.speedIdleTimeoutMs.toNat < (t - x.tSpeed).toNat then 0#32 else x.speed } := by
  unfold speedIdle exceeds elapsed
  by_cases h : p.speedIdleTimeoutMs.toNat < (t - x.tSpeed).toNat
  · rw [if_pos h, decide_eq_true h, if_pos rfl]
  · rw [if_neg h, decide_eq_false h, if_neg (by simp)]

/-- A quarter-step that arrives at the settle state with a matching pending direction commits (R178). -/
theorem encStep_commits {s : State} {d : Dir} (h : GateOpen s)
    (hq : QuarterStep d (s.enc s.ix).lastState (pinsShow s)) (h1 : pinsShow s = s.params.encSettleState)
    (h2 : (s.enc s.ix).pendingDir = d) :
    encStep s = commit d (setEnc s.ix { changed s with pendingDir := d } (encPinsRead s)) := by
  rw [encStep_eq, gateClosed_of_open h]
  rcases classify_cases (s.enc s.ix).lastState (pinsShow s) with ⟨-, h4⟩ | ⟨-, -, h4⟩ | ⟨d', h3, -, h4⟩
  · exact absurd h4 (quarterStep_ne hq)
  · exact absurd hq (h4 d)
  · obtain rfl := (h4 d).1 hq
    rw [h3]
    dsimp only
    rw [if_neg Bool.false_ne_true, if_pos ⟨h1, h2⟩]

/-- The record that a commit writes first (R179). -/
theorem commit_record (s : State) {d : Dir} (hd : d ≠ .none) :
    let s1 := setEnc s.ix { changed s with pendingDir := d } (encPinsRead s)
    setEnc s.ix (committed d s) s1 = setEnc s1.ix
      { s1.enc s1.ix with
        position := movePosition (s1.enc s1.ix).position d (positionStep (s1.cfg.encDivisorAt s1.ix))
        lastDir := d, pendingDir := .none } s1 := by
  intro s1
  have h1 : s1.enc s1.ix = { changed s with pendingDir := d } := by simp [s1, encPinsRead]
  have h2 : s1.ix = s.ix := rfl
  have h3 : s1.cfg = s.cfg := rfl
  rw [h1, h2, h3]
  congr 1
  cases d <;> simp_all [committed, movePosition, positionStep]

/-- A commit on an enabled channel presents its record and leaves the rest for after the acknowledge. -/
theorem commit_enabled (d : Dir) (s u : State)
    (hu : u = setEnc s.ix
      { s.enc s.ix with
        position := movePosition (s.enc s.ix).position d (positionStep (s.cfg.encDivisorAt s.ix))
        lastDir := d, pendingDir := .none } s)
    (he : s.cfg.evtEnable.getLsbD 2 = true) :
    commit d s =
      { u with activity := true, call.channel := .encRotate, call.evA := s.ix, call.evB := 0#8, call.evV := rotateCode d,
               evt := some (evtWord 3#4 s.cfg.activeProfile s.ix 0#8 (rotateCode d)),
               out := .record (evtWord 3#4 s.cfg.activeProfile s.ix 0#8 (rotateCode d)) :: s.out,
               todo := .commitRest :: s.todo } := by
  unfold commit
  dsimp only
  rw [← hu]
  have e1 : u.cfg = s.cfg := by rw [hu]; rfl
  have h2 : (callEmit .encRotate s.ix 0#8 (rotateCode d) { u with activity := true }).enabled .encRotate = true := by
    simp only [State.enabled, callEmit_cfg, e1]; exact he
  rw [if_pos h2, callEmit_eq, if_pos (by simp only [e1]; exact he)]
  simp only [pushTask, State.recordOf, e1]
  rw [hu]; rfl

/-- A commit on a disabled channel goes on at once. -/
theorem commit_disabled (d : Dir) (s u : State)
    (hu : u = setEnc s.ix
      { s.enc s.ix with
        position := movePosition (s.enc s.ix).position d (positionStep (s.cfg.encDivisorAt s.ix))
        lastDir := d, pendingDir := .none } s)
    (he : s.cfg.evtEnable.getLsbD 2 = false) :
    commit d s = commitRest
      { u with activity := true, call.channel := .encRotate, call.evA := s.ix, call.evB := 0#8,
               call.evV := rotateCode d } := by
  unfold commit
  dsimp only
  rw [← hu]
  have e1 : u.cfg = s.cfg := by rw [hu]; rfl
  have h2 : (callEmit .encRotate s.ix 0#8 (rotateCode d) { u with activity := true }).enabled .encRotate = false := by
    simp only [State.enabled, callEmit_cfg, e1]; exact he
  rw [h2, callEmit_eq]
  have hf : u.cfg.evtEnable.getLsbD Channel.encRotate.bit = false := by rw [e1]; exact he
  simp only [hf]
  rfl

/-- The end of a commit is the malfunction check (R179, R180). -/
theorem commitRest_checked (s : State) : MalfunctionChecked s (commitRest s) := by
  unfold MalfunctionChecked commitRest underThreshold
  dsimp only
  by_cases h1 : (s.enc s.ix).errorCount.toNat < s.params.malfunctionThreshold
  · simp only [h1, decide_true, Bool.not_true, Bool.false_and]
    simp
    exact setEnc_becomes _ _ _
  · cases h2 : (s.enc s.ix).malReported
    · simp only [h1, decide_false, Bool.not_false]
      simp
      exact ⟨_, setEnc_becomes _ _ _, callRaise_raised _ _ _ _⟩
    · simp only [h1, decide_false, Bool.not_false]
      simp
      exact setEnc_becomes _ _ _

end Sys2Proof.Machine
end

