-- ==== Sys2Proof/Laws/Encoding.lean ====
section
/-! SUPPORT. The fields of the words: what each field of a word built from fields reads as, and a word as the word built
from its own fields. -/

namespace Sys2Proof

/-! ## Fields of words put together -/

theorem extract_append_high {m n : Nat} (x : BitVec m) (y : BitVec n) (k l : Nat) (h : n ≤ k) :
    (x ++ y).extractLsb' k l = x.extractLsb' (k - n) l := by
  apply BitVec.eq_of_getLsbD_eq
  intro i hi
  have : ¬ (k + i < n) := by omega
  simp [BitVec.getLsbD_append, hi, this]
  congr 1
  omega

theorem extract_append_low {m n : Nat} (x : BitVec m) (y : BitVec n) (k l : Nat) (h : k + l ≤ n) :
    (x ++ y).extractLsb' k l = y.extractLsb' k l := by
  apply BitVec.eq_of_getLsbD_eq
  intro i hi
  have : (k + i < n) := by omega
  simp [BitVec.getLsbD_append, hi, this]

theorem extract_zeroExtend {n : Nat} (x : BitVec n) (w k l : Nat) (h : k + l ≤ w) :
    (x.zeroExtend w).extractLsb' k l = x.extractLsb' k l := by
  apply BitVec.eq_of_getLsbD_eq
  intro i hi
  have : (k + i < w) := by omega
  simp [hi, this]

theorem extract_all {n : Nat} (x : BitVec n) : x.extractLsb' 0 n = x := by
  apply BitVec.eq_of_getLsbD_eq
  intro i hi
  simp [hi]

/-- One bit of a word, as a field of one bit. -/
theorem bit_of_extract {n : Nat} (x : BitVec n) (k : Nat) (b : Bool) (h : x.extractLsb' k 1 = BitVec.ofBool b) :
    x.getLsbD k = b := by
  have := congrArg (fun v => BitVec.getLsbD v 0) h
  simpa [BitVec.getLsbD_extractLsb'] using this

/-- A zero field above a field is its zero extension. -/
theorem zero_append_eq {m n : Nat} (x : BitVec n) : (0#m ++ x : BitVec (m + n)) = x.zeroExtend (m + n) := by
  apply BitVec.eq_of_getLsbD_eq
  intro k hk
  simp only [BitVec.getLsbD_append, BitVec.truncate_eq_setWidth, BitVec.getLsbD_setWidth, hk, decide_true, Bool.true_and]
  split
  · rfl
  · rename_i h
    rw [BitVec.getLsbD_of_ge x k (by omega)]
    simp

theorem zeroExtend_lt {n : Nat} (x : BitVec n) : (x.zeroExtend 64).toNat < 2 ^ n := by
  simp only [BitVec.truncate_eq_setWidth, BitVec.toNat_setWidth]
  exact Nat.lt_of_le_of_lt (Nat.mod_le _ _) x.isLt

/-- A word that fits in `n` bits is the zero extension of its low `n` bits. -/
theorem zeroExtend_extract {n : Nat} {w : BitVec 64} (h : w.toNat < 2 ^ n) : (w.extractLsb' 0 n).zeroExtend 64 = w := by
  apply BitVec.eq_of_toNat_eq
  simp
  rw [Nat.mod_eq_of_lt h, Nat.mod_eq_of_lt]
  exact w.isLt

/-! ## A command word (30_encoding.md R101) -/

theorem cmdWord_fields (op reg i j : Byte) (imm : Word) :
    (cmdWord op reg i j imm).extractLsb' 56 8 = op ∧ (cmdWord op reg i j imm).extractLsb' 48 8 = reg ∧
    (cmdWord op reg i j imm).extractLsb' 40 8 = i ∧ (cmdWord op reg i j imm).extractLsb' 32 8 = j ∧
    (cmdWord op reg i j imm).extractLsb' 0 32 = imm := by
  unfold cmdWord
  refine ⟨?_, ?_, ?_, ?_, ?_⟩
  all_goals
    repeat (first | rw [extract_append_low _ _ _ _ (by decide)] | rw [extract_append_high _ _ _ _ (by decide)])
    exact extract_all _

theorem cmdWord_eta (w : BitVec 64) :
    cmdWord (w.extractLsb' 56 8) (w.extractLsb' 48 8) (w.extractLsb' 40 8) (w.extractLsb' 32 8) (w.extractLsb' 0 32) =
        w := by
  apply BitVec.eq_of_getLsbD_eq
  intro k hk
  simp only [cmdWord, BitVec.getLsbD_extractLsb', BitVec.getLsbD_append]
  repeat' split
  all_goals first
    | omega
    | (rw [decide_eq_true (by omega)]; simp; done)
    | (rw [decide_eq_true (by omega)]; simp; congr 1; omega)

/-- Fields of a word whose low 56 bits are zero. -/
theorem fields_of_zero56 {w : BitVec 64} (h : w.extractLsb' 0 56 = 0#56) :
    w.extractLsb' 48 8 = 0#8 ∧ w.extractLsb' 40 8 = 0#8 ∧ w.extractLsb' 32 8 = 0#8 ∧ w.extractLsb' 0 32 = 0#32 := by
  have hb : ∀ k, k < 56 → w.getLsbD k = false := by
    intro k hk
    have := congrArg (fun v => v.getLsbD k) h
    simpa [hk] using this
  refine ⟨?_, ?_, ?_, ?_⟩ <;>
  · apply BitVec.eq_of_getLsbD_eq
    intro k hk
    simp only [BitVec.getLsbD_extractLsb', hk, decide_true, Bool.true_and]
    rw [hb _ (by omega)]
    simp

/-! ## An event record (30_encoding.md R110) -/

theorem evtWord_fields (c : BitVec 4) (p a b : Byte) (v : BitVec 4) :
    (evtWord c p a b v).extractLsb' 28 4 = c ∧ (evtWord c p a b v).extractLsb' 20 8 = p ∧
    (evtWord c p a b v).extractLsb' 12 8 = a ∧ (evtWord c p a b v).extractLsb' 4 8 = b ∧
    (evtWord c p a b v).extractLsb' 0 4 = v := by
  unfold evtWord
  refine ⟨?_, ?_, ?_, ?_, ?_⟩
  all_goals
    repeat (first | rw [extract_append_low _ _ _ _ (by decide)] | rw [extract_append_high _ _ _ _ (by decide)])
    exact extract_all _

theorem evtWord_eta (v : BitVec 32) :
    evtWord (v.extractLsb' 28 4) (v.extractLsb' 20 8) (v.extractLsb' 12 8) (v.extractLsb' 4 8) (v.extractLsb' 0 4) = v := by
  apply BitVec.eq_of_getLsbD_eq
  intro k hk
  simp only [evtWord, BitVec.getLsbD_extractLsb', BitVec.getLsbD_append]
  repeat' split
  all_goals first
    | omega
    | (rw [decide_eq_true (by omega)]; simp; done)
    | (rw [decide_eq_true (by omega)]; simp; congr 1; omega)

theorem evtCarrier_record (c : BitVec 4) (p a b : Byte) (v : BitVec 4) :
    (evtCarrier c p a b v).extractLsb' 0 32 = evtWord c p a b v := by
  unfold evtCarrier
  rw [extract_zeroExtend _ _ _ _ (by decide), extract_all]

/-! ## The two bus frames with more than one field (30_encoding.md R109) -/

theorem frame2_fields (a : BitVec 7) (r v : Byte) :
    (a ++ r ++ v).extractLsb' 16 7 = a ∧ (a ++ r ++ v).extractLsb' 8 8 = r ∧ (a ++ r ++ v).extractLsb' 0 8 = v := by
  refine ⟨?_, ?_, ?_⟩
  all_goals
    repeat (first | rw [extract_append_low _ _ _ _ (by decide)] | rw [extract_append_high _ _ _ _ (by decide)])
    exact extract_all _

theorem frame1_fields (a : BitVec 7) (r : Byte) :
    (a ++ r).extractLsb' 8 7 = a ∧ (a ++ r).extractLsb' 0 8 = r := by
  refine ⟨?_, ?_⟩
  all_goals
    repeat (first | rw [extract_append_low _ _ _ _ (by decide)] | rw [extract_append_high _ _ _ _ (by decide)])
    exact extract_all _

theorem frame2_eta (w : BitVec 23) : w.extractLsb' 16 7 ++ w.extractLsb' 8 8 ++ w.extractLsb' 0 8 = w := by
  apply BitVec.eq_of_getLsbD_eq
  intro k hk
  simp only [BitVec.getLsbD_extractLsb', BitVec.getLsbD_append]
  repeat' split
  all_goals first
    | omega
    | (rw [decide_eq_true (by omega)]; simp; done)
    | (rw [decide_eq_true (by omega)]; simp; congr 1; omega)

theorem frame1_eta (w : BitVec 15) : w.extractLsb' 8 7 ++ w.extractLsb' 0 8 = w := by
  apply BitVec.eq_of_getLsbD_eq
  intro k hk
  simp only [BitVec.getLsbD_extractLsb', BitVec.getLsbD_append]
  repeat' split
  all_goals first
    | omega
    | (rw [decide_eq_true (by omega)]; simp; done)
    | (rw [decide_eq_true (by omega)]; simp; congr 1; omega)

end Sys2Proof
end

