-- ==== Sys2Proof/Laws/Meanings.lean ====
section
/-! SUPPORT. What exec can do, operation by operation: most operations are chains of primitive updates; for each of the
others, what it does beside a chain. -/

namespace Sys2Proof.Machine

open Sys2Proof.Safety

/-- The operations that are chains of primitive updates. -/
def Plain : Instr → Prop
  | .uIdle | .uPinInit | .uExpInit | .uPsChk | .uExpRead | .uExpDeb | .uMatRow | .uMatDeb | .uGpio | .uEncStep | .uEncBtn
  | .debounce | .raise | .bfWriteReg .. | .bfSetPointer .. | .bfRead2 .. => True
  | .nop | .rd .. | .wr .. | .beginCmd | .tryUpdate | .update | .clearError | .uValidate | .uStateInit | .uPsEnter | .uFin
  | .uPsExit | .emit | .evMatrix .. | .evGpio .. | .evEncRotate .. | .evEncButton .. | .evExpander .. | .evError .. => False

theorem chain_debounceOp (s : State) : Chain s (debounceOp s) := by
  unfold debounceOp
  dsimp only
  exact (Chain.one (.call { s.call with
    toggled := (debounceLine (s.line s.call.line) s.call.raw s.tCycle s.cfg.debounceMs).2 } rfl)).trans (.one (.line _ _))

theorem chain_raiseOp (s : State) : Chain s (raiseOp s) := chain_callRaise s.call.kind s.call.src s.call.cause s

theorem chain_gpio (s : State) :
    Chain s (pollLine (.gpio s.ix) (!s.env.pinAnswer 0) .gpio s.ix 0#8 (pinRead (s.cfg.gpioPinAt s.ix) s)) :=
  (chain_pinRead _ s).trans (chain_pollLine _ _ _ _ _ _ (.inr (.inl ⟨rfl, rfl⟩)))

/-- A plain operation answers a next state, by a chain. -/
theorem exec_plain {i : Instr} (h : Plain i) (s : State) : ∃ t, exec i s = .next t ∧ Chain s t := by
  cases i with
  | uIdle => exact ⟨_, rfl, .refl s⟩
  | uPinInit => exact ⟨_, rfl, chain_pinInit s⟩
  | uExpInit => exact ⟨_, rfl, chain_expInitWrites _ _ _ s⟩
  | uPsChk => exact ⟨_, rfl, .one (.call _ rfl)⟩
  | uExpRead => exact ⟨_, rfl, chain_expRead s⟩
  | uExpDeb =>
    by_cases he : s.expOk = true
    · exact ⟨expDebFrom 16 s, by simp [exec, execUExpDeb, he], chain_expDebFrom _ _⟩
    · exact ⟨s, by simp [exec, execUExpDeb, he], .refl s⟩
  | uMatRow => exact ⟨_, rfl, chain_matRow s⟩
  | uMatDeb => exact ⟨_, rfl, chain_matDebFrom _ s⟩
  | uGpio => exact ⟨_, rfl, chain_gpio s⟩
  | uEncStep => exact ⟨_, rfl, chain_encStep s⟩
  | uEncBtn =>
    by_cases hp : s.cfg.encPinBtnAt s.ix = 0xFF#8
    · exact ⟨s, by simp [exec, execUEncBtn, hp], .refl s⟩
    · refine ⟨_, by simp only [exec, execUEncBtn]; rw [if_neg hp], ?_⟩
      exact (chain_pinRead _ s).trans (chain_pollLine _ _ _ _ _ _ (.inr (.inr (.inl ⟨rfl, rfl⟩))))
  | debounce => exact ⟨_, rfl, chain_debounceOp s⟩
  | raise => exact ⟨_, rfl, chain_raiseOp s⟩
  | bfWriteReg a r v => exact ⟨_, rfl, chain_writeRegFrame a r v s⟩
  | bfSetPointer a r => exact ⟨_, rfl, chain_setPointerFrame a r s⟩
  | bfRead2 a => exact ⟨_, rfl, chain_read2Frame a s⟩
  | _ => exact absurd h id

/-- U_STATEINIT: primitive updates, and encoder records made fresh. -/
theorem stateInit_keeps {P : State → Prop} (hp : ∀ s t, P s → Prim s t → P t)
    (hf : ∀ e c t0 s, P s → P (setEnc e (freshEnc c t0) s)) {s : State} (h : P s) : P (stateInit s) := by
  have hc : ∀ {s t}, Chain s t → P s → P t := fun hc hs => Chain.keeps hp hc hs
  unfold stateInit
  dsimp only
  refine forAsc_induct P _ (fun e t ht => ?_) _ _ (hc (((chain_forAsc _ (fun r t => chain_forAsc _ (fun c u => ?_) _ t)
      _ s).trans
    (chain_forAsc _ (fun i t => ?_) _ _)).trans (chain_forAsc _ (fun d t => ?_) _ _)) h)
  · exact hf _ _ _ _ (hc ((chain_pinRead _ t).trans (chain_pinRead _ _)) ht)
  · exact .one (.line (.cell _ _) _)
  · exact .one (.line (.gpio _) _)
  · exact .one (.exp _ _)

/-- U_PS_ENTER: a chain, then PowerSaving. -/
theorem psEnter_chain (s : State) : ∃ u, Chain s u ∧ psEnter s = { u with psMode := true } :=
  ⟨_, chain_forAsc _ (fun _ t => chain_pinMode _ _ t) _ s, rfl⟩

/-- U_PS_EXIT: a chain, then Awake. -/
theorem psExit_chain (s : State) : ∃ u, Chain s u ∧ psExit s = { u with psMode := false } :=
  ⟨_, chain_forAsc _ (fun k t => chain_driveRowInactive t k) _ s, rfl⟩

/-- U_FIN: nothing; or the idle timer; or the idle timer, the code of U_PS_EXIT, a chain, Awake. -/
theorem uFin_cases {s t : State} (h : exec .uFin s = .next t) :
    (s.activity = false ∧ t = s) ∨ (s.activity = true ∧ t = { s with tActivity := s.tCycle }) ∨
    (s.activity = true ∧ ∃ u, Chain { s with tActivity := s.tCycle, phase := 0x0F#5 } u ∧ t =
        { u with psMode := false }) := by
  simp only [exec, execUFin] at h
  rcases Bool.eq_false_or_eq_true s.activity with ha | ha
  · rw [if_pos ha] at h
    rcases Bool.eq_false_or_eq_true s.psMode with hp | hp
    · rw [if_pos hp] at h
      obtain ⟨u, h1, h2⟩ := psExit_chain { s with tActivity := s.tCycle, phase := 0x0F#5 }
      refine .inr (.inr ⟨ha, u, h1, ?_⟩)
      rw [← h2]
      injection h with h
      exact h.symm
    · rw [if_neg (by rw [hp]; exact Bool.false_ne_true)] at h
      injection h with h
      exact .inr (.inl ⟨ha, h.symm⟩)
  · rw [if_neg (by rw [ha]; exact Bool.false_ne_true)] at h
    injection h with h
    exact .inl ⟨ha, h.symm⟩

/-- U_VALIDATE: its result, and a chain. -/
theorem uValidate_cases {s t : State} (h : exec .uValidate s = .next t) :
    (validateFault s.params s.cfg = none ∧ t = { s with call.valid := true }) ∨ Chain { s with call.valid := false } t := by
  simp only [exec, execUValidate] at h
  cases hv : validateFault s.params s.cfg with
  | none =>
    rw [hv] at h
    exact .inl ⟨rfl, by simpa using h.symm⟩
  | some f =>
    rw [hv] at h
    obtain ⟨k, src, cause⟩ := f
    right
    have ht : t = callRaise k src cause { s with call.valid := false } := by simpa using h.symm
    rw [ht]
    exact chain_callRaise _ _ _ _

/-- A configuration that passes U_VALIDATE has a legal profile (47_host_commands.md R266, check 2). -/
theorem validateFault_profile {p : Params} {c : HostCfg} (h : validateFault p c = none) :
    c.activeProfile.toNat < c.profileCount.toNat := by
  unfold validateFault at h
  split at h
  · cases h
  · split at h
    · cases h
    · omega

/-- WR: a refusal, or the response after `writeReg`. -/
theorem wr_cases {s t : State} {reg i j : Byte} {imm : Word} (h : exec (.wr reg i j imm) s = .next t) :
    (∃ st, t = respond st 0#32 s) ∨
    (s.busy = false ∧ ∃ r u, resolve s.params reg i j = some r ∧ writeReg r imm s = some u ∧
      t = respond .ok 0#32 (if r.structural then { u with initialized := false } else u)) := by
  simp only [exec, execWr] at h
  cases hb : s.busy with
  | true =>
    rw [hb] at h
    exact .inl ⟨.busy, by simpa using h.symm⟩
  | false =>
    rw [hb] at h
    cases hr : resolve s.params reg i j with
    | none =>
      rw [hr] at h
      exact .inl ⟨.error, by simpa using h.symm⟩
    | some r =>
      rw [hr] at h
      cases hw : writeReg r imm s with
      | none =>
        simp only [hw] at h
        exact .inl ⟨.error, by simpa using h.symm⟩
      | some u =>
        simp only [hw] at h
        exact .inr ⟨rfl, r, u, rfl, hw, by simpa using h.symm⟩

/-- `writeReg` changes the configuration or an encoder's position, and nothing else. -/
theorem writeReg_cases {r : HostReg} {imm : Word} {s u : State} (h : writeReg r imm s = some u) :
    u = { s with cfg := u.cfg } ∨ ∃ e, r = .encPosition e ∧ u = setEnc e { s.enc e with position := imm } s := by
  cases r <;> simp only [writeReg] at h
  case encPosition e => exact .inr ⟨e, rfl, by simpa using h.symm⟩
  case activeProfile =>
    split at h
    · cases h
    · left; cases h; rfl
  case encDivisor e =>
    split at h
    · left; cases h; rfl
    · cases h
  case numRows =>
    left; obtain ⟨n, -, rfl⟩ := Option.map_eq_some_iff.1 h; rfl
  case numCols =>
    left; obtain ⟨n, -, rfl⟩ := Option.map_eq_some_iff.1 h; rfl
  case numGpio =>
    left; obtain ⟨n, -, rfl⟩ := Option.map_eq_some_iff.1 h; rfl
  case numEnc =>
    left; obtain ⟨n, -, rfl⟩ := Option.map_eq_some_iff.1 h; rfl
  case numExp =>
    left; obtain ⟨n, -, rfl⟩ := Option.map_eq_some_iff.1 h; rfl
  all_goals first
    | (left; cases h; rfl)
    | cases h

/-- RD changes the trace, and the count of free values. -/
theorem rd_cases {s t : State} {reg i j : Byte} (h : exec (.rd reg i j) s = .next t) :
    ∃ st d n, t = respond st d { s with env.draws := n } := by
  simp only [exec, execRd] at h
  split at h
  · exact ⟨.error, 0#32, s.env.draws, by simpa using h.symm⟩
  · split at h
    · exact ⟨_, _, _, by simpa using h.symm⟩
    · exact ⟨_, _, s.env.draws, by simpa using h.symm⟩

/-- BEGIN: BUSY, or it starts. -/
theorem begin_cases {s t : State} (h : exec .beginCmd s = .next t) :
    t = respond .busy 0#32 s ∨
    (s.busy = false ∧ t = { now { clearSlot { s with busy := true, initialized := false } with
        tCycle := s.env.nowAnswer, call.valid := false } with todo := [uopTask 0x01#5 none, .afterValidate] ++ s.todo })
            := by
  simp only [exec, execBeginCmd] at h
  cases hb : s.busy with
  | true =>
    rw [hb] at h
    exact .inl (by simpa using h.symm)
  | false =>
    rw [hb] at h
    exact .inr ⟨rfl, by simpa using h.symm⟩

/-- TRY_UPDATE: a refusal, or a cycle starts. -/
theorem tryUpdate_cases {s t : State} (h : exec .tryUpdate s = .next t) :
    (∃ st, t = respond st 0#32 s) ∨ (s.initialized = true ∧ s.busy = false ∧ t = acceptUpdate s) := by
  simp only [exec, execTryUpdate] at h
  cases hi : s.initialized with
  | false =>
    rw [hi] at h
    exact .inl ⟨.error, by simpa using h.symm⟩
  | true =>
    rw [hi] at h
    cases hb : s.busy with
    | true =>
      rw [hb] at h
      exact .inl ⟨.busy, by simpa using h.symm⟩
    | false =>
      rw [hb] at h
      exact .inr ⟨rfl, rfl, by simpa using h.symm⟩

/-- UPDATE: a refusal, one more waits, or a cycle starts. -/
theorem update_cases {s t : State} (h : exec .update s = .next t) :
    (t = respond .error 0#32 s) ∨ (s.busy = true ∧ t = { s with updWait := s.updWait + 1 }) ∨
    (s.initialized = true ∧ s.busy = false ∧ t = acceptUpdate s) := by
  simp only [exec, execUpdate] at h
  cases hi : s.initialized with
  | false =>
    rw [hi] at h
    exact .inl (by simpa using h.symm)
  | true =>
    rw [hi] at h
    cases hb : s.busy with
    | true =>
      rw [hb] at h
      exact .inr (.inl ⟨rfl, by simpa using h.symm⟩)
    | false =>
      rw [hb] at h
      exact .inr (.inr ⟨rfl, rfl, by simpa using h.symm⟩)

/-- EMIT: nothing, or a record is presented. -/
theorem emit_cases {s t : State} (h : exec .emit s = .next t) : t = s ∨ ∃ w, t = present w s := by
  simp only [exec, execEmit, emitOp, Host.Outcome.next.injEq] at h
  split at h
  · exact .inr ⟨_, h.symm⟩
  · exact .inl h.symm

/-- The micro-operations that `phase` can hold (30_encoding.md R108). -/
theorem decode_inner {w : BitVec 64} {i : Instr} (hd : decode .uop5 w = .ok i) (hw : w.toNat < 16) :
    Plain i ∨ i = .uValidate ∨ i = .uStateInit ∨ i = .uPsEnter ∨ i = .uFin ∨ i = .uPsExit := by
  have hw' : w = BitVec.ofNat 64 w.toNat := by simp
  generalize w.toNat = n at hw hw'
  subst hw'
  interval_cases n <;> cases hd <;> simp [Plain]

end Sys2Proof.Machine
end

