-- ==== Sys2Proof/Laws/Updates.lean ====
section
/-! SUPPORT. Every step is a sequence of updates, so that what each update keeps, every step keeps: the invariants that
need nothing of the sequencer follow from `step_upds` and `Upds.keeps`. -/

namespace Sys2Proof.Machine

open Sys2Proof.Safety


/-- One update of the state in a step: a primitive update, or one of the others that a step can do. -/
inductive Upd (s : State) : State → Prop where
  | prim {t : State} (h : Prim s t) : Upd s t
  | fresh (e : Byte) (c : BitVec 2) (t0 : Word) : Upd s (setEnc e (freshEnc c t0) s)
  | position (e : Byte) (v : Word) : Upd s (setEnc e { s.enc e with position := v } s)
  | config (r : HostReg) (imm : Word) (u : State) (h : writeReg r imm s = some u) : Upd s { s with cfg := u.cfg }
  | clear : Upd s (clearSlot s)
  | record (w : BitVec 32) : Upd s (present w s)
  | noRecord : Upd s { s with evt := none }
  | reset : Upd s (resetBlock s)
  | served (b : Bool) (l : List Out) : Upd s { s with env := s.env.served b l }
  | other (t : State) : Upd s {
      s with
        host := t.host, todo := t.todo, ix := t.ix, jx := t.jx, phase := t.phase, updWait := t.updWait,
        busy := t.busy, initialized := t.initialized, psMode := t.psMode, activity := t.activity,
        tActivity := t.tActivity, tCycle := t.tCycle, call := t.call, out := t.out }

/-- Any number of updates. -/
def Upds (s t : State) : Prop := Relation.ReflTransGen Upd s t

theorem Upds.one {s t : State} (h : Upd s t) : Upds s t := Relation.ReflTransGen.single h
theorem Upds.trans {s t u : State} (h : Upds s t) (h' : Upds t u) : Upds s u := Relation.ReflTransGen.trans h h'
theorem Upds.refl (s : State) : Upds s s := Relation.ReflTransGen.refl

theorem Chain.upds {s t : State} (h : Chain s t) : Upds s t := by
  induction h with
  | refl => exact .refl _
  | tail _ h2 ih => exact ih.trans (.one (.prim h2))

/-- What every update keeps, a step keeps. -/
theorem Upds.keeps {P : State → Prop} (hp : ∀ s t, P s → Upd s t → P t) {s t : State} (h : Upds s t) (hs : P s) : P t := by
  induction h with
  | refl => exact hs
  | tail _ h2 ih => exact hp _ _ ih h2

/-- Writes to the sequencer, the flags of a command, the operands, the host's list and the trace. -/
theorem upds_other {s t : State} (h : t = {
      s with
        host := t.host, todo := t.todo, ix := t.ix, jx := t.jx, phase := t.phase, updWait := t.updWait,
        busy := t.busy, initialized := t.initialized, psMode := t.psMode, activity := t.activity,
        tActivity := t.tActivity, tCycle := t.tCycle, call := t.call, out := t.out }) : Upds s t := by
  rw [h]; exact .one (.other t)

theorem upds_now (s : State) : Upds s (now s) := (chain_now s).upds

theorem upds_accept (s : State) : Upds s (acceptUpdate s) := by
  unfold acceptUpdate
  dsimp only
  exact ((upds_other (s := s) (t := { s with busy := true, activity := false, tCycle := s.env.nowAnswer }) rfl).trans
    (upds_now _)).trans (upds_other rfl)

/-- Every operation is a sequence of updates. -/
theorem exec_upds {i : Instr} {s t : State} (h : exec i s = .next t) : Upds s t := by
  by_cases hp : Plain i
  · obtain ⟨u, hu, hc⟩ := exec_plain hp s
    rw [hu] at h
    cases h
    exact hc.upds
  cases i with
  | nop => simp only [exec, execNop] at h; cases h; exact upds_other rfl
  | rd reg i j =>
    obtain ⟨st, d, n, rfl⟩ := rd_cases h
    exact (chain_env { s.env with draws := n } s rfl).upds.trans (upds_other rfl)
  | wr reg i j imm =>
    rcases wr_cases h with ⟨st, rfl⟩ | ⟨hb, r, u, hr, hw, rfl⟩
    · exact upds_other rfl
    · have hu : Upds s u := by
        rcases writeReg_cases hw with h1 | ⟨e, rfl, rfl⟩
        · rw [h1]; exact .one (.config r imm u hw)
        · exact .one (.position e imm)
      refine hu.trans ?_
      split
      · exact upds_other rfl
      · exact upds_other rfl
  | beginCmd =>
    rcases begin_cases h with rfl | ⟨hb, rfl⟩
    · exact upds_other rfl
    · refine ((((upds_other (s := s) (t := { s with busy := true, initialized := false }) rfl).trans (.one .clear)).trans
        (upds_other (t := { clearSlot { s with busy := true, initialized := false } with
          tCycle := s.env.nowAnswer, call.valid := false }) rfl)).trans (upds_now _)).trans (upds_other rfl)
  | tryUpdate =>
    rcases tryUpdate_cases h with ⟨st, rfl⟩ | ⟨_, _, rfl⟩
    · exact upds_other rfl
    · exact upds_accept s
  | update =>
    rcases update_cases h with rfl | ⟨_, rfl⟩ | ⟨_, _, rfl⟩
    · exact upds_other rfl
    · exact upds_other rfl
    · exact upds_accept s
  | clearError => simp only [exec, execClearError] at h; cases h; exact (Upds.one .clear).trans (upds_other rfl)
  | uValidate =>
    rcases uValidate_cases h with ⟨_, rfl⟩ | hc
    · exact upds_other rfl
    · exact (upds_other (t := { s with call.valid := false }) rfl).trans hc.upds
  | uStateInit =>
    simp only [exec, execUStateInit] at h
    cases h
    exact stateInit_keeps (P := Upds s) (fun a b ha hb => ha.trans (.one (.prim hb)))
      (fun e c t0 a ha => ha.trans (.one (.fresh e c t0))) (.refl s)
  | uPsEnter =>
    obtain ⟨u, h1, h2⟩ := psEnter_chain s
    simp only [exec, execUPsEnter, h2] at h
    cases h
    exact h1.upds.trans (upds_other rfl)
  | uFin =>
    rcases uFin_cases h with ⟨_, rfl⟩ | ⟨_, rfl⟩ | ⟨_, u, hu, rfl⟩
    · exact .refl _
    · exact upds_other rfl
    · exact ((upds_other rfl).trans hu.upds).trans (upds_other rfl)
  | uPsExit =>
    obtain ⟨u, h1, h2⟩ := psExit_chain s
    simp only [exec, execUPsExit, h2] at h
    cases h
    exact h1.upds.trans (upds_other rfl)
  | emit =>
    rcases emit_cases h with rfl | ⟨w, rfl⟩
    · exact .refl _
    · exact .one (.record w)
  | evMatrix p a b v => simp only [exec, execEvMatrix] at h; cases h; exact .one (.record _)
  | evGpio p a b v => simp only [exec, execEvGpio] at h; cases h; exact .one (.record _)
  | evEncRotate p a b v => simp only [exec, execEvEncRotate] at h; cases h; exact .one (.record _)
  | evEncButton p a b v => simp only [exec, execEvEncButton] at h; cases h; exact .one (.record _)
  | evExpander p a b v => simp only [exec, execEvExpander] at h; cases h; exact .one (.record _)
  | evError p a b v => simp only [exec, execEvError] at h; cases h; exact .one (.record _)
  | _ => exact absurd trivial hp

/-- Every task without a word is a sequence of updates. -/
theorem settle_upds (k : Task) (s : State) : Upds s (settleTask k s) := by
  cases k with
  | op f w item => exact .refl _
  | matCols n => exact (chain_matDebFrom n s).upds
  | expLanes n => exact (chain_expDebFrom n s).upds
  | commitRest => exact (chain_commitRest s).upds
  | afterGate => exact upds_other rfl
  | afterValidate =>
    simp only [settleTask]
    split
    · exact upds_other rfl
    · exact upds_other rfl
  | beginEnd => exact upds_other rfl
  | cycleEnd => exact upds_other rfl

theorem engineTurn_upds {s s' : State} (h : EngineTurn s s') : Upds s s' := by
  rw [engineTurn_fields h]; exact upds_other rfl

/-- Every step is a sequence of updates. -/
theorem step_upds {s t : State} (h : step s = .next t) : Upds s t := by
  rcases step_cases h with ⟨w, h', i, hh, hd, hx⟩ | ⟨w, h', r, hh, hd, rfl⟩ | ⟨b, h', hh, rfl⟩ | ⟨h', hh, rfl⟩ |
    ⟨k, h', l, hh, hl, rfl⟩ | ⟨h', hh, ha, rfl⟩ | ⟨s', hs, he, rfl⟩ | ⟨s', f, w, item, rest, i, hs, he, hl, hd, hx⟩ |
    ⟨s', w, item, rest, r, hs, he, hl, hd, rfl⟩ | ⟨s', k, rest, hs, he, hl, hk, rfl⟩ | ⟨s', hs, he, hl, hu, hb, hx⟩ |
    ⟨s', hs, he, hl, rfl⟩
  · exact (upds_other rfl).trans (exec_upds hx)
  · exact upds_other rfl
  · exact (upds_other (t := { s with host := h' }) rfl).trans (.one .noRecord)
  · exact (upds_other (t := { s with host := h' }) rfl).trans (.one .reset)
  · exact ((Upds.one (.served false l)).trans (upds_other (t := {
      s with
        host := h', env := s.env.served false l, out := l.reverse ++ s.out }) rfl)).trans (.one .reset)
  · exact upds_other rfl
  · exact engineTurn_upds hs
  · exact ((engineTurn_upds hs).trans (upds_other rfl)).trans (exec_upds hx)
  · exact (engineTurn_upds hs).trans (upds_other rfl)
  · exact ((engineTurn_upds hs).trans (upds_other (t := { s' with todo := rest }) rfl)).trans (settle_upds _ _)
  · exact ((engineTurn_upds hs).trans (upds_other rfl)).trans (exec_upds hx)
  · exact engineTurn_upds hs
end Sys2Proof.Machine
end

