-- ==== Sys2Proof/Laws/Fields.lean ====
section
/-! SUPPORT. What a command, a micro-operation and a task do to the fields that the invariants are about, said once. -/

namespace Sys2Proof.Machine

open Sys2Proof.Safety

/-! ## Words -/

/-- The commands (30_encoding.md R102). -/
theorem decode_command {w : BitVec 64} {i : Instr} (h : decode .cmd64 w = .ok i) :
    i = .nop ∨ (∃ a b c, i = .rd a b c) ∨ (∃ a b c d, i = .wr a b c d) ∨ i = .beginCmd ∨ i = .tryUpdate ∨ i = .update ∨
    i = .clearError := by
  simp only [decode, decodeCmd] at h
  repeat' split at h
  all_goals first
    | (cases h; done)
    | (cases h; simp)

/-- The word of UPDATE. -/
theorem decode_update : decode .cmd64 (encode .update).2 = .ok .update := by decide

/-- What a word of each format names. -/
theorem decode_formats {f : Fmt} {w : BitVec 64} {i : Instr} (h : decode f w = .ok i) :
    f = .cmd64 ∨ (∃ n, w = BitVec.ofNat 64 n ∧ f = .uop5 ∧ n < 19 ∧ uopList[n]? = some i) ∨
    (f = .bfW2 ∨ f = .bfW1 ∨ f = .bfR2) ∧ Plain i ∨ f = .evt32 ∧ ∃ v, ∀ s, exec i s = .next (present v s) := by
  cases f with
  | cmd64 => exact .inl rfl
  | uop5 =>
    right; left
    simp only [decode, within] at h
    split at h
    · rename_i h5
      have : (w.extractLsb' 0 5).toNat = w.toNat := by
        simp; omega
      unfold decodeUop at h
      rw [this] at h
      refine ⟨w.toNat, by simp, rfl, ?_⟩
      cases hu : uopList[w.toNat]? with
      | none => rw [hu] at h; cases h
      | some j =>
        rw [hu] at h; cases h
        refine ⟨?_, rfl⟩
        have := (List.getElem?_eq_some_iff.1 hu).1
        simpa [uopList] using this
    · cases h
  | evt32 =>
    right; right; right
    refine ⟨rfl, ?_⟩
    simp only [decode, within, decodeEvt] at h
    repeat' split at h
    all_goals first
      | (cases h; done)
      | (cases h; exact ⟨_, fun _ => rfl⟩)
  | _ =>
    right; right; left
    simp only [decode, within] at h
    split at h
    · cases h; exact ⟨by simp, trivial⟩
    · cases h

/-- The micro-operations (30_encoding.md R108): those that `phase` can hold, and the sub-operations. -/
theorem uop_kinds {n : Nat} {i : Instr} (h : n < 19) (hu : uopList[n]? = some i) :
    n < 16 ∧ (Plain i ∨ i = .uValidate ∨ i = .uStateInit ∨ i = .uPsEnter ∨ i = .uFin ∨ i = .uPsExit) ∨ Plain i ∨
    i = .emit := by
  interval_cases n <;> cases hu <;> simp [Plain]

/-! ## The work list of a coherent state -/

/-- A coherent state with a work list is busy, and its first task is one inside a sequence or the closing one. -/
theorem coherent_task {s : State} (h : Coherent s) {k : Task} {rest : List Task} (hl : s.todo = k :: rest) :
    s.busy = true ∧
    ((Inner k ∧ ∃ pre last, rest = pre ++ [last] ∧ Closing last ∧ ∀ t ∈ pre, Inner t) ∨ (Closing k ∧ rest = [])) := by
  cases hb : s.busy with
  | false => rw [(h.1 hb).1] at hl; cases hl
  | true =>
    obtain ⟨pre, last, h1, h2, h3⟩ := h.2 hb
    refine ⟨rfl, ?_⟩
    cases pre with
    | nil => rw [hl] at h1; injection h1 with h4 h5; subst h4; exact .inr ⟨h2, h5⟩
    | cons p ps =>
      rw [hl] at h1; injection h1 with h4 h5; subst h4
      exact .inl ⟨h3 _ List.mem_cons_self, ps, last, h5, h2, fun t ht => h3 t (List.mem_cons_of_mem _ ht)⟩

/-- A busy state is coherent when its work list is made of tasks inside a sequence and one closing task. -/
theorem coherent_of_list {s : State} {l pre : List Task} {last : Task} (hb : s.busy = true)
    (hl : s.todo = l ++ (pre ++ [last])) (h1 : Closing last) (h2 : ∀ t ∈ pre, Inner t) (h3 : ∀ t ∈ l, Inner t) :
    Coherent s := by
  refine ⟨fun h => (by rw [hb] at h; cases h), fun _ => ⟨l ++ pre, last, by rw [hl, List.append_assoc], h1, ?_⟩⟩
  intro t ht
  rcases List.mem_append.1 ht with ht | ht
  · exact h3 t ht
  · exact h2 t ht

theorem inner_uopTask (c : BitVec 5) (h : c.toNat < 16) (item : Option Byte) : Inner (uopTask c item) := by
  refine ⟨rfl, ?_⟩
  simp [uopWord]; omega

theorem inner_itemTasks (n : Byte) (cs : List (BitVec 5)) (h : ∀ c ∈ cs, c.toNat < 16) :
    ∀ t ∈ itemTasks n cs, Inner t := by
  intro t ht
  simp only [itemTasks, List.mem_flatMap, List.mem_map] at ht
  obtain ⟨k, -, c, hc, rfl⟩ := ht
  exact inner_uopTask c (h c hc) _

/-! ## U_STATEINIT -/

/-- A view that neither a primitive update nor a fresh encoder changes, U_STATEINIT does not change. -/
theorem stateInit_view {β : Type} (v : State → β) (hp : ∀ s t, Prim s t → v t = v s)
    (hf : ∀ e c t0 s, v (setEnc e (freshEnc c t0) s) = v s) (s : State) : v (stateInit s) = v s :=
  stateInit_keeps (P := fun t => v t = v s) (fun _ _ ha hb => (hp _ _ hb).trans ha)
    (fun _ _ _ _ ha => (hf _ _ _ _).trans ha) rfl

theorem stateInit_recordLegal (s : State) (h : RecordLegal s) : RecordLegal (stateInit s) :=
  stateInit_keeps (P := RecordLegal) (fun _ _ ha hb => (Chain.one hb).recordLegal ha) (fun _ _ _ _ ha => ha) h

theorem stateInit_todo (s : State) : ∃ pre, (stateInit s).todo = pre ++ s.todo ∧ ∀ k ∈ pre, Inner k :=
  stateInit_keeps (P := fun t => ∃ pre, t.todo = pre ++ s.todo ∧ ∀ k ∈ pre, Inner k)
    (fun a b ⟨p, h1, h2⟩ hb => by
      obtain ⟨q, h3, h4⟩ := (Chain.one hb).todo
      refine ⟨q ++ p, by rw [h3, h1, List.append_assoc], ?_⟩
      intro k hk
      rcases List.mem_append.1 hk with hk | hk
      · exact h4 k hk
      · exact h2 k hk) (fun e c t0 a ha => ha) ⟨[], rfl, fun _ h => by cases h⟩

/-! ## The frames -/

/-- The changes of the power mode by an operation of the engine (46_update_cycle.md R243). -/
def PsChange (i : Instr) (s t : State) : Prop :=
  t.psMode ≠ s.psMode →
    (i = .uPsEnter ∧ t.psMode = true) ∨ (i = .uFin ∧ s.activity = true ∧ t.psMode = false) ∨
    (i = .uPsExit ∧ t.psMode = false)

/-- No error counter falls and no malfunction latch is cleared. -/
def CountersKept (s t : State) : Prop :=
  ∀ e, (s.enc e).errorCount.toNat ≤ (t.enc e).errorCount.toNat ∧
    ((s.enc e).malReported = true → (t.enc e).malReported = true)

theorem CountersKept.of_encs {s t : State} (h : t.encs = s.encs) : CountersKept s t := by
  intro e
  rw [enc_congr h]
  exact ⟨Nat.le_refl _, id⟩

/-- What a micro-operation inside a sequence does to the fields that the invariants are about. -/
structure InnerFrame (i : Instr) (s t : State) : Prop where
  cfg         : t.cfg = s.cfg
  params      : t.params = s.params
  busy        : t.busy = s.busy
  initialized : t.initialized = s.initialized
  valid       : t.call.valid = s.call.valid ∨ t.call.valid = false ∨
                (t.call.valid = true ∧ validateFault s.params s.cfg = none)
  record      : RecordLegal s → RecordLegal t
  todo        : ∃ pre, t.todo = pre ++ s.todo ∧ ∀ k ∈ pre, Inner k
  psMode      : PsChange i s t
  counters    : i ≠ .uStateInit → CountersKept s t
  host        : t.host = s.host
  updWait     : t.updWait = s.updWait
  responses   : responses t.out = responses s.out

theorem InnerFrame.of_chain {i : Instr} {s t : State} (h : Chain s t) : InnerFrame i s t :=
  ⟨h.cfg, h.params, h.busy, h.initialized, .inl h.valid, h.recordLegal, h.todo, fun hn => absurd h.psMode hn,
    fun _ => h.counters, h.host, h.updWait, h.responses⟩

/-- A micro-operation inside a sequence answers a next state. -/
theorem exec_inner {i : Instr}
    (h : Plain i ∨ i = .uValidate ∨ i = .uStateInit ∨ i = .uPsEnter ∨ i = .uFin ∨ i = .uPsExit) (s : State) :
    ∃ t, exec i s = .next t ∧ InnerFrame i s t := by
  rcases h with h | rfl | rfl | rfl | rfl | rfl
  · obtain ⟨t, ht, hc⟩ := exec_plain h s
    exact ⟨t, ht, .of_chain hc⟩
  · have hx : ∃ t, exec .uValidate s = .next t := by
      simp only [exec, execUValidate]; split <;> exact ⟨_, rfl⟩
    obtain ⟨t, ht⟩ := hx
    rcases uValidate_cases ht with ⟨hv, rfl⟩ | hc
    · exact ⟨_, ht, rfl, rfl, rfl, rfl, .inr (.inr ⟨rfl, hv⟩), id, ⟨[], rfl, fun _ h => by cases h⟩,
        fun h => absurd rfl h, fun _ => .of_encs rfl, rfl, rfl, rfl⟩
    · exact ⟨_, ht, hc.cfg, hc.params, hc.busy, hc.initialized, .inr (.inl hc.valid), fun h => hc.recordLegal h, hc.todo,
        fun hne => absurd hc.psMode hne, fun _ => hc.counters, hc.host, hc.updWait, hc.responses⟩
  · refine ⟨_, rfl, stateInit_view State.cfg (fun _ _ => Prim.cfg) (fun _ _ _ _ => rfl) s,
      stateInit_view State.params (fun _ _ => Prim.params) (fun _ _ _ _ => rfl) s,
      stateInit_view State.busy (fun _ _ => Prim.busy) (fun _ _ _ _ => rfl) s,
      stateInit_view State.initialized (fun _ _ => Prim.initialized) (fun _ _ _ _ => rfl) s,
      .inl (stateInit_view (fun t => t.call.valid) (fun _ _ => Prim.valid) (fun _ _ _ _ => rfl) s),
      stateInit_recordLegal s, stateInit_todo s, fun hne => absurd ?_ hne, fun h => absurd rfl h,
      stateInit_view State.host (fun _ _ => Prim.host) (fun _ _ _ _ => rfl) s,
      stateInit_view State.updWait (fun _ _ => Prim.updWait) (fun _ _ _ _ => rfl) s,
      stateInit_view (fun t => responses t.out) (fun _ _ h => (Chain.one h).responses) (fun _ _ _ _ => rfl) s⟩
    exact stateInit_view State.psMode (fun _ _ => Prim.psMode) (fun _ _ _ _ => rfl) s
  · obtain ⟨u, h1, h2⟩ := psEnter_chain s
    refine ⟨_, rfl, ?_⟩
    rw [h2]
    exact ⟨h1.cfg, h1.params, h1.busy, h1.initialized, .inl h1.valid, fun h => h1.recordLegal h, h1.todo,
      fun _ => .inl ⟨rfl, rfl⟩, fun _ => h1.counters, h1.host, h1.updWait, h1.responses⟩
  · have hx : ∃ t, exec .uFin s = .next t := by
      simp only [exec, execUFin]; split <;> exact ⟨_, rfl⟩
    obtain ⟨t, ht⟩ := hx
    refine ⟨t, ht, ?_⟩
    rcases uFin_cases ht with ⟨_, rfl⟩ | ⟨_, rfl⟩ | ⟨ha, u, h1, rfl⟩
    · exact .of_chain (.refl _)
    · exact ⟨rfl, rfl, rfl, rfl, .inl rfl, id, ⟨[], rfl, fun _ h => by cases h⟩, fun h => absurd rfl h,
        fun _ => .of_encs rfl, rfl, rfl, rfl⟩
    · exact ⟨h1.cfg, h1.params, h1.busy, h1.initialized, .inl h1.valid, fun h => h1.recordLegal h, h1.todo,
        fun _ => .inr (.inl ⟨rfl, ha, rfl⟩), fun _ => h1.counters, h1.host, h1.updWait, h1.responses⟩
  · obtain ⟨u, h1, h2⟩ := psExit_chain s
    refine ⟨_, rfl, ?_⟩
    rw [h2]
    exact ⟨h1.cfg, h1.params, h1.busy, h1.initialized, .inl h1.valid, fun h => h1.recordLegal h, h1.todo,
      fun _ => .inr (.inr ⟨rfl, rfl⟩), fun _ => h1.counters, h1.host, h1.updWait, h1.responses⟩

/-- What a command does to the fields that the invariants are about. -/
structure CommandFrame (s t : State) : Prop where
  params   : t.params = s.params
  evt      : t.evt = s.evt
  psMode   : t.psMode = s.psMode
  whenBusy : s.busy = true → t.cfg = s.cfg ∧ t.busy = true ∧ t.todo = s.todo
  counters : CountersKept s t
  whenIdle : s.busy = false →
    (t.busy = false ∧ t.todo = s.todo ∧ t.phase = s.phase ∧ t.ix = s.ix ∧ t.jx = s.jx) ∨
    (t.busy = true ∧ ∃ pre last, t.todo = pre ++ [last] ++ s.todo ∧ Closing last ∧ ∀ k ∈ pre, Inner k)

/-- A command that writes nothing but the configuration of an idle engine, the slot, the trace and what waits. -/
theorem CommandFrame.of_eqs {s t : State} (h1 : t.params = s.params) (h2 : t.evt = s.evt) (h3 : t.psMode = s.psMode)
    (h4 : s.busy = true → t.cfg = s.cfg) (h5 : t.busy = s.busy) (h6 : t.todo = s.todo) (h7 : CountersKept s t)
    (h8 : t.phase = s.phase) (h9 : t.ix = s.ix) (h10 : t.jx = s.jx) : CommandFrame s t :=
  ⟨h1, h2, h3, fun h => ⟨h4 h, by rw [h5, h], h6⟩, h7, fun h => .inl ⟨by rw [h5, h], h6, h8, h9, h10⟩⟩

theorem CommandFrame.responds {s : State} (st : Status) (d : Word) : CommandFrame s (respond st d s) :=
  .of_eqs rfl rfl rfl (fun _ => rfl) rfl rfl (.of_encs rfl) rfl rfl rfl

/-- The start of an update cycle. -/
theorem acceptUpdate_frame {s : State} (hb : s.busy = false) : CommandFrame s (acceptUpdate s) := by
  refine ⟨rfl, rfl, rfl, fun h => (by rw [hb] at h; cases h), .of_encs rfl,
    fun _ => .inr ⟨rfl, [uopTask 0x05#5 none], .afterGate, rfl, trivial, ?_⟩⟩
  intro k hk
  simp at hk
  subst hk
  exact ⟨rfl, by decide⟩

/-- A command answers a next state. -/
theorem exec_command {i : Instr} {w : BitVec 64} (hd : decode .cmd64 w = .ok i) (s : State) :
    ∃ t, exec i s = .next t ∧ CommandFrame s t := by
  have hne : ∃ t, exec i s = .next t := by
    rcases decode_command hd with rfl | ⟨a, b, c, rfl⟩ | ⟨a, b, c, d, rfl⟩ | rfl | rfl | rfl | rfl <;>
    simp only [exec, execNop, execRd, execWr, execBeginCmd, execTryUpdate, execUpdate, execClearError] <;>
    (repeat' split) <;> exact ⟨_, rfl⟩
  obtain ⟨t, hx⟩ := hne
  refine ⟨t, hx, ?_⟩
  rcases decode_command hd with rfl | ⟨a, b, c, rfl⟩ | ⟨a, b, c, d, rfl⟩ | rfl | rfl | rfl | rfl
  · simp only [exec, execNop] at hx; cases hx; exact .responds _ _
  · obtain ⟨st, d, n, rfl⟩ := rd_cases hx
    exact .of_eqs rfl rfl rfl (fun _ => rfl) rfl rfl (.of_encs rfl) rfl rfl rfl
  · rcases wr_cases hx with ⟨st, rfl⟩ | ⟨hb, r, u, hr, hw, rfl⟩
    · exact .responds _ _
    · have hu : CommandFrame s u ∧ u.busy = false := by
        rcases writeReg_cases hw with h1 | ⟨e, rfl, rfl⟩
        · rw [h1]
          exact ⟨.of_eqs rfl rfl rfl (fun h => by rw [hb] at h; cases h) rfl rfl (.of_encs rfl) rfl rfl rfl, hb⟩
        · refine ⟨.of_eqs rfl rfl rfl (fun _ => rfl) rfl rfl (fun k => ?_) rfl rfl rfl, hb⟩
          rw [enc_setEnc]
          split
          · rename_i hk
            subst hk
            exact ⟨Nat.le_refl _, id⟩
          · exact ⟨Nat.le_refl _, id⟩
      obtain ⟨⟨h1, h2, h3, -, h5, h6⟩, h7⟩ := hu
      have hk : ∀ v : State, v.params = u.params → v.evt = u.evt → v.psMode = u.psMode → v.busy = u.busy →
          v.todo = u.todo → v.encs = u.encs → v.phase = u.phase → v.ix = u.ix → v.jx = u.jx → CommandFrame s v := by
        intro v a1 a2 a3 a4 a5 a6 a7 a8 a9
        rcases h6 hb with ⟨b1, b2, b3, b4, b5⟩ | ⟨b1, -⟩
        · refine .of_eqs (a1.trans h1) (a2.trans h2) (a3.trans h3) (fun h => by rw [hb] at h; cases h)
            (a4.trans (b1.trans hb.symm)) (a5.trans b2) (fun e => ?_) (a7.trans b3) (a8.trans b4) (a9.trans b5)
          rw [enc_congr a6]
          exact h5 e
        · rw [h7] at b1
          cases b1
      split
      · exact hk _ rfl rfl rfl rfl rfl rfl rfl rfl rfl
      · exact hk _ rfl rfl rfl rfl rfl rfl rfl rfl rfl
  · rcases begin_cases hx with rfl | ⟨hb, rfl⟩
    · exact .responds _ _
    · refine ⟨rfl, rfl, rfl, fun h => (by rw [hb] at h; cases h), .of_encs rfl,
        fun _ => .inr ⟨rfl, [uopTask 0x01#5 none], .afterValidate, rfl, trivial, ?_⟩⟩
      intro k hk
      simp at hk
      subst hk
      exact ⟨rfl, by decide⟩
  · rcases tryUpdate_cases hx with ⟨st, rfl⟩ | ⟨h1, h2, rfl⟩
    · exact .responds _ _
    · exact acceptUpdate_frame h2
  · rcases update_cases hx with rfl | ⟨_, rfl⟩ | ⟨h1, h2, rfl⟩
    · exact .responds _ _
    · exact .of_eqs rfl rfl rfl (fun _ => rfl) rfl rfl (.of_encs rfl) rfl rfl rfl
    · exact acceptUpdate_frame h2
  · simp only [exec, execClearError] at hx
    cases hx
    exact .of_eqs rfl rfl rfl (fun _ => rfl) rfl rfl (.of_encs rfl) rfl rfl rfl

/-- What any operation of the work list does to the configuration, the power mode and the error counters. -/
structure WordFrame (i : Instr) (s t : State) : Prop where
  params   : t.params = s.params
  cfg      : s.busy = true → t.cfg = s.cfg
  psMode   : PsChange i s t
  counters : i ≠ .uStateInit → CountersKept s t

theorem WordFrame.of_inner {i : Instr} {s t : State} (h : InnerFrame i s t) : WordFrame i s t :=
  ⟨h.params, fun _ => h.cfg, h.psMode, h.counters⟩

theorem WordFrame.of_present {i : Instr} {s : State} (w : BitVec 32) : WordFrame i s (present w s) :=
  ⟨rfl, fun _ => rfl, fun h => absurd rfl h, fun _ => .of_encs rfl⟩

/-- Whatever word the work list holds. -/
theorem exec_word {f : Fmt} {w : BitVec 64} {i : Instr} (hd : decode f w = .ok i) {s t : State}
    (hx : exec i s = .next t) : WordFrame i s t := by
  have hp : Plain i → WordFrame i s t := by
    intro hp
    obtain ⟨u, hu, hc⟩ := exec_plain hp s
    rw [hu] at hx
    cases hx
    exact .of_inner (.of_chain hc)
  rcases decode_formats hd with rfl | ⟨n, rfl, rfl, hn, hu⟩ | ⟨hf, h⟩ | ⟨rfl, v, hv⟩
  · obtain ⟨u, hu, hc⟩ := exec_command hd s
    rw [hu] at hx
    cases hx
    exact ⟨hc.params, fun hb => (hc.whenBusy hb).1, fun h => absurd hc.psMode h, fun _ => hc.counters⟩
  · rcases uop_kinds hn hu with ⟨-, hin⟩ | h | rfl
    · obtain ⟨u, hu', hf⟩ := exec_inner hin s
      rw [hu'] at hx
      cases hx
      exact .of_inner hf
    · exact hp h
    · rcases emit_cases hx with rfl | ⟨w, rfl⟩
      · exact .of_inner (.of_chain (.refl _))
      · exact .of_present w
  · exact hp h
  · rw [hv] at hx
    cases hx
    exact .of_present v

/-- What a task without a word does to them. -/
theorem settleTask_frame (k : Task) (s : State) :
    (settleTask k s).params = s.params ∧ (settleTask k s).cfg = s.cfg ∧
    ((settleTask k s).psMode ≠ s.psMode → k = .beginEnd ∧ (settleTask k s).psMode = false) ∧
    CountersKept s (settleTask k s) := by
  have hc : ∀ t, Chain s t → t.params = s.params ∧ t.cfg = s.cfg ∧ (t.psMode ≠ s.psMode → k = .beginEnd ∧ t.psMode = false) ∧
      CountersKept s t :=
    fun t h => ⟨h.params, h.cfg, fun hn => absurd h.psMode hn, h.counters⟩
  cases k with
  | op f w item => exact hc _ (.refl _)
  | matCols n => exact hc _ (chain_matDebFrom _ _)
  | expLanes n => exact hc _ (chain_expDebFrom _ _)
  | commitRest => exact hc _ (chain_commitRest _)
  | afterGate => exact ⟨rfl, rfl, fun h => absurd rfl h, .of_encs rfl⟩
  | afterValidate =>
    simp only [settleTask]
    split
    · exact ⟨rfl, rfl, fun h => absurd rfl h, .of_encs rfl⟩
    · exact ⟨rfl, rfl, fun h => absurd rfl h, .of_encs rfl⟩
  | beginEnd => exact ⟨rfl, rfl, fun _ => ⟨rfl, rfl⟩, .of_encs rfl⟩
  | cycleEnd => exact ⟨rfl, rfl, fun h => absurd rfl h, .of_encs rfl⟩

end Sys2Proof.Machine
end

