-- ==== Sys2Proof/Laws/Loops.lean ====
section
/-! SUPPORT. The loops of the micro-operations, said once: what U_STATEINIT writes, what U_MAT_ROW latches, what
U_EXP_INIT sends. -/

namespace Sys2Proof.Machine

open Sys2Proof.Safety

/-- A byte as an index. -/
theorem eq_ofNat_iff {n : Nat} (hn : n < 256) (i : Byte) : i = BitVec.ofNat 8 n ↔ i.toNat = n := by
  constructor
  · rintro rfl; simp; omega
  · intro h; apply BitVec.eq_of_toNat_eq; simp [h]; omega

theorem afterPin_fields (e : Env) : e.afterPin = { e with pinIn := e.afterPin.pinIn, draws := e.afterPin.draws } := by
  unfold Env.afterPin
  split <;> rfl

theorem afterEnd_fields (e : Env) : e.afterEnd = { e with endIn := e.afterEnd.endIn, draws := e.afterEnd.draws } := by
  unfold Env.afterEnd
  split <;> rfl

/-! ## U_STATEINIT (47_host_commands.md R268) -/

/-- One row of cells. -/
theorem setCells_row (r : Byte) (l : Line) (n : Nat) (hn : n ≤ 256) (u : State) :
    let t := forAsc n (fun c v => setCell r (BitVec.ofNat 8 c) l v) u
    (∀ i j, t.cell i j = if i = r ∧ j.toNat < n then l else u.cell i j) ∧ t = { u with cells := t.cells } := by
  dsimp only
  induction n with
  | zero => simp [forAsc]
  | succ n ih =>
    obtain ⟨h1, h2⟩ := ih (by omega)
    simp only [forAsc]
    generalize forAsc n _ u = w at *
    refine ⟨?_, ?_⟩
    · intro i j
      simp only [cell_setCell, h1, eq_ofNat_iff (show n < 256 by omega)]
      by_cases hi : i = r <;> by_cases hj : j.toNat = n <;> by_cases hl : j.toNat < n <;> simp [hi, hj, hl] <;> omega
    · rw [h2]; rfl

/-- A block of cells. -/
theorem setCells_block (l : Line) (m n : Nat) (hm : m ≤ 256) (hn : n ≤ 256) (u : State) :
    let t := forAsc m (fun r t => forAsc n (fun c v => setCell (BitVec.ofNat 8 r) (BitVec.ofNat 8 c) l v) t) u
    (∀ i j, t.cell i j = if i.toNat < m ∧ j.toNat < n then l else u.cell i j) ∧ t = { u with cells := t.cells } := by
  dsimp only
  induction m with
  | zero => simp [forAsc]
  | succ m ih =>
    obtain ⟨h1, h2⟩ := ih (by omega)
    simp only [forAsc]
    generalize forAsc m _ u = w at *
    obtain ⟨g1, g2⟩ := setCells_row (BitVec.ofNat 8 m) l n hn w
    refine ⟨?_, ?_⟩
    · intro i j
      simp only [g1, h1, eq_ofNat_iff (show m < 256 by omega)]
      by_cases hi : i.toNat = m <;> by_cases hj : j.toNat < n <;> by_cases hl : i.toNat < m <;> simp [hi, hj, hl] <;> omega
    · rw [g2, h2]

/-- The first GPIO lines. -/
theorem setGpioLines_block (l : Line) (n : Nat) (hn : n ≤ 256) (u : State) :
    let t := forAsc n (fun c v => setGpioLine (BitVec.ofNat 8 c) l v) u
    (∀ i, t.gpioLine i = if i.toNat < n then l else u.gpioLine i) ∧ t = { u with gpioLines := t.gpioLines } := by
  dsimp only
  induction n with
  | zero => simp [forAsc]
  | succ n ih =>
    obtain ⟨h1, h2⟩ := ih (by omega)
    simp only [forAsc]
    generalize forAsc n _ u = w at *
    refine ⟨?_, ?_⟩
    · intro i
      simp only [gpioLine_setGpioLine, h1, eq_ofNat_iff (show n < 256 by omega)]
      by_cases hj : i.toNat = n <;> by_cases hl : i.toNat < n <;> simp [hj, hl] <;> omega
    · rw [h2]; rfl

/-- The first expanders. -/
theorem setExps_block (l : Exp) (n : Nat) (hn : n ≤ 256) (u : State) :
    let t := forAsc n (fun c v => setExp (BitVec.ofNat 8 c) l v) u
    (∀ i, t.exp i = if i.toNat < n then l else u.exp i) ∧ t = { u with exps := t.exps } := by
  dsimp only
  induction n with
  | zero => simp [forAsc]
  | succ n ih =>
    obtain ⟨h1, h2⟩ := ih (by omega)
    simp only [forAsc]
    generalize forAsc n _ u = w at *
    refine ⟨?_, ?_⟩
    · intro i
      simp only [exp_setExp, h1, eq_ofNat_iff (show n < 256 by omega)]
      by_cases hj : i.toNat = n <;> by_cases hl : i.toNat < n <;> simp [hj, hl] <;> omega
    · rw [h2]; rfl

/-- The first encoders: two pins each, A before B. -/
theorem initEncs_block (n : Nat) (hn : n ≤ 256) (u : State) :
    let t := forAsc n (fun e t => initEnc (BitVec.ofNat 8 e) t) u
    (∀ e, t.enc e = if e.toNat < n then
        freshEnc (BitVec.ofBool (u.env.pinAnswer (2 * e.toNat)) ++ BitVec.ofBool (u.env.pinAnswer (2 * e.toNat + 1))) u.tCycle
      else u.enc e) ∧
    Issued ((List.range n).flatMap fun e =>
      [.pinRead (u.cfg.encPinAAt (BitVec.ofNat 8 e)), .pinRead (u.cfg.encPinBAt (BitVec.ofNat 8 e))]) u t ∧
    (∀ k, t.env.pinAnswer k = u.env.pinAnswer (2 * n + k)) ∧
    t = { u with encs := t.encs, out := t.out, env.pinIn := t.env.pinIn, env.draws := t.env.draws } := by
  dsimp only
  induction n with
  | zero => simp [forAsc, issued_nil]
  | succ n ih =>
    obtain ⟨h1, h2, h3, h4⟩ := ih (by omega)
    simp only [forAsc]
    generalize forAsc n _ u = w at *
    have hc : w.cfg = u.cfg := by rw [h4]
    have ht : w.tCycle = u.tCycle := by rw [h4]
    refine ⟨?_, ?_, ?_, ?_⟩
    · intro e
      have e0 : (pinRead (w.cfg.encPinBAt (BitVec.ofNat 8 n)) (pinRead (w.cfg.encPinAAt (BitVec.ofNat 8 n)) w)).enc e =
          w.enc e := rfl
      simp only [initEnc, enc_setEnc, eq_ofNat_iff (show n < 256 by omega)]
      have e1 : (pinRead (w.cfg.encPinAAt (BitVec.ofNat 8 n)) w).env.pinAnswer 0 =
          w.env.pinAnswer 1 := by simp [pinRead, request]
      by_cases he : e.toNat = n
      · simp only [he, if_true, encState, e1, h3, ht]; rw [if_pos (by omega)]; rfl
      · simp only [he, if_false]
        have : (pinRead ((pinRead (w.cfg.encPinAAt (BitVec.ofNat 8 n)) w).cfg.encPinBAt (BitVec.ofNat 8 n))
            (pinRead (w.cfg.encPinAAt (BitVec.ofNat 8 n)) w)).enc e = w.enc e := rfl
        rw [e0, h1]
        by_cases hl : e.toNat < n <;> [rw [if_pos hl, if_pos (by omega)]; rw [if_neg hl, if_neg (by omega)]]
    · rw [List.range_succ, List.flatMap_append]
      have := issued_append h2 (issued_append (pinRead_issued (w.cfg.encPinAAt (BitVec.ofNat 8 n)) w)
          (pinRead_issued (w.cfg.encPinBAt (BitVec.ofNat 8 n)) _))
      rw [hc] at this
      refine ⟨?_, ?_⟩
      · simpa [initEnc, hc] using this.1
      · simpa [initEnc, hc, State.pin] using this.2
    · intro k
      have : (initEnc (BitVec.ofNat 8 n) w).env = w.env.afterPin.afterPin := rfl
      rw [this, pinAnswer_afterPin, pinAnswer_afterPin, h3]; congr 1; omega
    · have : initEnc (BitVec.ofNat 8 n) w = {
          w with
            encs := (initEnc (BitVec.ofNat 8 n) w).encs, out := (initEnc (BitVec.ofNat 8 n) w).out,
            env.pinIn := (initEnc (BitVec.ofNat 8 n) w).env.pinIn,
            env.draws := (initEnc (BitVec.ofNat 8 n) w).env.draws } := by
        have : (initEnc (BitVec.ofNat 8 n) w).env = w.env.afterPin.afterPin := rfl
        rw [this]
        have q : w.env.afterPin.afterPin = {w.env with pinIn := w.env.afterPin.afterPin.pinIn,
                                                       draws := w.env.afterPin.afterPin.draws} := by
          rw [afterPin_fields w.env.afterPin, afterPin_fields w.env]
        simp only [initEnc, setEnc, pinRead, request]
        rw [q]
      rw [this, h4]

/-! ## U_MAT_ROW (42_matrix.md R152) -/

/-- The columns latched, one after the other. -/
theorem latchColumns_block (s : State) : ∀ (n : Nat) (u : State), u.cfg = s.cfg →
      Issued ((List.range n).map (fun c => .pinRead (s.cfg.colPinAt (BitVec.ofNat 8 c)))) u (forAsc n latchColumn u) ∧
      (∀ c, (forAsc n latchColumn u).latchedLevel c = if c < n then u.env.pinAnswer c else u.latchedLevel c) ∧
      (∀ k, (forAsc n latchColumn u).env.pinAnswer k = u.env.pinAnswer (n + k)) ∧
      forAsc n latchColumn u = {
        u with
          colLatch := (forAsc n latchColumn u).colLatch, out := (forAsc n latchColumn u).out,
          env.pinIn := (forAsc n latchColumn u).env.pinIn, env.draws := (forAsc n latchColumn u).env.draws } := by
  intro n u hu
  induction n with
  | zero => exact ⟨issued_nil u, by simp [forAsc], by simp [forAsc], rfl⟩
  | succ n ih =>
    obtain ⟨h1, h2, h3, h4⟩ := ih
    have hc : (forAsc n latchColumn u).cfg = s.cfg := by rw [h4]; exact hu
    simp only [forAsc]
    generalize forAsc n latchColumn u = w at *
    refine ⟨?_, ?_, ?_, ?_⟩
    · rw [List.range_succ, List.map_append]
      have := issued_append h1 (pinRead_issued (s.cfg.colPinAt (BitVec.ofNat 8 n)) w)
      refine ⟨?_, ?_⟩
      · simpa [latchColumn, hc] using this.1
      · simpa [latchColumn, hc, State.pin] using this.2
    · intro c
      simp only [latchColumn, latchedLevel_setColLatch]
      have h30 := h3 0
      by_cases hcn : c = n
      · subst hcn; simp [h30]
      · have : (pinRead (w.cfg.colPinAt (BitVec.ofNat 8 n)) w).latchedLevel c = w.latchedLevel c := rfl
        simp only [hcn, if_false, this, h2]
        by_cases c < n <;> [rw [if_pos (by assumption), if_pos (by omega)]; rw [if_neg (by assumption), if_neg (by omega)]]
    · intro k
      simp only [latchColumn, setColLatch_env, pinRead, request, pinAnswer_afterPin, h3]
      congr 1; omega
    · have : latchColumn n w = {
          w with
            colLatch := (latchColumn n w).colLatch, out := (latchColumn n w).out,
            env.pinIn := (latchColumn n w).env.pinIn, env.draws := (latchColumn n w).env.draws } := by
        simp only [latchColumn, setColLatch, pinRead, request]
        rw [afterPin_fields]
      rw [this, h4]

/-! ## U_EXP_INIT (45_expander.md R204) -/

/-- The writes whose condition holds, up to the first that fails. -/
theorem expInitWrites_sends (d : Byte) (x : ExpCfg) (l : List InitWrite) (s : State) :
    let writes := l.filter fun w => InitCond.holds w.cond x
    let frames (l : List InitWrite) : List Request := l.flatMap fun w =>
      [.busBegin x.addr, .busWrite w.reg, .busWrite w.value, .busEnd]
    let Sends (l : List InitWrite) (u : State) := Issued (frames l) s u ∧
      u = { s with out := u.out, call.status := u.call.status, env.endIn := u.env.endIn, env.draws := u.env.draws }
    ((∀ k, k < writes.length → s.env.endAnswer k = 0#8) → Sends writes (expInitWrites d x l s)) ∧
    (∀ k, k < writes.length → (∀ m, m < k → s.env.endAnswer m = 0#8) → s.env.endAnswer k ≠ 0#8 →
      ∃ u, Sends (writes.take (k + 1)) u ∧ Raised .busError d (s.env.endAnswer k) u (expInitWrites d x l s)) := by
  intro writes frames Sends
  induction l generalizing s with
  | nil =>
    refine ⟨fun _ => ⟨issued_nil s, rfl⟩, ?_⟩
    intro k hk; simp [writes] at hk
  | cons w l ih =>
    by_cases hw : InitCond.holds w.cond x = true
    · have hwr : writes = w :: l.filter fun w => InitCond.holds w.cond x := by simp [writes, hw]
      have step1 : Issued [.busBegin x.addr, .busWrite w.reg, .busWrite w.value,
          .busEnd] s (writeRegFrame x.addr w.reg w.value s) := by
        refine ⟨rfl, fun p => ?_⟩
        simp [writeRegFrame, busEnd, request, State.pin, driveAfter]
      have fr : writeRegFrame x.addr w.reg w.value s = {
          s with
            out := (writeRegFrame x.addr w.reg w.value s).out,
            call.status := (writeRegFrame x.addr w.reg w.value s).call.status,
            env.endIn := (writeRegFrame x.addr w.reg w.value s).env.endIn,
            env.draws := (writeRegFrame x.addr w.reg w.value s).env.draws } := by
        simp only [writeRegFrame, busEnd, request]
        rw [afterEnd_fields]
      have st : (writeRegFrame x.addr w.reg w.value s).call.status = s.env.endAnswer 0 := rfl
      have sh : ∀ k, (writeRegFrame x.addr w.reg w.value s).env.endAnswer k = s.env.endAnswer (k + 1) := by
        intro k; simp [writeRegFrame, busEnd, request]
      simp only [expInitWrites, hw, if_true, st]
      generalize writeRegFrame x.addr w.reg w.value s = s1 at *
      obtain ⟨i1, i2⟩ := ih s1
      constructor
      · intro hk
        have h0 := hk 0 (by simp [hwr])
        rw [if_pos h0]
        obtain ⟨j1, j2⟩ := i1 (fun k hk' => by rw [sh]; exact hk (k + 1) (by simp [hwr]; exact hk'))
        refine ⟨?_, ?_⟩
        · rw [hwr]; exact issued_append step1 j1
        · rw [j2, fr]
      · intro k hk hlt hne
        cases k with
        | zero =>
          rw [if_neg hne]
          refine ⟨s1, ⟨?_, ?_⟩, ?_⟩
          · rw [hwr]; simpa [frames] using step1
          · exact fr
          · exact callRaise_raised _ _ _ _
        | succ k =>
          have h0 := hlt 0 (by omega)
          rw [if_pos h0]
          obtain ⟨u, ⟨j1, j2⟩, j3⟩ := i2 k (by simp [hwr] at hk; exact hk)
            (fun m hm => by rw [sh]; exact hlt (m + 1) (by omega)) (by rw [sh]; exact hne)
          refine ⟨u, ⟨?_, ?_⟩, ?_⟩
          · rw [hwr]; exact issued_append step1 j1
          · rw [j2, fr]
          · rw [← sh]; exact j3
    · have hwr : writes = l.filter fun w => InitCond.holds w.cond x := by simp [writes, hw]
      rw [hwr]
      simp only [expInitWrites]
      rw [if_neg hw]
      exact ih s

end Sys2Proof.Machine
end

