-- ==== Sys2Proof/Laws/Operands.lean ====
section
/-! SUPPORT. The addresses of the host registers, and what RD and WR do once the address is resolved. -/

namespace Sys2Proof.Machine

open Sys2Proof.Safety

theorem scalarReg_isSome (i j : Byte) (r : HostReg) : (scalarReg i j r).isSome = true ↔ i = 0#8 ∧ j = 0#8 := by
  unfold scalarReg
  split <;> simp_all

theorem indexedReg_isSome (l i j : Byte) (r : HostReg) : (indexedReg l i j r).isSome = true ↔ OneIndex l i j := by
  unfold indexedReg OneIndex
  split <;> simp_all

theorem doubleReg_isSome (a b : Nat) (i j : Byte) (r : HostReg) :
    (doubleReg a b i j r).isSome = true ↔ i.toNat < a ∧ j.toNat < b := by
  unfold doubleReg
  split <;> simp_all

theorem indexedReg_eq {l i : Byte} (h : i.toNat < l.toNat) (r : HostReg) : indexedReg l i 0#8 r = some r := by
  simp [indexedReg, h]

theorem doubleReg_eq {a b : Nat} {i j : Byte} (h : i.toNat < a) (h' : j.toNat < b) (r : HostReg) :
    doubleReg a b i j r = some r := by
  simp [doubleReg, h, h']

/-- The four blocks of register numbers: scalar configuration (10_state.md R30), tables (R32, R34, R35), status (R38) and
read-back (R39). -/
theorem named_blocks {p : Params} {reg i j : Byte} (h : Named p reg i j) :
    reg.toNat ≤ 0x0B ∨ (0x10 ≤ reg.toNat ∧ reg.toNat ≤ 0x18) ∨ (0x20 ≤ reg.toNat ∧ reg.toNat ≤ 0x23) ∨
    (0x30 ≤ reg.toNat ∧ reg.toNat ≤ 0x3D) := by
  simp only [Named, ← BitVec.toNat_inj, BitVec.toNat_ofNat] at h
  omega

/-- The resolver names exactly the addresses of `Named`. -/
theorem named_iff (p : Params) (reg i j : Byte) : Named p reg i j ↔ (resolve p reg i j).isSome = true := by
  have hr : ∀ {n : Nat}, reg.toNat = n → reg = BitVec.ofNat 8 n := by
    intro n h
    rw [← h]
    simp
  unfold resolve
  split
  all_goals first
    | (rename_i h; rw [hr h]; simp [Named, scalarReg_isSome, indexedReg_isSome, doubleReg_isSome])
    | skip
  case _ =>
    simp only [Option.isSome_none, Bool.false_eq_true, iff_false]
    simp only [imp_false] at *
    intro h
    have := named_blocks h
    omega

/-- The registers from 0x20 up are read-only; `ENC_POSITION` and the registers from 0x30 up are racy (10_state.md R36). -/
theorem resolve_kind {p : Params} {reg i j : Byte} {r : HostReg} (h : resolve p reg i j = some r) :
    ((reg.toNat = 0x18 ∨ 0x30 ≤ reg.toNat) → r.racy = true) ∧
    (0x20 ≤ reg.toNat → ∀ imm s, writeReg r imm s = none) := by
  have h1 : ∀ {x : HostReg}, scalarReg i j x = some r → x = r := by
    intro x hx
    unfold scalarReg at hx
    split at hx <;> simp_all
  have h2 : ∀ {l : Byte} {x : HostReg}, indexedReg l i j x = some r → x = r := by
    intro l x hx
    unfold indexedReg at hx
    split at hx <;> simp_all
  have h3 : ∀ {a b : Nat} {x : HostReg}, doubleReg a b i j x = some r → x = r := by
    intro a b x hx
    unfold doubleReg at hx
    split at hx <;> simp_all
  unfold resolve at h
  split at h
  all_goals first
    | cases h
    | (rename_i hreg
       rw [hreg]
       first
         | obtain rfl := h1 h
         | obtain rfl := h2 h
         | obtain rfl := h3 h
       exact ⟨fun hr => by first | rfl | (exfalso; omega), fun hr => by first | (intro _ _; rfl) | (exfalso; omega)⟩)

/-- RD of a register that is not racing. -/
theorem rd_answers {s : State} {reg i j : Byte} {r : HostReg} (h : resolve s.params reg i j = some r)
    (hr : racingRead r s = false) : Reads s reg i j (regValue r s) := by
  have : execRd reg i j s = .next (respond .ok (regValue r s) s) := by simp [execRd, h, hr]
  exact this

/-- A racing RD. -/
theorem rd_races {s : State} {reg i j : Byte} {r : HostReg} (h : resolve s.params reg i j = some r)
    (hr : racingRead r s = true) :
    exec (.rd reg i j) s =
      .next (respond .ok (Config.freeRead s.env.draws) { s with env.draws := s.env.draws + 1 }) := by
  have : execRd reg i j s =
      .next (respond .ok (Config.freeRead s.env.draws) { s with env.draws := s.env.draws + 1 }) := by simp [execRd, h, hr]
  exact this

/-- A register that is not racy never races; no register does in an idle engine or while a record waits. -/
theorem racingRead_of_not_racy {s : State} {r : HostReg} (h : r.racy = false) : racingRead r s = false := by
  simp [racingRead, h]

theorem racingRead_of_quiet {s : State} (r : HostReg) (h : s.busy = false ∨ s.evt ≠ none) : racingRead r s = false := by
  rcases h with h | h
  · simp [racingRead, h]
  · have : s.evt.isNone = false := by cases hh : s.evt <;> simp_all
    simp [racingRead, this]

/-- WR that the register refuses. -/
theorem wr_refused {s : State} {reg i j : Byte} {r : HostReg} {imm : Word} (hb : s.busy = false)
    (h1 : resolve s.params reg i j = some r) (h2 : writeReg r imm s = none) : Answers (.wr reg i j imm) s .error 0#32 := by
  have : execWr reg i j imm s = .next (respond .error 0#32 s) := by simp [execWr, hb, h1, h2]
  exact this

/-- WR that the register accepts. -/
theorem wr_accepted {s t : State} {reg i j : Byte} {r : HostReg} {imm : Word} (hb : s.busy = false)
    (h1 : resolve s.params reg i j = some r) (h2 : writeReg r imm s = some t) :
    Writes s reg i j imm (if r.structural = true then { t with initialized := false } else t) := by
  have : execWr reg i j imm s =
      .next (respond .ok 0#32 (if r.structural = true then { t with initialized := false } else t)) := by
    simp [execWr, hb, h1, h2]
  exact this

/-- The legal counts (10_state.md R30). -/
theorem legalCount_some {l : Byte} {imm : Word} (h : (imm.extractLsb' 0 8).toNat ≤ l.toNat) :
    legalCount l imm = some (imm.extractLsb' 0 8) := by
  unfold legalCount
  dsimp only
  rw [if_pos h]

theorem legalCount_none {l : Byte} {imm : Word} (h : l.toNat < (imm.extractLsb' 0 8).toNat) : legalCount l imm = none := by
  unfold legalCount
  dsimp only
  rw [if_neg (by omega)]

/-- A table indexed by a byte, after one of its entries is written. -/
theorem get_put_byte {α : Type} [DecidableEq α] (d : α) (t : Table α) (i k : Byte) (x : α) :
    Table.get d (Table.put d t i.toNat x) k.toNat = if k = i then x else Table.get d t k.toNat := by
  simp only [Table.get_put, BitVec.toNat_inj]

end Sys2Proof.Machine
end

