-- ==== Sys2Proof/Laws/PerInstr.lean ====
section
/-! SUPPORT. One lemma per operation: the encoded word lies within the width of its format (30_encoding.md R100). -/

namespace Sys2Proof.Laws.EncodingFormat

/-- The width in bits of a format (30_encoding.md R100). -/
def width : Fmt → Nat
  | .cmd64 => 64
  | .uop5  => 5
  | .bfW2  => 23
  | .bfW1  => 15
  | .bfR2  => 7
  | .evt32 => 32

/-- The encoded word of `i` has no bit above the width of its format. -/
def Statement (i : Instr) : Prop := (encode i).2.toNat < 2 ^ width (encode i).1

/-- A word of `n` bits in its 64-bit carrier stays below `2 ^ n`. -/
theorem carrier_lt {n : Nat} (h : n ≤ 64) (v : BitVec n) : (v.zeroExtend 64).toNat < 2 ^ n := by
  have h1 : (2 : Nat) ^ n ≤ 2 ^ 64 := Nat.pow_le_pow_right (by omega) h
  have h2 := v.isLt
  simp only [BitVec.truncate_eq_setWidth, BitVec.toNat_setWidth]
  rw [Nat.mod_eq_of_lt (by omega)]
  exact h2

theorem nop : Statement (.nop) := BitVec.isLt _
theorem rd (reg i j : Byte) : Statement (.rd reg i j) := BitVec.isLt _
theorem wr (reg i j : Byte) (imm : Word) : Statement (.wr reg i j imm) := BitVec.isLt _
theorem beginCmd : Statement (.beginCmd) := BitVec.isLt _
theorem tryUpdate : Statement (.tryUpdate) := BitVec.isLt _
theorem update : Statement (.update) := BitVec.isLt _
theorem clearError : Statement (.clearError) := BitVec.isLt _
theorem uIdle : Statement .uIdle := carrier_lt (show 5 ≤ 64 by decide) _
theorem uValidate : Statement .uValidate := carrier_lt (show 5 ≤ 64 by decide) _
theorem uPinInit : Statement .uPinInit := carrier_lt (show 5 ≤ 64 by decide) _
theorem uStateInit : Statement .uStateInit := carrier_lt (show 5 ≤ 64 by decide) _
theorem uExpInit : Statement .uExpInit := carrier_lt (show 5 ≤ 64 by decide) _
theorem uPsChk : Statement .uPsChk := carrier_lt (show 5 ≤ 64 by decide) _
theorem uPsEnter : Statement .uPsEnter := carrier_lt (show 5 ≤ 64 by decide) _
theorem uExpRead : Statement .uExpRead := carrier_lt (show 5 ≤ 64 by decide) _
theorem uExpDeb : Statement .uExpDeb := carrier_lt (show 5 ≤ 64 by decide) _
theorem uMatRow : Statement .uMatRow := carrier_lt (show 5 ≤ 64 by decide) _
theorem uMatDeb : Statement .uMatDeb := carrier_lt (show 5 ≤ 64 by decide) _
theorem uGpio : Statement .uGpio := carrier_lt (show 5 ≤ 64 by decide) _
theorem uEncStep : Statement .uEncStep := carrier_lt (show 5 ≤ 64 by decide) _
theorem uEncBtn : Statement .uEncBtn := carrier_lt (show 5 ≤ 64 by decide) _
theorem uFin : Statement .uFin := carrier_lt (show 5 ≤ 64 by decide) _
theorem uPsExit : Statement .uPsExit := carrier_lt (show 5 ≤ 64 by decide) _
theorem debounce : Statement .debounce := carrier_lt (show 5 ≤ 64 by decide) _
theorem raise : Statement .raise := carrier_lt (show 5 ≤ 64 by decide) _
theorem emit : Statement .emit := carrier_lt (show 5 ≤ 64 by decide) _
theorem bfWriteReg (a : BitVec 7) (r v : Byte) : Statement (.bfWriteReg a r v) := carrier_lt (show 23 ≤ 64 by decide) _
theorem bfSetPointer (a : BitVec 7) (r : Byte) : Statement (.bfSetPointer a r) := carrier_lt (show 15 ≤ 64 by decide) _
theorem bfRead2 (a : BitVec 7) : Statement (.bfRead2 a) := carrier_lt (show 7 ≤ 64 by decide) _
theorem evMatrix (p a b : Byte) (v : BitVec 4) : Statement (.evMatrix p a b v) := carrier_lt (show 32 ≤ 64 by decide) _
theorem evGpio (p a b : Byte) (v : BitVec 4) : Statement (.evGpio p a b v) := carrier_lt (show 32 ≤ 64 by decide) _
theorem evEncRotate (p a b : Byte) (v : BitVec 4) : Statement (.evEncRotate p a b v) := carrier_lt (show 32 ≤ 64 by decide) _
theorem evEncButton (p a b : Byte) (v : BitVec 4) : Statement (.evEncButton p a b v) := carrier_lt (show 32 ≤ 64 by decide) _
theorem evExpander (p a b : Byte) (v : BitVec 4) : Statement (.evExpander p a b v) := carrier_lt (show 32 ≤ 64 by decide) _
theorem evError (p a b : Byte) (v : BitVec 4) : Statement (.evError p a b v) := carrier_lt (show 32 ≤ 64 by decide) _

end Sys2Proof.Laws.EncodingFormat
end

