-- ==== Sys2Proof/Laws/Scan.lean ====
section
/-! SUPPORT. The scans of U_MAT_DEB and U_EXP_DEB as `Scanned`: a scan grows by one poll in front. -/

namespace Sys2Proof.Machine

open Sys2Proof.Safety

/-- No poll. -/
theorem scanned_zero (poll : Nat → State → State → Prop) (rest : Nat → Task) (s : State) : Scanned 0 poll rest s s :=
  ⟨0, fun _ => s, Nat.le_refl _, rfl, fun _ h => absurd h (Nat.not_lt_zero _), fun _ h => absurd h (by omega),
    .inl ⟨rfl, fun h => absurd h (by omega), rfl⟩⟩

/-- The first poll presents a record, and the scan stops. -/
theorem scanned_stop (n : Nat) (poll : Nat → State → State → Prop) (rest : Nat → Task) (s t : State) (h : poll 0 s t)
    (ho : t.out ≠ s.out) : Scanned (n + 1) poll rest s { t with todo := rest n :: t.todo } := by
  refine ⟨1, fun k => if k = 0 then s else t, by omega, rfl, ?_, fun k h => absurd h (by omega), .inr ⟨by omega, ho, rfl⟩⟩
  intro k hk
  have : k = 0 := by omega
  subst this
  exact h

/-- The first poll presents nothing, and the scan goes on. -/
theorem scanned_go (n : Nat) (poll : Nat → State → State → Prop) (rest : Nat → Task) (s t u : State) (h : poll 0 s t)
    (ho : t.out = s.out) (hs : Scanned n (fun k => poll (k + 1)) rest t u) : Scanned (n + 1) poll rest s u := by
  obtain ⟨m, w, hm, h0, hp, ho', hend⟩ := hs
  refine ⟨m + 1, fun k => match k with | 0 => s | k + 1 => w k, by omega, rfl, ?_, ?_, ?_⟩
  · intro k hk
    cases k with
    | zero => simpa [h0] using h
    | succ k => exact hp k (by omega)
  · intro k hk
    cases k with
    | zero => simpa [h0] using ho
    | succ k => exact ho' k (by omega)
  · rcases hend with ⟨e1, e2, e3⟩ | ⟨e1, e2, e3⟩
    · refine .inl ⟨by omega, fun _ => ?_, e3⟩
      cases m with
      | zero => simpa [h0] using ho
      | succ m => exact e2 (by omega)
    · refine .inr ⟨by omega, ?_, ?_⟩
      · cases m with
        | zero => omega
        | succ m => exact e2
      · rw [e3]; simp [Nat.add_sub_add_right]

theorem scanned_congr {n : Nat} {poll poll' : Nat → State → State → Prop} {rest : Nat → Task} {s t : State}
    (h : ∀ k x y, k < n → poll k x y → poll' k x y) (hs : Scanned n poll rest s t) : Scanned n poll' rest s t := by
  obtain ⟨m, w, hm, h0, hp, ho', hend⟩ := hs
  exact ⟨m, w, hm, h0, fun k hk => h k _ _ (by omega) (hp k hk), ho', hend⟩

/-- A poll presents a record exactly where the scan is suspended. -/
theorem polled_out {ref : LineRef} {r : Bool} {ch : Channel} {a b : Byte} {s t : State} (h : Polled ref r ch a b s t) :
    t.out = s.out ↔ t.suspended ch = false := by
  obtain ⟨_, _, _, _, h5, h6, _, h8⟩ := h
  have hc : t.cfg = s.cfg := by rw [h8]
  unfold State.suspended State.enabled
  rw [h6, hc]
  split at h5
  · rename_i hh; rw [h5.2, hh.1, hh.2]; simp
  · rename_i hh; rw [h5.2]; simp at hh ⊢; exact hh

/-- The last `n` columns. -/
theorem matDebFrom_scanned (n : Nat) (s : State) : MatrixScanned n s (matDebFrom n s) := by
  induction n generalizing s with
  | zero => exact scanned_zero _ _ _
  | succ n ih =>
    have hp := pollLine_polled (.cell s.ix (BitVec.ofNat 8 (s.cfg.numCols.toNat - (n + 1))))
        (!s.latchedLevel (s.cfg.numCols.toNat - (n + 1))) .matrix (by decide)
        s.ix (BitVec.ofNat 8 (s.cfg.numCols.toNat - (n + 1)))
        { s with jx := BitVec.ofNat 8 (s.cfg.numCols.toNat - (n + 1)) }
    simp only [matDebFrom]
    generalize hu : pollLine (.cell s.ix (BitVec.ofNat 8 (s.cfg.numCols.toNat - (n + 1))))
        (!s.latchedLevel (s.cfg.numCols.toNat - (n + 1))) .matrix s.ix (BitVec.ofNat 8 (s.cfg.numCols.toNat - (n + 1)))
        { s with jx := BitVec.ofNat 8 (s.cfg.numCols.toNat - (n + 1)) } = u at *
    have ho := polled_out hp
    split
    · rename_i hsus
      refine scanned_stop n _ _ s u ?_ ?_
      · simpa using hp
      · intro he; have := ho.1 he; simp [this] at hsus
    · rename_i hsus
      refine scanned_go n _ _ s u _ (by simpa using hp) (ho.2 (by simpa using hsus)) ?_
      have e : u.ix = s.ix ∧ u.cfg = s.cfg ∧ ∀ c, u.latchedLevel c = s.latchedLevel c := by
        rw [← hu]; simp [State.latchedLevel]
      refine scanned_congr ?_ (ih u)
      intro k x y hk hpoll
      dsimp only at hpoll ⊢
      rw [e.1, e.2.1, e.2.2] at hpoll
      rw [show n + 1 - (k + 1) = n - k by omega]
      exact hpoll

/-- The last `n` lanes. -/
theorem expDebFrom_scanned (n : Nat) (s : State) : LanesScanned n s (expDebFrom n s) := by
  induction n generalizing s with
  | zero => exact scanned_zero _ _ _
  | succ n ih =>
    have hp := pollLine_polled (.expLane s.ix (BitVec.ofNat 4 (16 - (n + 1)))) (!s.expWord.getLsbD (16 - (n + 1)))
        .expander (by decide) s.ix (BitVec.ofNat 8 (16 - (n + 1))) { s with jx := BitVec.ofNat 8 (16 - (n + 1)) }
    simp only [expDebFrom]
    generalize hu : pollLine (.expLane s.ix (BitVec.ofNat 4 (16 - (n + 1)))) (!s.expWord.getLsbD (16 - (n + 1)))
        .expander s.ix (BitVec.ofNat 8 (16 - (n + 1))) { s with jx := BitVec.ofNat 8 (16 - (n + 1)) } = u at *
    have ho := polled_out hp
    split
    · rename_i hsus
      refine scanned_stop n _ _ s u ?_ ?_
      · simpa using hp
      · intro he; have := ho.1 he; simp [this] at hsus
    · rename_i hsus
      refine scanned_go n _ _ s u _ (by simpa using hp) (ho.2 (by simpa using hsus)) ?_
      have e : u.ix = s.ix ∧ u.expWord = s.expWord := by
        rw [← hu]; simp
      refine scanned_congr ?_ (ih u)
      intro k x y hk hpoll
      dsimp only at hpoll ⊢
      rw [e.1, e.2] at hpoll
      rw [show n + 1 - (k + 1) = n - k by omega]
      exact hpoll

end Sys2Proof.Machine
end

