-- ==== Sys2Proof/Laws/Validate.lean ====
section
/-! SUPPORT. The searches of U_VALIDATE (47_host_commands.md R266), said once: what they find, and when they find nothing. -/

namespace Sys2Proof.Machine

/-- No slot has a pin that is not valid. -/
theorem firstInvalid_none {v : BitVec 256} {l : List Slot} (h : ∀ (k : Nat) (x : Slot), l[k]? = some x →
    v.getLsbD x.pin.toNat = true) : firstInvalid v l = none := by
  induction l with
  | nil => rfl
  | cons a l ih =>
    unfold firstInvalid
    rw [if_pos (h 0 a rfl)]
    exact ih fun k x hx => h (k + 1) x (by simpa using hx)

/-- The first slot whose pin is not valid. -/
theorem firstInvalid_some {v : BitVec 256} {l : List Slot} {k : Nat} {x : Slot} (hk : l[k]? = some x)
    (hx : v.getLsbD x.pin.toNat = false)
    (h : ∀ (m : Nat) (y : Slot), m < k → l[m]? = some y → v.getLsbD y.pin.toNat = true) :
    firstInvalid v l = some x := by
  induction l generalizing k with
  | nil => simp at hk
  | cons a l ih =>
    unfold firstInvalid
    cases k with
    | zero =>
      simp only [List.getElem?_cons_zero, Option.some.injEq] at hk
      subst hk
      rw [if_neg (by simp [hx])]
    | succ k =>
      rw [if_pos (h 0 a (Nat.succ_pos k) rfl)]
      exact ih (by simpa using hk) fun m y hm hy => h (m + 1) y (by omega) (by simpa using hy)

/-- No slot has the pin of an earlier one, or one of `seen`. -/
theorem firstConflict_none {seen : List Byte} {l : List Slot} (h1 : ∀ (m : Nat) (y : Slot), l[m]? = some y → y.pin ∉ seen)
    (h2 : ∀ (k m : Nat) (x y : Slot), k < m → l[k]? = some x → l[m]? = some y → x.pin ≠ y.pin) :
    firstConflict seen l = none := by
  induction l generalizing seen with
  | nil => rfl
  | cons a l ih =>
    unfold firstConflict
    rw [if_neg (h1 0 a rfl)]
    refine ih (fun m y hy hs => ?_) fun k m x y hk hx hy =>
      h2 (k + 1) (m + 1) x y (by omega) (by simpa using hx) (by simpa using hy)
    rcases List.mem_cons.1 hs with hs | hs
    · exact h2 0 (m + 1) a y (by omega) rfl (by simpa using hy) hs.symm
    · exact h1 (m + 1) y (by simpa using hy) hs

/-- The first slot whose pin is that of an earlier one, or one of `seen`. -/
theorem firstConflict_some {seen : List Byte} {l : List Slot} {m : Nat} {y : Slot} (hm : l[m]? = some y)
    (hy : y.pin ∈ seen ∨ ∃ (k : Nat) (x : Slot), k < m ∧ l[k]? = some x ∧ x.pin = y.pin)
    (h1 : ∀ (k : Nat) (x : Slot), k < m → l[k]? = some x → x.pin ∉ seen)
    (h2 : ∀ (j k : Nat) (w x : Slot), j < k → k < m → l[j]? = some w → l[k]? = some x → w.pin ≠ x.pin) :
    firstConflict seen l = some y := by
  induction l generalizing seen m with
  | nil => simp at hm
  | cons a l ih =>
    unfold firstConflict
    cases m with
    | zero =>
      simp only [List.getElem?_cons_zero, Option.some.injEq] at hm
      subst hm
      rcases hy with hy | ⟨k, -, hk, -⟩
      · rw [if_pos hy]
      · omega
    | succ m =>
      rw [if_neg (h1 0 a (Nat.succ_pos m) rfl)]
      refine ih (m := m) (by simpa using hm) ?_ (fun k x hk hx hs => ?_) fun j k w x hj hk hw hx =>
        h2 (j + 1) (k + 1) w x (by omega) (by omega) (by simpa using hw) (by simpa using hx)
      · rcases hy with hy | ⟨k, x, hk, hx, he⟩
        · exact .inl (List.mem_cons_of_mem _ hy)
        · cases k with
          | zero =>
            simp only [List.getElem?_cons_zero, Option.some.injEq] at hx
            subst hx
            exact .inl (by rw [← he]; exact List.mem_cons_self)
          | succ k => exact .inr ⟨k, x, by omega, by simpa using hx, he⟩
      · rcases List.mem_cons.1 hs with hs | hs
        · exact h2 0 (k + 1) a x (by omega) (by omega) rfl (by simpa using hx) hs.symm
        · exact h1 (k + 1) x (by omega) (by simpa using hx) hs

/-- Two entries of the list are equal. -/
theorem someEqual_iff {l : List (BitVec 7)} :
    someEqual l = true ↔ ∃ (j k : Nat) (a : BitVec 7), j < k ∧ l[j]? = some a ∧ l[k]? = some a := by
  induction l with
  | nil => simp [someEqual]
  | cons a l ih =>
    simp only [someEqual, Bool.or_eq_true, decide_eq_true_eq, ih]
    constructor
    · rintro (h | ⟨j, k, b, h, hj, hk⟩)
      · obtain ⟨k, hk⟩ := List.mem_iff_getElem?.1 h
        exact ⟨0, k + 1, a, by omega, rfl, by simpa using hk⟩
      · exact ⟨j + 1, k + 1, b, by omega, by simpa using hj, by simpa using hk⟩
    · rintro ⟨j, k, b, h, hj, hk⟩
      cases k with
      | zero => omega
      | succ k =>
        cases j with
        | zero =>
          simp only [List.getElem?_cons_zero, Option.some.injEq] at hj
          subst hj
          exact .inl (List.mem_iff_getElem?.2 ⟨k, by simpa using hk⟩)
        | succ j => exact .inr ⟨j, k, b, by omega, by simpa using hj, by simpa using hk⟩

/-- Two configured devices have the same address (R266, check 4). -/
theorem someEqual_expAddrs (c : HostCfg) :
    someEqual c.expAddrs = true ↔ ∃ d1 d2 : Byte, d1.toNat < d2.toNat ∧ d2.toNat < c.numExp.toNat ∧
      (c.expCfgAt d1).addr = (c.expCfgAt d2).addr := by
  have hn := c.numExp.isLt
  have hg : ∀ (k : Nat) (a : BitVec 7), c.expAddrs[k]? = some a ↔
      k < c.numExp.toNat ∧ (c.expCfgAt (BitVec.ofNat 8 k)).addr = a := by
    intro k a
    simp only [HostCfg.expAddrs, List.getElem?_map, Option.map_eq_some_iff]
    constructor
    · rintro ⟨x, hx, rfl⟩
      obtain ⟨h1, h2⟩ := List.getElem?_eq_some_iff.1 hx
      simp only [List.getElem_range] at h2
      subst h2
      exact ⟨by simpa using h1, rfl⟩
    · rintro ⟨h1, rfl⟩
      exact ⟨k, by simp [h1], rfl⟩
  rw [someEqual_iff]
  constructor
  · rintro ⟨j, k, a, h, hj, hk⟩
    obtain ⟨h1, h2⟩ := (hg _ _).1 hj
    obtain ⟨h3, h4⟩ := (hg _ _).1 hk
    refine ⟨BitVec.ofNat 8 j, BitVec.ofNat 8 k, ?_, ?_, by rw [h2, h4]⟩ <;> simp <;> omega
  · rintro ⟨d1, d2, h1, h2, h3⟩
    refine ⟨d1.toNat, d2.toNat, (c.expCfgAt d2).addr, h1, (hg _ _).2 ⟨by omega, ?_⟩, (hg _ _).2 ⟨h2, ?_⟩⟩
    · rw [← h3]; simp
    · simp

end Sys2Proof.Machine
end

