-- ==== Sys2Proof/Laws/Worklist.lean ====
section
/-! SUPPORT. The work list as a bound on what is left to do: each operation puts back less than what it takes, so that the
engine comes to an end. -/

namespace Sys2Proof.Machine

open Sys2Proof.Safety

/-! ## What each operation puts on the work list -/

theorem pinInit_todo (s : State) : (pinInit s).todo = s.todo := by
  unfold pinInit
  dsimp only
  rw [forAsc_view State.todo, forAsc_view State.todo, forAsc_view State.todo, forAsc_view State.todo]
  all_goals intro k u
  · rfl
  · rfl
  · rfl
  · split <;> rfl

theorem expInitWrites_todo (d : Byte) (x : ExpCfg) (l : List InitWrite) (s : State) :
    (expInitWrites d x l s).todo = s.todo := by
  induction l generalizing s with
  | nil => rfl
  | cons w rest ih =>
    unfold expInitWrites
    split
    · dsimp only
      split
      · rw [ih, writeRegFrame_todo]
      · rw [callRaise_todo, writeRegFrame_todo]
    · exact ih s

theorem waitData_todo (w0 : Word) (avail : List Byte) (s : State) : (waitData w0 avail s).todo = s.todo := by
  induction avail generalizing s with
  | nil =>
    simp only [waitData]
    split
    · rw [takeBytes_todo]; rfl
    · rfl
  | cons n rest ih =>
    simp only [waitData]
    split
    · rw [takeBytes_todo]; rfl
    · split
      · rfl
      · rw [ih]; rfl

theorem read2Frame_todo (a : BitVec 7) (s : State) : (read2Frame a s).todo = s.todo := waitData_todo _ _ _

theorem expRead_todo (s : State) : (expRead s).todo = s.todo := by
  unfold expRead
  dsimp only
  split
  · split
    · rw [callRaise_todo, read2Frame_todo, setPointerFrame_todo]
    · show (read2Frame _ _).todo = _
      rw [read2Frame_todo, setPointerFrame_todo]
  · rw [callRaise_todo, setPointerFrame_todo]

theorem matRow_todo (s : State) : (matRow s).todo = s.todo := by
  unfold matRow
  dsimp only
  show (forAsc _ _ _).todo = _
  rw [forAsc_view State.todo]
  · rfl
  · intro k u
    rfl

theorem stateInit_todo_eq (s : State) : (stateInit s).todo = s.todo := by
  unfold stateInit
  dsimp only
  rw [forAsc_view State.todo, forAsc_view State.todo, forAsc_view State.todo, forAsc_view State.todo]
  all_goals intro k u
  · rw [forAsc_view State.todo]
    intro _ _
    rfl
  · rfl
  · rfl
  · rfl

theorem psEnter_todo (s : State) : (psEnter s).todo = s.todo := by
  show (forAsc _ _ _).todo = _
  rw [forAsc_view State.todo]
  intro _ _
  rfl

theorem psExit_todo (s : State) : (psExit s).todo = s.todo := by
  show (forAsc _ _ _).todo = _
  rw [forAsc_view State.todo]
  intro _ _
  rfl

/-- The rest of a scan of `n` columns puts back a shorter one at most. -/
theorem matDebFrom_todo (n : Nat) (s : State) :
    (matDebFrom n s).todo = s.todo ∨ ∃ m, m < n ∧ (matDebFrom n s).todo = .matCols m :: s.todo := by
  induction n generalizing s with
  | zero => exact .inl rfl
  | succ n ih =>
    unfold matDebFrom
    dsimp only
    split
    · refine .inr ⟨n, Nat.lt_succ_self n, ?_⟩
      simp [pushTask]
    · rcases ih (pollLine (.cell s.ix (BitVec.ofNat 8 (s.cfg.numCols.toNat - (n + 1))))
        (!s.latchedLevel (s.cfg.numCols.toNat - (n + 1))) .matrix s.ix (BitVec.ofNat 8 (s.cfg.numCols.toNat - (n + 1)))
        { s with jx := BitVec.ofNat 8 (s.cfg.numCols.toNat - (n + 1)) }) with h | ⟨m, hm, h⟩
      · left; rw [h]; simp
      · right; exact ⟨m, by omega, by rw [h]; simp⟩

/-- The rest of a scan of `n` lanes puts back a shorter one at most. -/
theorem expDebFrom_todo (n : Nat) (s : State) :
    (expDebFrom n s).todo = s.todo ∨ ∃ m, m < n ∧ (expDebFrom n s).todo = .expLanes m :: s.todo := by
  induction n generalizing s with
  | zero => exact .inl rfl
  | succ n ih =>
    unfold expDebFrom
    dsimp only
    split
    · refine .inr ⟨n, Nat.lt_succ_self n, ?_⟩
      simp [pushTask]
    · rcases ih (pollLine (.expLane s.ix (BitVec.ofNat 4 (16 - (n + 1)))) (!s.expWord.getLsbD (16 - (n + 1))) .expander s.ix
        (BitVec.ofNat 8 (16 - (n + 1))) { s with jx := BitVec.ofNat 8 (16 - (n + 1)) }) with h | ⟨m, hm, h⟩
      · left; rw [h]; simp
      · right; exact ⟨m, by omega, by rw [h]; simp⟩

theorem commitRest_todo (s : State) : (commitRest s).todo = s.todo := by
  unfold commitRest
  dsimp only
  split
  · rw [callRaise_todo]; rfl
  · rfl

theorem commit_todo (d : Dir) (s : State) :
    (commit d s).todo = s.todo ∨ (commit d s).todo = .commitRest :: s.todo := by
  unfold commit
  dsimp only
  split
  · right; simp [pushTask]
  · left; rw [commitRest_todo, callEmit_todo]; rfl

theorem encStep_todo (s : State) : (encStep s).todo = s.todo ∨ (encStep s).todo = .commitRest :: s.todo := by
  unfold encStep
  dsimp only
  split
  · exact .inl rfl
  · split
    · exact .inl rfl
    · exact .inl rfl
    · split
      · rcases commit_todo _ (setEnc s.ix _ _) with h | h
        · exact .inl (h.trans rfl)
        · exact .inr (h.trans rfl)
      · exact .inl rfl

/-! ## The weight -/

/-- More than the number of steps that a task can still take, acknowledges not counted. -/
def weight : Task → Nat
  | .op .. => 300
  | .matCols n | .expLanes n => n + 1
  | .commitRest | .beginEnd | .cycleEnd => 1
  | .afterGate | .afterValidate => 1000000

/-- The weight of a work list. -/
def load (l : List Task) : Nat := (l.map weight).sum

@[simp] theorem load_nil : load [] = 0 := rfl
@[simp] theorem load_cons (k : Task) (l : List Task) : load (k :: l) = weight k + load l := by simp [load]
@[simp] theorem load_append (l l' : List Task) : load (l ++ l') = load l + load l' := by simp [load]

/-- A micro-operation inside a sequence puts back less than its own weight. -/
theorem exec_inner_load {i : Instr}
    (h : Plain i ∨ i = .uValidate ∨ i = .uStateInit ∨ i = .uPsEnter ∨ i = .uFin ∨ i = .uPsExit) {s t : State}
    (hx : exec i s = .next t) : load t.todo < load s.todo + 300 := by
  have eq : ∀ u : State, u.todo = s.todo → load u.todo < load s.todo + 300 := by
    intro u hu
    rw [hu]
    omega
  have one : ∀ (u : State) (k : Task), u.todo = k :: s.todo → weight k < 300 → load u.todo < load s.todo + 300 := by
    intro u k hu hk
    rw [hu, load_cons]
    omega
  rcases h with h | rfl | rfl | rfl | rfl | rfl
  · cases i with
    | uIdle => cases hx; exact eq _ rfl
    | uPinInit => cases hx; exact eq _ (pinInit_todo s)
    | uExpInit => cases hx; exact eq _ (expInitWrites_todo _ _ _ s)
    | uPsChk => cases hx; exact eq _ rfl
    | uExpRead => cases hx; exact eq _ (expRead_todo s)
    | uExpDeb =>
      simp only [exec, execUExpDeb] at hx
      split at hx
      · cases hx
        rcases expDebFrom_todo 16 s with h | ⟨m, hm, h⟩
        · exact eq _ h
        · exact one _ _ h (by show m + 1 < 300; omega)
      · cases hx; exact eq _ rfl
    | uMatRow => cases hx; exact eq _ (matRow_todo s)
    | uMatDeb =>
      cases hx
      have := s.cfg.numCols.isLt
      rcases matDebFrom_todo s.cfg.numCols.toNat s with h | ⟨m, hm, h⟩
      · exact eq _ h
      · exact one _ _ h (by show m + 1 < 300; omega)
    | uGpio => cases hx; exact eq _ (by rw [pollLine_todo]; rfl)
    | uEncStep =>
      cases hx
      rcases encStep_todo s with h | h
      · exact eq _ h
      · exact one _ _ h (by decide)
    | uEncBtn =>
      simp only [exec, execUEncBtn] at hx
      split at hx
      · cases hx; exact eq _ rfl
      · cases hx; exact eq _ (by rw [pollLine_todo]; rfl)
    | debounce => cases hx; exact eq _ (debounceOp_todo s)
    | raise => cases hx; exact eq _ (raiseOp_todo s)
    | bfWriteReg a r v => cases hx; exact eq _ (writeRegFrame_todo s a r v)
    | bfSetPointer a r => cases hx; exact eq _ (setPointerFrame_todo s a r)
    | bfRead2 a => cases hx; exact eq _ (read2Frame_todo a s)
    | _ => exact absurd h id
  · simp only [exec, execUValidate] at hx
    split at hx
    · cases hx; exact eq _ (by rw [callRaise_todo])
    · cases hx; exact eq _ rfl
  · cases hx; exact eq _ (stateInit_todo_eq s)
  · cases hx; exact eq _ (psEnter_todo s)
  · simp only [exec, execUFin] at hx
    split at hx
    · cases hx
      refine eq _ ?_
      split
      · rw [psExit_todo]
      · rfl
    · cases hx; exact eq _ rfl
  · cases hx; exact eq _ (psExit_todo s)

theorem load_itemTasks (n : Byte) (cs : List (BitVec 5)) : load (itemTasks n cs) = n.toNat * (300 * cs.length) := by
  unfold itemTasks
  generalize n.toNat = k
  induction k with
  | zero => simp
  | succ k ih =>
    have h : ∀ (x : Option Byte) (l : List (BitVec 5)), load (l.map fun c => uopTask c x) = 300 * l.length := by
      intro x l
      induction l with
      | nil => rfl
      | cons c l ih =>
        rw [List.map_cons, load_cons, ih, List.length_cons]
        show 300 + _ = _
        omega
    rw [List.range_succ, List.flatMap_append, load_append, ih, List.flatMap_singleton, h, Nat.add_mul, Nat.one_mul]

/-- The sequence of a cycle weighs less than its branch point. -/
theorem load_pollTasks (s : State) : load (pollTasks s) < 1000000 := by
  have h1 := s.cfg.numExp.isLt
  have h2 := s.cfg.numRows.isLt
  have h3 := s.cfg.numGpio.isLt
  have h4 := s.cfg.numEnc.isLt
  have h5 : load (if s.psMode then [] else itemTasks s.cfg.numRows [0x09#5, 0x0A#5]) ≤ s.cfg.numRows.toNat * 600 := by
    split
    · exact Nat.zero_le _
    · rw [load_itemTasks]
      exact Nat.le_refl _
  unfold pollTasks
  simp only [load_append, load_itemTasks, load_cons, load_nil, uopTask, weight, List.length_cons, List.length_nil]
  omega

theorem load_skipTasks : load skipTasks < 1000000 := by decide

theorem load_beginTasks (s : State) : load (beginTasks s) < 1000000 := by
  have h1 := s.cfg.numExp.isLt
  unfold beginTasks
  simp only [load_append, load_itemTasks, load_cons, load_nil, uopTask, weight, List.length_cons, List.length_nil]
  omega

end Sys2Proof.Machine
end

