-- ==== Sys2Proof/Tests/Slice0.lean ====
section
/-! SUPPORT. The model's own tests: the checks of WellFormed, decoded words, one step of each instruction, and for every
obligation with hypotheses a state that meets them. "V-..." names a vector of spec/95_test_vectors.md; the other expected
values are worked out by hand from the rules named. -/

namespace Sys2Proof.Tests

open Sys2Proof.Machine Sys2Proof.Safety

/-! ## WellFormed refuses an ill-formed term for each of its checks (30_encoding.md R110) -/

theorem test_wf_matrix_value : (Instr.evMatrix 0 0 0 2).wf = false := by decide
theorem test_wf_gpio_b : (Instr.evGpio 0 0 1 0).wf = false := by decide
theorem test_wf_gpio_value : (Instr.evGpio 0 0 0 8).wf = false := by decide
theorem test_wf_rotate_b : (Instr.evEncRotate 0 0 255 1).wf = false := by decide
theorem test_wf_rotate_none : (Instr.evEncRotate 0 0 0 0).wf = false := by decide
theorem test_wf_rotate_two : (Instr.evEncRotate 0 0 0 2).wf = false := by decide
theorem test_wf_button_b : (Instr.evEncButton 0 0 1 1).wf = false := by decide
theorem test_wf_button_value : (Instr.evEncButton 0 0 0 3).wf = false := by decide
theorem test_wf_expander_bit : (Instr.evExpander 0 0 16 1).wf = false := by decide
theorem test_wf_expander_value : (Instr.evExpander 0 0 15 2).wf = false := by decide
theorem test_wf_error_profile : (Instr.evError 1 0 0 7).wf = false := by decide
theorem test_wf_error_none : (Instr.evError 0 0 0 0).wf = false := by decide
theorem test_wf_error_expander_fault : (Instr.evError 0 0 0 5).wf = false := by decide
theorem test_wf_error_value : (Instr.evError 0 0 0 8).wf = false := by decide

/-! ## Decoding: words written out from 30_encoding.md R102, R108, R109, R110 -/

theorem test_decode_nop : decodeTableWord 64 0x0000000000000000 = some (.nop) := by decide
theorem test_decode_rd : decodeTableWord 64 0x013D020F00000000 = some (.rd 0x3D 2 15) := by decide
theorem test_decode_wr : decodeTableWord 64 0x02180100FFFFFFFE = some (.wr 0x18 1 0 0xFFFFFFFE) := by decide
theorem test_decode_begin : decodeTableWord 64 0x1000000000000000 = some (.beginCmd) := by decide
theorem test_decode_try_update : decodeTableWord 64 0x1100000000000000 = some (.tryUpdate) := by decide
theorem test_decode_update : decodeTableWord 64 0x1200000000000000 = some (.update) := by decide
theorem test_decode_clear_error : decodeTableWord 64 0x1300000000000000 = some (.clearError) := by decide
theorem test_decode_u_idle : decodeTableWord 5 0x00 = some (.uIdle) := by decide
theorem test_decode_u_validate : decodeTableWord 5 0x01 = some (.uValidate) := by decide
theorem test_decode_u_pin_init : decodeTableWord 5 0x02 = some (.uPinInit) := by decide
theorem test_decode_u_state_init : decodeTableWord 5 0x03 = some (.uStateInit) := by decide
theorem test_decode_u_exp_init : decodeTableWord 5 0x04 = some (.uExpInit) := by decide
theorem test_decode_u_ps_chk : decodeTableWord 5 0x05 = some (.uPsChk) := by decide
theorem test_decode_u_ps_enter : decodeTableWord 5 0x06 = some (.uPsEnter) := by decide
theorem test_decode_u_exp_read : decodeTableWord 5 0x07 = some (.uExpRead) := by decide
theorem test_decode_u_exp_deb : decodeTableWord 5 0x08 = some (.uExpDeb) := by decide
theorem test_decode_u_mat_row : decodeTableWord 5 0x09 = some (.uMatRow) := by decide
theorem test_decode_u_mat_deb : decodeTableWord 5 0x0A = some (.uMatDeb) := by decide
theorem test_decode_u_gpio : decodeTableWord 5 0x0B = some (.uGpio) := by decide
theorem test_decode_u_enc_step : decodeTableWord 5 0x0C = some (.uEncStep) := by decide
theorem test_decode_u_enc_btn : decodeTableWord 5 0x0D = some (.uEncBtn) := by decide
theorem test_decode_u_fin : decodeTableWord 5 0x0E = some (.uFin) := by decide
theorem test_decode_u_ps_exit : decodeTableWord 5 0x0F = some (.uPsExit) := by decide
theorem test_decode_debounce : decodeTableWord 5 0x10 = some (.debounce) := by decide
theorem test_decode_raise : decodeTableWord 5 0x11 = some (.raise) := by decide
theorem test_decode_emit : decodeTableWord 5 0x12 = some (.emit) := by decide
theorem test_decode_bf_write_reg : decodeTableWord 23 0x200CFF = some (.bfWriteReg 0x20 0x0C 0xFF) := by decide
theorem test_decode_bf_set_pointer : decodeTableWord 15 0x2112 = some (.bfSetPointer 0x21 0x12) := by decide
theorem test_decode_bf_read2 : decodeTableWord 7 0x21 = some (.bfRead2 0x21) := by decide
theorem test_decode_ev_matrix : decodeTableWord 32 0x10201031 = some (.evMatrix 2 1 3 1) := by decide
theorem test_decode_ev_gpio : decodeTableWord 32 0x20201001 = some (.evGpio 2 1 0 1) := by decide
theorem test_decode_ev_enc_rotate : decodeTableWord 32 0x30200003 = some (.evEncRotate 2 0 0 3) := by decide
theorem test_decode_ev_enc_button : decodeTableWord 32 0x40000001 = some (.evEncButton 0 0 0 1) := by decide
theorem test_decode_ev_expander : decodeTableWord 32 0x50001081 = some (.evExpander 0 1 8 1) := by decide
theorem test_decode_ev_error : decodeTableWord 32 0x60001026 = some (.evError 0 1 2 6) := by decide

theorem test_reject_op_03 : decodeTableWord 64 0x0300000000000000 = none := by decide
theorem test_reject_begin_imm : decodeTableWord 64 0x1000000000000001 = none := by decide
theorem test_reject_rd_imm : decodeTableWord 64 0x0120000000000001 = none := by decide
theorem test_reject_nop_field : decodeTableWord 64 0x0000000100000000 = none := by decide
theorem test_reject_uop_13 : decodeTableWord 5 0x13 = none := by decide
theorem test_reject_uop_1f : decodeTableWord 5 0x1F = none := by decide
theorem test_reject_channel_0 : decodeTableWord 32 0x00000001 = none := by decide
theorem test_reject_channel_7 : decodeTableWord 32 0x70000001 = none := by decide
theorem test_reject_channel_15 : decodeTableWord 32 0xF0000001 = none := by decide
theorem test_reject_wide_uop : decodeTableWord 5 0x20 = none := by decide
theorem test_reject_wide_address : decodeTableWord 7 0x80 = none := by decide

/-! ## The states of the tests -/

/-- An instance with capacities of 4, pins 0 to 63, threshold 2, a 10 ms bus timeout. -/
def params : Params where
  maxRows := 4
  maxCols := 4
  maxGpio := 4
  maxEnc := 4
  maxExp := 4
  malfunctionThreshold := 2
  expTimeoutMs := 10
  matrixSettleUs := 20
  speedIdleTimeoutMs := 1000
  encSettleState := 3
  pinValid := 0xFFFFFFFFFFFFFFFF#256
  expRegs := Config.defaultExpRegs
  expInit := Config.initTable Config.defaultExpRegs

/-- The instance right after `rst`. -/
def base : State := { State.reset with params := params }

/-- A configuration with every count at its capacity 4, profile 2 of 3 and all channels enabled. -/
def cfg : HostCfg :=
  { HostCfg.reset with
    profileCount := 3, activeProfile := 2, numRows := 4, numCols := 4, numGpio := 4, numEnc := 4, numExp := 4
    debounceMs := 50, evtEnable := 0x3F
    rowPin := [(0, 2), (1, 3), (2, 6), (3, 7)], colPin := [(0, 4), (1, 5), (2, 8), (3, 9)]
    gpioPin := [(0, 12), (1, 13), (2, 14), (3, 15)]
    encPinA := [(0, 20), (1, 22), (2, 24), (3, 26)], encPinB := [(0, 21), (1, 23), (2, 25), (3, 27)]
    encPinBtn := [(0, 28)]
    expCfg := [(0, ⟨0x20, true, false⟩), (1, ⟨0x21, false, true⟩), (2, ⟨0x22, true, true⟩), (3, ⟨0x23, false, false⟩)]
    encDivisor := [(0, 1), (3, 2)] }

/-- Initialised and idle. -/
def idle : State := { base with cfg := cfg, initialized := true }

/-- In an update cycle at 200 ms, about to run U_ENC_STEP of encoder 1, whose malfunction has been reported. -/
def live : State :=
  { idle with
    busy := true, tCycle := 200, ix := 1, phase := 0x0B, call.valid := true
    cells := [(257, ⟨true, false, 149⟩)], gpioLines := [(3, ⟨true, true, 100⟩)]
    encs := [(1, { Enc.reset with errorCount := 2, valid := false, malReported := true })]
    exps := [(0, ⟨1, 0, Vector.replicate 16 100⟩)]
    todo := [.op .uop5 0x0C (some 1), .op .uop5 0x0E none, .cycleEnd] }

/-- A component of the next state, where there is one. -/
def after {β : Type} (f : State → β) (o : Host.Outcome State Fault Refusal) : Option β :=
  match o with
  | .next t => some (f t)
  | .fault _ | .refused _ => none

/-- The newest thing issued. -/
def newest (s : State) : Option Out := s.out.head?

/-! ## The codes of the responses and of the requests (30_encoding.md R106, R118) -/

theorem test_response_fields : responseFields .ok 50 = (0, 50) ∧ responseFields .busy 0 = (1, 0) ∧
    responseFields .error 0 = (2, 0) := by decide
theorem test_pin_codes : PinMode.input.code = 0 ∧ PinMode.inputPullup.code = 1 ∧ PinMode.output.code = 2 ∧
    levelCode false = 0 ∧ levelCode true = 1 := by decide
theorem test_reserved_codes : Status.ofCode 3 = none ∧ PinMode.ofCode 3 = none := by decide

/-! ## One step of each instruction -/

-- V-H1
theorem test_nop : after State.out (exec .nop base) = some [.response .ok 0] := by decide
-- V-H2
theorem test_rd_divisor : after newest (exec (.rd 0x17 0 0) base) = some (some (.response .ok 4)) := by decide
-- V-H13
theorem test_rd_lane_16 : after newest (exec (.rd 0x3D 0 16) base) = some (some (.response .error 0)) := by decide
-- V-H6
theorem test_wr_row_pin : after (fun t => (t.cfg.rowPinAt 1, t.initialized)) (exec (.wr 0x10 1 0 3) idle) =
    some (3, false) := by decide
-- V-H10
theorem test_wr_num_rows : after (fun t => (t.cfg.numRows, t.initialized, newest t)) (exec (.wr 0x06 0 0 5) idle) =
    some (4, true, some (.response .error 0)) := by decide
-- R265
theorem test_begin : after (fun t => (t.busy, t.initialized, t.tCycle, t.out)) (exec .beginCmd
    { idle with env.nowIn := [7] }) = some (true, false, 7, [.request .now]) := by decide
theorem test_begin_busy : after State.out (exec .beginCmd live) = some [.response .busy 0] := by decide
-- V-U6
theorem test_try_update_uninitialised : after newest (exec .tryUpdate base) = some (some (.response .error 0)) := by decide
-- R230
theorem test_try_update : after (fun t => (t.busy, t.activity, t.tCycle, t.out)) (exec .tryUpdate
    { idle with activity := true, env.nowIn := [9] }) = some (true, false, 9, [.request .now]) := by decide
-- R245
theorem test_update_waits : after (fun t => (t.updWait, t.out)) (exec .update live) = some (1, []) := by decide
theorem test_update : after (fun t => (t.busy, t.tCycle)) (exec .update { idle with env.nowIn := [9] }) =
    some (true, 9) := by decide
-- R271
theorem test_clear_error : after (fun t => (t.errKind, t.errSrc, t.errCause, t.errNotified)) (exec .clearError
    { live with errKind := .busError, errSrc := 1, errCause := 2, errNotified := true }) =
    some (.none, 0, 0, false) := by decide
-- R246
theorem test_idle : after (fun t => (t.phase, t.busy, t.out)) (step base) = some (0, false, []) := by decide
-- R266: all checks pass; column 1 takes the pin of row 0
theorem test_validate_ok : after (fun t => (t.call.valid, t.errKind)) (exec .uValidate live) = some (true, .none) := by decide
theorem test_validate_conflict : after (fun t => (t.call.valid, t.errKind, t.errSrc, t.errCause)) (exec .uValidate
    { live with cfg.colPin := [(0, 4), (1, 2), (2, 8), (3, 9)] }) = some (false, .pinConflict, 0x11, 1) := by decide
-- R267
theorem test_pin_init : after State.out (exec .uPinInit { live with
    cfg := { HostCfg.reset with numRows := 1, numCols := 1, rowPin := [(0, 2)], colPin := [(0, 4)] } }) =
    some [.request (.pinMode 4 .inputPullup), .request (.pinWrite 2 true), .request (.pinMode 2 .output)] := by decide
-- R268: pin A high, pin B low
theorem test_state_init : after (fun t => ((t.enc 0).lastState, (t.enc 0).tChange, t.cell 0 0)) (exec .uStateInit
    { live with cfg := { cfg with numEnc := 1, numRows := 1, numCols := 1 }, env.pinIn := [true, false] }) =
    some (2, 200, ⟨false, false, 200⟩) := by decide
-- V-X1: five frames of four requests; V-X2: the first BusEnd answers 4
theorem test_exp_init : after (fun t => (t.out.length, t.out[2]?)) (exec .uExpInit
    { live with ix := 1, env.endIn := [0, 0, 0, 0, 0] }) = some (20, some (.request (.busWrite 0x05))) := by decide
theorem test_exp_init_fails : after (fun t => (t.errorWord, t.env.endIn)) (exec .uExpInit
    { live with ix := 0, env.endIn := [4, 0] }) = some (0x00000406, [0]) := by decide
-- V-U3
theorem test_ps_chk_poll : after (fun t => t.call.skip) (exec .uPsChk
    { live with cfg.psEnable := true, cfg.psTimeoutMs := 1000, tCycle := 1000 }) = some false := by decide
theorem test_ps_chk_skip : after (fun t => t.call.skip) (exec .uPsChk
    { live with cfg.psEnable := true, cfg.psTimeoutMs := 1000, tCycle := 1001 }) = some true := by decide
theorem test_ps_enter : after (fun t => (t.psMode, t.out)) (exec .uPsEnter { live with cfg.numRows := 2 }) =
    some (true, [.request (.pinMode 3 .input), .request (.pinMode 2 .input)]) := by decide
-- V-X3
theorem test_exp_read : after (fun t => (t.expWord, t.expOk)) (exec .uExpRead { live with
    ix := 0, env.endIn := [0], env.nowIn := [1], env.availIn := [2], env.byteIn := [0xFE, 0x7F] }) =
    some (0x7FFE, true) := by decide
-- V-X5
theorem test_exp_read_bus_error : after (fun t => (t.errorWord, t.evt)) (exec .uExpRead { live with
    ix := 1, env.endIn := [2] }) = some (0x00010206, some 0x60001026) := by decide
-- V-X6
theorem test_exp_deb : after (fun t => ((t.exp 0).conf16, t.evt)) (exec .uExpDeb { live with
    ix := 0, expOk := true, expWord := 0xFFFE, tCycle := 151, cfg.activeProfile := 0 }) =
    some (1, some 0x50000001) := by decide
-- V-M1
theorem test_mat_row : after (fun t => (t.out, t.latchedLevel 0, t.latchedLevel 1)) (exec .uMatRow { live with
    ix := 1, cfg.numCols := 2, env.pinIn := [false, true] }) =
    some ([.request (.pinWrite 3 true), .request (.pinRead 5), .request (.pinRead 4), .request (.waitMicros 20),
           .request (.pinWrite 3 false)], false, true) := by decide
-- R153: cell (1,1), flipped at 149, is confirmed at 200, 51 ms later
theorem test_mat_deb : after (fun t => (t.cell 1 1, t.jx, t.evt)) (exec .uMatDeb { live with
    ix := 1, colLatch := [(0, true)] }) = some (⟨true, true, 149⟩, 1, some 0x10201011) := by decide
-- V-G1
theorem test_gpio_first : after (fun t => (t.gpioLine 1, t.evt)) (exec .uGpio { live with
    tCycle := 1500, cfg.debounceMs := 10, env.pinIn := [false] }) = some (⟨true, false, 1500⟩, none) := by decide
theorem test_gpio_confirms : after (fun t => (t.gpioLine 1, t.activity, t.evt)) (exec .uGpio { live with
    tCycle := 1511, cfg.debounceMs := 10, gpioLines := [(1, ⟨true, false, 1500⟩)], env.pinIn := [false] }) =
    some (⟨true, true, 1500⟩, true, some 0x20201001) := by decide
-- V-Q2, second row
theorem test_enc_step_commit : after (fun t => ((t.enc 2).position, (t.enc 2).speed, t.evt)) (exec .uEncStep { live with
    ix := 2, tCycle := 10, encs := [(2, { Enc.reset with lastState := 1, pendingDir := .cw, tChange := 5 })],
    env.pinIn := [true, true] }) = some (1, 50, some 0x30202001) := by decide
-- V-Q4, the reversal
theorem test_enc_step_reversal : after (fun t => ((t.enc 2).position, (t.enc 2).pendingDir, t.evt)) (exec .uEncStep
    { live with ix := 2, encs := [(2, { Enc.reset with lastState := 2, pendingDir := .cw })],
                env.pinIn := [true, true] }) = some (0, .ccw, none) := by decide
-- R182
theorem test_enc_btn : after (fun t => ((t.enc 0).btn, t.out)) (exec .uEncBtn { live with
    ix := 0, env.pinIn := [false] }) = some (⟨true, false, 200⟩, [.request (.pinRead 28)]) := by decide
theorem test_enc_btn_absent : after State.out (exec .uEncBtn { live with ix := 1 }) = some [] := by decide
-- V-U4
theorem test_fin_wakes : after (fun t => (t.tActivity, t.psMode, t.out)) (exec .uFin { live with
    tCycle := 1511, activity := true, psMode := true, cfg.numRows := 1 }) =
    some (1511, false, [.request (.pinWrite 2 true), .request (.pinMode 2 .output)]) := by decide
theorem test_ps_exit : after (fun t => (t.psMode, t.out.length)) (exec .uPsExit { live with psMode := true }) =
    some (false, 8) := by decide
-- V-D4, second and third row
theorem test_debounce_waits : after (fun t => (t.gpioLine 2, t.call.toggled)) (exec .debounce { live with
    tCycle := 0x22, gpioLines := [(2, ⟨true, false, 0xFFFFFFF0⟩)], call.line := .gpio 2, call.raw := true }) =
    some (⟨true, false, 0xFFFFFFF0⟩, false) := by decide
theorem test_debounce_wraps : after (fun t => (t.gpioLine 2, t.call.toggled)) (exec .debounce { live with
    tCycle := 0x23, gpioLines := [(2, ⟨true, false, 0xFFFFFFF0⟩)], call.line := .gpio 2, call.raw := true }) =
    some (⟨true, true, 0xFFFFFFF0⟩, true) := by decide
-- V-X4; R285: the second fault is recorded and not reported
theorem test_raise : after (fun t => (t.errorWord, t.errNotified, t.evt)) (exec .raise { live with
    call.kind := .timeoutError, call.src := 1, call.cause := 0 }) = some (0x00010007, true, some 0x60001007) := by decide
theorem test_raise_latched : after (fun t => (t.errorWord, t.evt)) (exec .raise { live with
    errNotified := true, call.kind := .timeoutError, call.src := 1, call.cause := 1 }) =
    some (0x00010107, none) := by decide
-- V-F1; R290: a disabled channel
theorem test_emit : after State.out (exec .emit { live with
    call.channel := .matrix, call.evA := 1, call.evB := 3, call.evV := 1 }) = some [.record 0x10201031] := by decide
theorem test_emit_disabled : after State.out (exec .emit { live with
    cfg.evtEnable := 0x3E, call.channel := .matrix, call.evA := 1, call.evB := 3, call.evV := 1 }) = some [] := by decide
-- R200, R201
theorem test_bf_write_reg : after (fun t => (t.call.status, t.out)) (exec (.bfWriteReg 0x20 0x0A 0xFF)
    { live with env.endIn := [4] }) =
    some (4, [.request .busEnd, .request (.busWrite 0xFF), .request (.busWrite 0x0A), .request (.busBegin 0x20)]) := by decide
theorem test_bf_set_pointer : after State.out (exec (.bfSetPointer 0x21 0x12) { live with env.endIn := [0] }) =
    some [.request .busEnd, .request (.busWrite 0x12), .request (.busBegin 0x21)] := by decide
-- V-X7; V-X4 with `BusAvail` answering 1
theorem test_bf_read2_at_limit : after (fun t => (t.call.read, t.env.nowIn)) (exec (.bfRead2 0x20) { live with
    env.nowIn := [100, 110, 111], env.availIn := [1, 2], env.byteIn := [0xFE, 0x7F] }) =
    some (.ok 0xFE 0x7F, [111]) := by decide
theorem test_bf_read2_timeout : after (fun t => t.call.read) (exec (.bfRead2 0x20) { live with
    env.nowIn := [100, 110, 111], env.availIn := [0, 1, 2], env.byteIn := [0xFE, 0x7F] }) = some (.timeout 1) := by decide
-- V-F1
theorem test_ev_matrix : after State.evt (exec (.evMatrix 2 1 3 1) live) = some (some 0x10201031) := by decide
theorem test_ev_gpio : after State.evt (exec (.evGpio 2 1 0 1) live) = some (some 0x20201001) := by decide
theorem test_ev_enc_rotate : after State.evt (exec (.evEncRotate 2 0 0 3) live) = some (some 0x30200003) := by decide
theorem test_ev_enc_button : after State.evt (exec (.evEncButton 0 0 0 1) live) = some (some 0x40000001) := by decide
theorem test_ev_expander : after State.evt (exec (.evExpander 0 1 8 1) live) = some (some 0x50001081) := by decide
theorem test_ev_error : after State.evt (exec (.evError 0 1 0 7) live) = some (some 0x60001007) := by decide

/-! ## The fetch -/

theorem test_fetch_command : after State.out (step (base.withFetchWord 64 0x0117000000000000)) =
    some [.response .ok 4] := by decide
theorem test_fetch_uop : after (fun t => (t.phase, t.psMode)) (step ({ base with psMode := true }.withFetchWord 5 0x0F)) =
    some (0x0F, false) := by decide
theorem test_fetch_event : after State.evt (step (base.withFetchWord 32 0x60001026)) = some (some 0x60001026) := by decide
-- R105
theorem test_fetch_reserved : after (fun t => (t.initialized, t.out)) (step (idle.withFetchWord 64 0x1000000000000001)) =
    some (true, [.response .error 0]) := by decide

/-! ## Witnesses: for every obligation with hypotheses, states and operands that meet them, at the boundary of each
clause -/

theorem witness_DecodeOfEncode : (Instr.evExpander 255 255 15 1).wf = true ∧ (Instr.evError 0 255 255 7).wf = true ∧
    (Instr.wr 0xFF 0xFF 0xFF 0xFFFFFFFF).wf = true := by decide

theorem witness_EncodeOfDecode : decode .cmd64 0x02FFFFFFFFFFFFFF#64 = .ok (.wr 0xFF 0xFF 0xFF 0xFFFFFFFF) ∧
    decode .uop5 0x12#64 = .ok .emit ∧ decode .bfW2 0x7FFFFF#64 = .ok (.bfWriteReg 0x7F 0xFF 0xFF) ∧
    decode .bfW1 0x7FFF#64 = .ok (.bfSetPointer 0x7F 0xFF) ∧ decode .bfR2 0x7F#64 = .ok (.bfRead2 0x7F) ∧
    decode .evt32 0x6FFFFFFF#64 = .ok (.evError 0xFF 0xFF 0xFF 0xF) := by decide

theorem witness_ReservedWordsAnswerError :
    Reserved 0x0300000000000000#64 ∧ Reserved 0xFF00000000000000#64 ∧ Reserved 0x1400000000000000#64 ∧
    Reserved 0x1000000000000001#64 ∧ Reserved 0x0001000000000000#64 ∧ Reserved 0x0120000000000001#64 ∧
    ¬ Reserved 0x0200000000000001#64 ∧ ¬ Reserved 0x01FFFFFF00000000#64 := by simp [Reserved]

theorem witness_EngineTurn : EngineTurn live live ∧ EngineTurn { live with host := [.pass, .rst] } { live with host := [.rst] } ∧
    EngineTurn { live with host := [.await] } { live with host := [.await] } :=
  ⟨.inl ⟨rfl, rfl⟩, .inr (.inl ⟨_, rfl, rfl⟩), .inr (.inr ⟨_, rfl, rfl, .inl rfl, rfl⟩)⟩

/-- An UPDATE waits and the engine is idle. -/
def waiting : State := { idle with updWait := 1, host := [.await] }

theorem witness_EngineTurn_update : EngineTurn waiting waiting :=
  .inr (.inr ⟨_, rfl, rfl, .inr (by decide), rfl⟩)

theorem witness_StepRunsTheDecodedWord_command :
    ({ live with host := [.cmd 0#64] } : State).host = .cmd 0#64 :: [] ∧ decode .cmd64 0#64 = .ok .nop := ⟨rfl, by decide⟩
theorem witness_StepRunsTheDecodedWord_engine : EngineTurn live live ∧ live.evt = none ∧
    live.todo = .op .uop5 0x0C (some 1) :: [.op .uop5 0x0E none, .cycleEnd] ∧ decode .uop5 0x0C = .ok .uEncStep :=
  ⟨.inl ⟨rfl, rfl⟩, rfl, rfl, by decide⟩
theorem witness_StepRunsTheDecodedWord_update : EngineTurn waiting waiting ∧ waiting.evt = none ∧ waiting.todo = [] ∧
    waiting.updWait ≠ 0 ∧ waiting.busy = false := ⟨witness_EngineTurn_update, rfl, rfl, by decide, rfl⟩
theorem witness_StepRunsTheDecodedWord_idle : EngineTurn idle idle ∧ idle.evt = none ∧ idle.todo = [] ∧
    idle.updWait = 0 := ⟨.inl ⟨rfl, rfl⟩, rfl, rfl, rfl⟩

/-- A record waits for its acknowledge. -/
def stalled (h : List HostAct) : State := { live with evt := some 0x60001007, host := h }

theorem witness_AcknowledgeAndStall :
    (stalled [.ack true]).host = .ack true :: [] ∧ (stalled []).host = [] ∧ (stalled []).evt ≠ none ∧
    (stalled [.pass]).host = .pass :: [] ∧ (stalled [.pass]).evt ≠ none ∧
    (stalled [.await]).host = .await :: [] ∧ (stalled [.await]).evt ≠ none ∧
    ({ idle with host := [.await] } : State).busy = false ∧ ({ idle with host := [.await] } : State).updWait = 0 := by
  decide

/-- U_MAT_ROW of the row 0 runs, and `rst` comes after the first `k` of what it issues. -/
def interrupted (k : Nat) : State := { live with host := [.rstAfter k], todo := [.op .uop5 0x09 (some 0), .cycleEnd] }

theorem witness_ResetLeavesTheResetValues : ({ live with host := [.rst] } : State).host = .rst :: [] ∧
    (interrupted 1).host = .rstAfter 1 :: [] ∧
    ∃ (u : State) (l : List Out), step { interrupted 1 with host := [.pass] } = .next u ∧
      u.out = l.reverse ++ (interrupted 1).out ∧ 1 < l.length :=
  ⟨rfl, rfl, _, [.request (.pinWrite 2 false), .request (.waitMicros 20), .request (.pinRead 4), .request (.pinRead 5),
    .request (.pinRead 8), .request (.pinRead 9), .request (.pinWrite 2 true)], rfl, rfl, by decide⟩

-- 70_reset_and_hazards.md R332: "after a reset in the middle of U_MAT_ROW a row may still be driven LOW"
theorem test_rst_leaves_a_row_low : after (fun t => (t.pin 2, t.out, t.busy, t.cfg.numRows)) (step (interrupted 1)) =
    some (⟨none, some false⟩, [.request (.pinWrite 2 false)], false, 0) := by decide
-- the row is restored only by the last of the seven requests (42_matrix.md R152)
theorem test_rst_after_the_row : after (fun t => t.pin 2) (step (interrupted 6)) = some ⟨none, some false⟩ ∧
    after (fun t => t.pin 2) (step (interrupted 7)) = some ⟨none, some true⟩ := by decide

/-- BF_READ2 runs with three bytes in the transport. -/
def reading (h : List HostAct) : State :=
  { live with
    host := h, todo := [.op .bfR2 0x20 none, .cycleEnd], env.availIn := [1, 3], env.nowIn := [5, 6, 7],
    env.byteIn := [0xA1, 0xA2, 0xA3] }

-- R332: "the transport keeps any unread bytes"; the requests are those of 45_expander.md R202, R206
theorem test_rst_keeps_unread_bytes : after (fun t => (t.env.byteIn, t.env.availIn, t.env.nowIn, t.out.length))
    (step (reading [.rstAfter 6])) = some ([0xA2, 0xA3], [], [7], 6) := by decide
-- where `rst` comes after all that the move issues, the environment is as the move leaves it
theorem test_rst_after_the_move : after State.env (step (reading [.rstAfter 7])) = after State.env (step (reading [.pass])) := by
  decide

theorem witness_coherent_live : Coherent live :=
  ⟨fun h => absurd h (by decide),
   fun _ => ⟨[.op .uop5 0x0C (some 1), .op .uop5 0x0E none], .cycleEnd, rfl, trivial, by simp [Safety.Inner]⟩⟩
theorem witness_coherent_idle : Coherent idle :=
  ⟨fun _ => ⟨rfl, rfl, rfl, rfl, rfl⟩, fun h => absurd h (by decide)⟩
theorem witness_CoherentStatesGoOn : Coherent live ∧ Coherent idle := ⟨witness_coherent_live, witness_coherent_idle⟩

theorem witness_canonical : Canonical live := by unfold Canonical; decide
theorem witness_step_live : ∃ t, step live = .next t := ⟨_, rfl⟩
theorem witness_CanonicalFormKept : Canonical live ∧ ∃ t, step live = .next t := ⟨witness_canonical, witness_step_live⟩

theorem witness_configLegal : ConfigLegal live := by
  refine ⟨by decide, by decide, by decide, by decide, by decide, fun e => ?_, fun _ => by decide⟩
  show 1 ≤ (Table.get 4#3 [(0, 1#3), (3, 2#3)] e.toNat).toNat ∧ (Table.get 4#3 [(0, 1#3), (3, 2#3)] e.toNat).toNat ≤ 4
  simp only [Table.get]
  split
  · decide
  · split <;> decide
theorem witness_beginSound : BeginSound live := ⟨fun _ _ => by decide, fun h => absurd h (by decide)⟩
theorem witness_LegalConfigurationKept : Coherent live ∧ ConfigLegal live ∧ BeginSound live ∧ ∃ t, step live = .next t :=
  ⟨witness_coherent_live, witness_configLegal, witness_beginSound, witness_step_live⟩

theorem witness_ErrorSlotKept :
    SlotLegal { live with errKind := .timeoutError, errSrc := 255, errCause := 1 } ∧ SlotLegal live ∧
    ∃ t, step live = .next t :=
  ⟨⟨by decide, fun h => absurd h (by decide)⟩, ⟨by decide, fun _ => ⟨rfl, rfl⟩⟩, witness_step_live⟩

theorem witness_MalfunctionLatchKept : MalfunctionLatched live ∧ (live.enc 1).valid = false ∧ ∃ t, step live = .next t := by
  refine ⟨fun e => ?_, by decide, witness_step_live⟩
  show (Table.get Enc.reset [(1, _)] e.toNat).valid = false → (Table.get Enc.reset [(1, _)] e.toNat).malReported = true
  simp only [Table.get]
  split
  · intro _; rfl
  · intro h; exact absurd h (by decide)

theorem witness_PendingRecordKept : Coherent (stalled [.ack false]) ∧ RecordLegal (stalled [.ack false]) ∧
    RecordLegal live ∧ ∃ t, step (stalled [.ack false]) = .next t :=
  ⟨⟨fun h => absurd h (by decide), fun _ => ⟨[.op .uop5 0x0C (some 1), .op .uop5 0x0E none], .cycleEnd, rfl, trivial,
      by simp [Safety.Inner]⟩⟩,
   fun w h => ⟨.evError 0 1 0 7, by cases h; decide, by decide⟩, (fun _ h => by cases h), ⟨_, rfl⟩⟩

theorem not_resets_live : ¬ Resets live := by
  rintro (⟨_, h⟩ | ⟨_, _, h⟩) <;> cases h

theorem witness_ConfigurationConstantWhileBusy : live.busy = true ∧ ¬ Resets live ∧ ∃ t, step live = .next t :=
  ⟨rfl, not_resets_live, witness_step_live⟩

theorem witness_ErrorCountersNeverFall : (∃ t, step live = .next t) ∧ ¬ Resets live ∧
    (∀ item rest, live.todo ≠ .op .uop5 0x03#64 item :: rest) ∧ (live.enc 1).malReported = true :=
  ⟨witness_step_live, not_resets_live, (fun _ _ h => by cases h), by decide⟩

/-- The step of `s` changes the power mode. -/
def modeChanges (s : State) : Prop := ∃ t, step s = .next t ∧ t.psMode ≠ s.psMode
theorem witness_PowerModeTransitions_rst : modeChanges { live with psMode := true, host := [.rst] } := ⟨_, rfl, by decide⟩
theorem witness_PowerModeTransitions_rstAfter : modeChanges { live with psMode := true, host := [.rstAfter 0] } :=
  ⟨_, rfl, by decide⟩
theorem witness_PowerModeTransitions_enter : modeChanges { live with todo := [.op .uop5 0x06 none, .cycleEnd] } :=
  ⟨_, rfl, by decide⟩
theorem witness_PowerModeTransitions_fin :
    modeChanges { live with psMode := true, activity := true, todo := [.op .uop5 0x0E none, .cycleEnd] } :=
  ⟨_, rfl, by decide⟩
theorem witness_PowerModeTransitions_exit :
    modeChanges { live with psMode := true, todo := [.op .uop5 0x0F none, .cycleEnd] } := ⟨_, rfl, by decide⟩
theorem witness_PowerModeTransitions_begin : modeChanges { live with psMode := true, todo := [.beginEnd] } :=
  ⟨_, rfl, by decide⟩

/-! ### RD and WR -/

theorem witness_RegisterAddresses_named : Named params 0x0B 0 0 ∧ Named params 0x20 0 0 ∧ Named params 0x23 0 0 ∧
    Named params 0x10 3 0 ∧ Named params 0x11 3 0 ∧ Named params 0x12 3 0 ∧ Named params 0x15 3 0 ∧ Named params 0x18 3 0 ∧
    Named params 0x3A 3 0 ∧ Named params 0x3C 3 0 ∧ Named params 0x31 3 3 ∧ Named params 0x3D 3 15 := by
  simp [Named, OneIndex, params]
theorem witness_RegisterAddresses_not_named : ¬ Named params 0x0C 0 0 ∧ ¬ Named params 0x0B 1 0 ∧ ¬ Named params 0x10 4 0 ∧
    ¬ Named params 0x10 3 1 ∧ ¬ Named params 0x19 0 0 ∧ ¬ Named params 0x24 0 0 ∧ ¬ Named params 0x30 3 4 ∧
    ¬ Named params 0x3D 3 16 ∧ ¬ Named params 0x3E 0 0 ∧ ¬ Named params 0xFF 0 0 ∧ base.busy = false := by
  simp [Named, OneIndex, params]; rfl

theorem witness_ReadConfiguration : (3 : Byte).toNat < live.params.maxRows.toNat ∧ (3 : Byte).toNat < live.params.maxCols.toNat ∧
    (3 : Byte).toNat < live.params.maxGpio.toNat ∧ (3 : Byte).toNat < live.params.maxEnc.toNat ∧
    (3 : Byte).toNat < live.params.maxExp.toNat := by decide

theorem witness_ReadStatusRegisters : idle.busy = false ∧ (0x20#8 ∈ [0x20#8, 0x21#8, 0x22#8, 0x23#8]) ∧
    0x23#8 ∈ [0x20#8, 0x21#8, 0x22#8, 0x23#8] := by decide

theorem witness_ReadBackRegisters : idle.busy = false ∧ (stalled []).busy = true ∧ (stalled []).evt ≠ none ∧
    (3 : Byte).toNat < idle.params.maxRows.toNat ∧ (3 : Byte).toNat < idle.params.maxCols.toNat ∧
    (3 : Byte).toNat < idle.params.maxGpio.toNat ∧ (3 : Byte).toNat < idle.params.maxEnc.toNat ∧
    (3 : Byte).toNat < idle.params.maxExp.toNat ∧ Named idle.params 0x30 0 0 ∧ Named idle.params 0x3D 3 15 ∧
    0x30 ≤ (0x30#8).toNat := by simp [Named, OneIndex]; decide

theorem witness_RacingReadIsFree : Named live.params 0x18 3 0 ∧ ReadBack 0x18 ∧ Named live.params 0x30 0 0 ∧ ReadBack 0x30 ∧
    Named live.params 0x3D 3 15 ∧ ReadBack 0x3D ∧ live.busy = true ∧ live.evt = none := by
  simp [Named, OneIndex, ReadBack]; decide

theorem witness_WriteRefused : live.busy = true ∧ idle.busy = false ∧ Named idle.params 0x20 0 0 ∧ Named idle.params 0x3D 3 15 ∧
    0x20 ≤ (0x20#8).toNat ∧ idle.params.maxRows.toNat < ((5#32).extractLsb' 0 8).toNat ∧
    idle.params.maxCols.toNat < ((5#32).extractLsb' 0 8).toNat ∧ idle.params.maxGpio.toNat < ((5#32).extractLsb' 0 8).toNat ∧
    idle.params.maxEnc.toNat < ((5#32).extractLsb' 0 8).toNat ∧ idle.params.maxExp.toNat < ((5#32).extractLsb' 0 8).toNat ∧
    idle.initialized = true ∧ idle.cfg.profileCount.toNat ≤ ((3#32).extractLsb' 0 8).toNat ∧
    (5#32).extractLsb' 0 3 ∉ [1#3, 2#3, 3#3, 4#3] ∧ (8#32).extractLsb' 0 3 ∉ [1#3, 2#3, 3#3, 4#3] := by
  simp [Named, OneIndex]; decide

theorem witness_WriteScalarRegisters : idle.busy = false ∧ base.busy = false ∧ base.initialized = false ∧
    idle.initialized = true ∧ ((2#32).extractLsb' 0 8).toNat < idle.cfg.profileCount.toNat ∧
    ((4#32).extractLsb' 0 8).toNat ≤ idle.params.maxRows.toNat ∧ ((4#32).extractLsb' 0 8).toNat ≤ idle.params.maxCols.toNat ∧
    ((4#32).extractLsb' 0 8).toNat ≤ idle.params.maxGpio.toNat ∧ ((4#32).extractLsb' 0 8).toNat ≤ idle.params.maxEnc.toNat ∧
    ((0x104#32).extractLsb' 0 8).toNat ≤ idle.params.maxExp.toNat := by decide

theorem witness_WriteTableRegisters : idle.busy = false ∧ (3 : Byte).toNat < idle.params.maxRows.toNat ∧
    (3 : Byte).toNat < idle.params.maxCols.toNat ∧ (3 : Byte).toNat < idle.params.maxGpio.toNat ∧
    (3 : Byte).toNat < idle.params.maxEnc.toNat ∧ (3 : Byte).toNat < idle.params.maxExp.toNat ∧
    (1#32).extractLsb' 0 3 ∈ [1#3, 2#3, 3#3, 4#3] ∧ (4#32).extractLsb' 0 3 ∈ [1#3, 2#3, 3#3, 4#3] := by decide

/-! ### The other commands -/

theorem witness_BeginStarts : live.busy = true ∧ idle.busy = false := by decide
theorem witness_TryUpdateOutcomes : base.initialized = false ∧ live.initialized = true ∧ live.busy = true ∧
    idle.initialized = true ∧ idle.busy = false := by decide
theorem witness_UpdateOutcomes : base.initialized = false ∧ live.initialized = true ∧ live.busy = true ∧
    idle.initialized = true ∧ idle.busy = false := by decide

theorem witness_IdleUntilACommand : Coherent idle ∧ idle.busy = false ∧ idle.host = [] ∧ idle.updWait = 0 :=
  ⟨witness_coherent_idle, rfl, rfl, rfl⟩
theorem witness_IdleUntilACommand_leaves :
    (∃ t, step { idle with host := [.cmd 0x1000000000000000#64] } = .next t ∧ t.busy = true) ∧
    (∃ t, step { idle with host := [.cmd 0x1100000000000000#64] } = .next t ∧ t.busy = true) ∧
    (∃ t, step { idle with host := [.cmd 0x1200000000000000#64] } = .next t ∧ t.busy = true) ∧
    (∃ t, step waiting = .next t ∧ t.busy = true) := ⟨⟨_, rfl, rfl⟩, ⟨_, rfl, rfl⟩, ⟨_, rfl, rfl⟩, ⟨_, rfl, rfl⟩⟩

/-! ### U_VALIDATE -/

/-- Two GPIO lines at the pins `p` and `q`, and nothing else. -/
def pair (p q : Byte) : HostCfg := { HostCfg.reset with profileCount := 1, numGpio := 2, gpioPin := [(0, p), (1, q)] }

/-- Checks 1 to 4 of R266 pass. -/
def firstFour (c : HostCfg) : Prop :=
  c.profileCount ≠ 0#8 ∧ c.activeProfile.toNat < c.profileCount.toNat ∧ (c.numRows = 0#8 ↔ c.numCols = 0#8) ∧
  ∀ d1 d2 : Byte, d1.toNat < d2.toNat → d2.toNat < c.numExp.toNat → (c.expCfgAt d1).addr ≠ (c.expCfgAt d2).addr

/-- Slot `k` is not valid. -/
def badSlot (c : HostCfg) (k : Nat) : Prop := ∃ x, c.slots[k]? = some x ∧ params.pinValid.getLsbD x.pin.toNat = false

/-- Slot `m` has the pin of an earlier one. -/
def clashAt (c : HostCfg) (m : Nat) : Prop :=
  ∃ (k : Nat) (x y : Slot), k < m ∧ c.slots[k]? = some x ∧ c.slots[m]? = some y ∧ x.pin = y.pin

theorem pair_slots (p q : Byte) : (pair p q).slots = [⟨0x12, 0, p⟩, ⟨0x12, 1, q⟩] := rfl
theorem pair_firstFour (p q : Byte) : firstFour (pair p q) :=
  ⟨by simp [pair], by simp [pair, HostCfg.reset], Iff.rfl, fun _ _ _ h => absurd h (Nat.not_lt_zero _)⟩

theorem witness_ValidateChecks_pass : firstFour (pair 12 63) ∧ (∀ k, ¬ badSlot (pair 12 63) k) ∧
    ∀ m, ¬ clashAt (pair 12 63) m := by
  refine ⟨pair_firstFour _ _, ?_, ?_⟩
  · rintro k ⟨x, h1, h2⟩
    rw [pair_slots] at h1
    match k, h1 with
    | 0, h1 => cases h1; exact absurd h2 (by decide)
    | 1, h1 => cases h1; exact absurd h2 (by decide)
  · rintro m ⟨k, x, y, h1, h2, h3, h4⟩
    rw [pair_slots] at h2 h3
    match m, k, h1, h2, h3 with
    | 1, 0, _, h2, h3 => cases h2; cases h3; exact absurd h4 (by decide)
theorem witness_ValidateChecks_1 : ¬ ({ pair 12 13 with profileCount := 0 } : HostCfg).profileCount ≠ 0#8 := by decide
theorem witness_ValidateChecks_2 : (pair 12 13).profileCount ≠ 0#8 ∧
    ¬ ({ pair 12 13 with activeProfile := 1 } : HostCfg).activeProfile.toNat < (pair 12 13).profileCount.toNat := by decide
theorem witness_ValidateChecks_3 : (pair 12 13).profileCount ≠ 0#8 ∧
    (pair 12 13).activeProfile.toNat < (pair 12 13).profileCount.toNat ∧
    ¬ (({ pair 12 13 with numRows := 1 } : HostCfg).numRows = 0#8 ↔ (pair 12 13).numCols = 0#8) := by decide
theorem witness_ValidateChecks_4 : (cfg.numRows = 0#8 ↔ cfg.numCols = 0#8) ∧ (0 : Byte).toNat < (3 : Byte).toNat ∧
    (3 : Byte).toNat < cfg.numExp.toNat ∧
    ¬ ((({ cfg with expCfg := [(0, ⟨0x20, true, false⟩), (3, ⟨0x20, false, false⟩)] } : HostCfg).expCfgAt 0).addr ≠
      (({ cfg with expCfg := [(0, ⟨0x20, true, false⟩), (3, ⟨0x20, false, false⟩)] } : HostCfg).expCfgAt 3).addr) := by
  decide
theorem witness_ValidateChecks_5 : firstFour (pair 12 64) ∧ badSlot (pair 12 64) 1 ∧
    ∀ m y, m < 1 → (pair 12 64).slots[m]? = some y → params.pinValid.getLsbD y.pin.toNat = true := by
  refine ⟨pair_firstFour _ _, ⟨_, rfl, by decide⟩, fun m y h1 h2 => ?_⟩
  match m, h1, h2 with
  | 0, _, h2 => cases h2; decide
theorem witness_ValidateChecks_6 : firstFour (pair 12 12) ∧ (∀ k, ¬ badSlot (pair 12 12) k) ∧ clashAt (pair 12 12) 1 ∧
    ∀ k, k < 1 → ¬ clashAt (pair 12 12) k := by
  refine ⟨pair_firstFour _ _, ?_, ⟨0, _, _, by decide, rfl, rfl, rfl⟩, fun k h1 h2 => ?_⟩
  · rintro k ⟨x, h1, h2⟩
    rw [pair_slots] at h1
    match k, h1 with
    | 0, h1 => cases h1; exact absurd h2 (by decide)
    | 1, h1 => cases h1; exact absurd h2 (by decide)
  · obtain ⟨j, _, _, h3, _⟩ := h2
    omega

/-! ### The expander -/

/-- The statuses a failing or a passing initialisation of device 2 meets. -/
def statuses (l : List Byte) : State := { live with ix := 2, env.endIn := l }

theorem witness_ExpanderInitialisation_all : ∀ k, k < 7 → (statuses [0, 0, 0, 0, 0, 0, 0]).env.endAnswer k = 0#8 := by decide
theorem witness_ExpanderInitialisation_first : (statuses [4]).env.endAnswer 0 ≠ 0#8 := by decide
theorem witness_ExpanderInitialisation_last :
    (∀ m, m < 6 → (statuses [0, 0, 0, 0, 0, 0, 255]).env.endAnswer m = 0#8) ∧
    (statuses [0, 0, 0, 0, 0, 0, 255]).env.endAnswer 6 ≠ 0#8 := by decide

/-- A device whose answers are scripted. -/
def framed (nows : List Word) (avail bytes : List Byte) : State :=
  { live with env.nowIn := nows, env.availIn := avail, env.byteIn := bytes }

theorem witness_ReadFrame_ok : (framed [100, 110, 111] [1, 2] [3, 4]).env.nowIn = 100 :: ([110] ++ [111]) ∧
    (framed [100, 110, 111] [1, 2] [3, 4]).env.availIn = [1] ++ 2 :: [] ∧
    (framed [100, 110, 111] [1, 2] [3, 4]).env.byteIn = 3 :: 4 :: [] ∧ [110#32].length = [1#8].length ∧
    (∀ m ∈ [1#8], m.toNat < 2) ∧ (∀ t ∈ [110#32], (t - 100).toNat ≤ params.expTimeoutMs.toNat) ∧ 2 ≤ (2#8).toNat :=
  ⟨rfl, rfl, rfl, rfl, by decide, by simp [params], by decide⟩
theorem witness_ReadFrame_at_once : (framed [100] [2] [3, 4]).env.nowIn = 100 :: ([] ++ []) ∧
    (framed [100] [2] [3, 4]).env.availIn = [] ++ 2 :: [] := by decide
theorem witness_ReadFrame_timeout : (framed [100, 110, 111] [0, 1] []).env.nowIn = 100 :: ([110] ++ 111 :: []) ∧
    (framed [100, 110, 111] [0, 1] []).env.availIn = [0] ++ 1 :: [] ∧ [110#32].length = [0#8].length ∧
    (∀ m ∈ [0#8], m.toNat < 2) ∧ (∀ t ∈ [110#32], (t - 100).toNat ≤ params.expTimeoutMs.toNat) ∧ (1#8).toNat < 2 ∧
    params.expTimeoutMs.toNat < (111#32 - 100).toNat :=
  ⟨rfl, rfl, rfl, by decide, by simp [params], by decide, by decide⟩

theorem witness_ExpanderRead : (statuses [1]).env.endAnswer 0 ≠ 0#8 ∧ (statuses [0]).env.endAnswer 0 = 0#8 := by decide
theorem witness_ExpanderRead_results :
    after (fun t => t.call.read) (exec (.bfRead2 0x22)
      { statuses [] with env.nowIn := [0], env.availIn := [255], env.byteIn := [1, 2] }) = some (.ok 1 2) ∧
    after (fun t => t.call.read) (exec (.bfRead2 0x22) { statuses [] with env.nowIn := [0, 11], env.availIn := [0] }) =
      some (.timeout 0) := by decide

/-- The engine in an update cycle with the task `t` next. -/
def doing (t : Task) : State := { live with todo := [t, .cycleEnd] }

theorem witness_ExpanderLanes : live.expOk = false ∧ ({ live with expOk := true } : State).expOk = true ∧
    EngineTurn (doing (.expLanes 0)) (doing (.expLanes 0)) ∧ (doing (.expLanes 0)).evt = none ∧
    (doing (.expLanes 0)).todo = .expLanes 0 :: [.cycleEnd] ∧ (doing (.expLanes 15)).todo = .expLanes 15 :: [.cycleEnd] :=
  ⟨rfl, rfl, .inl ⟨rfl, rfl⟩, rfl, rfl, rfl⟩

/-! ### The polled inputs -/

theorem witness_MatrixCells : EngineTurn (doing (.matCols 0)) (doing (.matCols 0)) ∧ (doing (.matCols 0)).evt = none ∧
    (doing (.matCols 0)).todo = .matCols 0 :: [.cycleEnd] ∧ (doing (.matCols 3)).todo = .matCols 3 :: [.cycleEnd] :=
  ⟨.inl ⟨rfl, rfl⟩, rfl, rfl, rfl⟩

theorem witness_EncoderButton : live.cfg.encPinBtnAt 1 = 0xFF#8 ∧ live.cfg.encPinBtnAt 0 ≠ 0xFF#8 := by decide

/-- Encoder 1 with the record `x`, 5 ms debounce, its pins about to show `a` and `b`. -/
def turning (x : Enc) (a b : Level) (t : Word) : State :=
  { live with cfg.encDebounceMs := 5, tCycle := t, encs := [(1, x)], env.pinIn := [a, b] }

theorem witness_QuadratureStep_closed : ¬ GateOpen (turning { Enc.reset with tChange := 100 } false false 104) := by
  unfold GateOpen; decide
theorem witness_QuadratureStep_same : GateOpen (turning { Enc.reset with tChange := 100 } false false 105) ∧
    pinsShow (turning { Enc.reset with tChange := 100 } false false 105) = 0#2 := by unfold GateOpen; decide
theorem witness_QuadratureStep_illegal : GateOpen (turning Enc.reset true true 5) ∧
    pinsShow (turning Enc.reset true true 5) = 3#2 ∧ ∀ d, ¬ QuarterStep d 0#2 3#2 := by
  refine ⟨by unfold GateOpen; decide, by decide, fun d => ?_⟩
  cases d <;> simp [QuarterStep, Clockwise]
theorem witness_QuadratureStep_quarter : GateOpen (turning Enc.reset false true 5) ∧
    QuarterStep .cw 0#2 (pinsShow (turning Enc.reset false true 5)) ∧
    ¬ (pinsShow (turning Enc.reset false true 5) = params.encSettleState ∧ Dir.none = Dir.cw) := by
  unfold GateOpen QuarterStep Clockwise; decide

/-- An encoder one clockwise quarter-step away from a commit. -/
def ready : Enc := { Enc.reset with lastState := 1, pendingDir := .cw, errorCount := 1 }

theorem witness_CommitPresentsRotation : GateOpen (turning ready true true 5) ∧
    QuarterStep .cw ready.lastState (pinsShow (turning ready true true 5)) ∧
    pinsShow (turning ready true true 5) = params.encSettleState ∧ ready.pendingDir = .cw ∧
    (turning ready true true 5).enc 1 = ready ∧ live.ix = 1 ∧ live.cfg.evtEnable.getLsbD 2 = true := by
  unfold GateOpen QuarterStep Clockwise; decide
theorem witness_CommitOnDisabledChannel : GateOpen (turning ready true true 5) ∧
    QuarterStep .cw ready.lastState (pinsShow (turning ready true true 5)) ∧
    ({ turning ready true true 5 with cfg.evtEnable := 0x3B } : State).cfg.evtEnable.getLsbD 2 = false := by
  unfold GateOpen QuarterStep Clockwise; decide
theorem witness_CommitEndsAfterAcknowledge : EngineTurn (doing .commitRest) (doing .commitRest) ∧
    (doing .commitRest).evt = none ∧ (doing .commitRest).todo = .commitRest :: [.cycleEnd] := ⟨.inl ⟨rfl, rfl⟩, rfl, rfl⟩

theorem witness_CycleFinish : live.activity = false ∧ live.psMode = false ∧
    ({ live with activity := true, psMode := true } : State).psMode = true := by decide

theorem witness_EmitSubOperation : live.cfg.evtEnable.getLsbD Channel.error.bit = true ∧
    ({ live with cfg.evtEnable := 0x1F } : State).cfg.evtEnable.getLsbD Channel.error.bit = false := by decide

/-! ### The sequences -/

theorem witness_UpdateCycleSequence : EngineTurn (doing .afterGate) (doing .afterGate) ∧ (doing .afterGate).evt = none ∧
    (doing .afterGate).todo = .afterGate :: [.cycleEnd] ∧ (doing .afterGate).call.skip = false ∧
    ({ doing .afterGate with call.skip := true } : State).call.skip = true ∧
    (doing .cycleEnd).todo = .cycleEnd :: [.cycleEnd] := ⟨.inl ⟨rfl, rfl⟩, rfl, rfl, rfl, rfl, rfl⟩
theorem witness_BeginSequence : EngineTurn (doing .afterValidate) (doing .afterValidate) ∧ (doing .afterValidate).evt = none ∧
    (doing .afterValidate).todo = .afterValidate :: [.cycleEnd] ∧ (doing .afterValidate).call.valid = true ∧
    ({ doing .afterValidate with call.valid := false } : State).call.valid = false ∧
    (doing .beginEnd).todo = .beginEnd :: [.cycleEnd] := ⟨.inl ⟨rfl, rfl⟩, rfl, rfl, rfl, rfl, rfl⟩

theorem witness_CommandsComplete : Coherent live ∧ live.busy = true ∧ live.updWait = 0 ∧ live.host = [] :=
  ⟨witness_coherent_live, rfl, rfl, rfl⟩

/-! ### Properties -/

theorem witness_DebounceProperties_quiet : let polls : List (Word × Bool) := [(100, true), (150, true)]
    let reading (k : Nat) := match k with | 0 => some false | k + 1 => (polls[k]?).map Prod.snd
    ∀ k p, polls[k]? = some p → ∃ m q, m ≤ k ∧ polls[m]? = some q ∧ reading (m + 1) ≠ reading m ∧
      (∀ j, m < j → j ≤ k → ¬ reading (j + 1) ≠ reading j) ∧ (p.1 - q.1).toNat ≤ (50#32).toNat := by
  intro polls reading k p h
  match k, h with
  | 0, h => cases h; exact ⟨0, _, Nat.le_refl _, rfl, by decide, fun j h1 h2 => by omega, by decide⟩
  | 1, h =>
    cases h
    refine ⟨0, _, by omega, rfl, by decide, fun j h1 h2 => ?_, by decide⟩
    have h3 : j = 1 := by omega
    subst h3
    decide
  | _ + 2, h => cases h

theorem witness_DebounceProperties_held : toggles 50 ⟨false, false, 0⟩ [(100, true), (150, true), (151, true), (152, true)] =
    [false, false, true, false] ∧ true ≠ (⟨false, false, 0⟩ : Line).raw := by decide

/-- Encoder 1 at rest in state 0 with divisor 4. -/
def atRest (l : List Level) : State := { live with encs := [], cfg.encDebounceMs := 5, env.pinIn := l }

theorem witness_FullDetentMovesByOne : ((atRest []).enc 1).lastState = 0#2 ∧ ((atRest []).enc 1).pendingDir = .none ∧
    (atRest []).cfg.encDivisorAt 1 = 4#3 ∧ params.encSettleState = 3#2 ∧ (atRest []).cfg.evtEnable.getLsbD 2 = true ∧
    (atRest []).cfg.encDebounceMs.toNat ≤ (5#32 - ((atRest []).enc 1).tChange).toNat ∧
    (atRest []).cfg.encDebounceMs.toNat ≤ (10#32 - 5#32).toNat ∧
    (atRest [false, true, true, true, true, false]).env.pinIn = [false, true, true, true, true, false] ++ [] ∧
    (atRest [true, false, true, true, false, true]).env.pinIn = [true, false, true, true, false, true] ++ [] := by decide

end Sys2Proof.Tests
end

/-! SUPPORT. Proofs of the statements about the state (10_state.md): the invariants that every step keeps, what `rst`
leaves, the word that a step runs, and the addresses and values of RD. -/

namespace Sys2Proof.StateClaims

open Sys2Proof.Machine Sys2Proof.Safety

/-! ## What the engine's turn leaves alone (log 4) -/

section
variable {s s' : State} (hs : EngineTurn s s')
include hs

theorem turn_cfg : s'.cfg = s.cfg := by rw [engineTurn_fields hs]
theorem turn_encs : s'.encs = s.encs := by rw [engineTurn_fields hs]
theorem turn_busy : s'.busy = s.busy := by rw [engineTurn_fields hs]
theorem turn_evt : s'.evt = s.evt := by rw [engineTurn_fields hs]
theorem turn_updWait : s'.updWait = s.updWait := by rw [engineTurn_fields hs]
theorem turn_todo : s'.todo = s.todo := by rw [engineTurn_fields hs]

end

/-! ## The moves, case by case (46_update_cycle.md R245, R246, 60_exceptions.md R290, 70_reset_and_hazards.md R330) -/

theorem engineMove_stalled {s : State} (he : s.evt ≠ none) : engineMove s = .settled s := by
  simp [engineMove, Option.isSome_iff_ne_none, he]

theorem engineMove_task {s : State} {k : Task} {rest : List Task} (he : s.evt = none) (hl : s.todo = k :: rest) :
    engineMove s = taskMove k { s with todo := rest } := by
  simp [engineMove, he, hl]

theorem engineMove_update {s : State} (he : s.evt = none) (hl : s.todo = []) (hu : s.updWait ≠ 0)
    (hb : s.busy = false) :
    engineMove s = .fetch .cmd64 (encode .update).2 { s with updWait := s.updWait - 1 } := by
  simp [engineMove, he, hl, hu, hb]

theorem engineMove_uIdle {s : State} (he : s.evt = none) (hl : s.todo = []) (hu : s.updWait = 0 ∨ s.busy = true) :
    engineMove s = .fetch .uop5 (encode .uIdle).2 s := by
  rcases hu with hu | hu <;> simp [engineMove, he, hl, hu]

/-- A step in which the host asserts `rst` between two moves. -/
theorem step_rst {s : State} {h : List HostAct} (hh : s.host = .rst :: h) :
    step s = .next (resetBlock { s with host := h }) := by
  rw [step, nextMove, hh]
  rfl

/-! ## Coherence: the sequencer and the work list (10_state.md R26, 46_update_cycle.md R246) -/

/-- An idle engine is coherent when it has nothing left to do, no record waits and the sequencer is at zero. -/
theorem coherent_of_idle {s : State} (hb : s.busy = false) (hl : s.todo = []) (he : s.evt = none)
    (hp : s.phase = 0#5) (hi : s.ix = 0#8) (hj : s.jx = 0#8) : Coherent s :=
  ⟨fun _ => ⟨hl, he, hp, hi, hj⟩, fun h => absurd (hb.symm.trans h) Bool.false_ne_true⟩

/-- The host's list is no part of coherence. -/
theorem coherent_host {s : State} (h : Coherent s) (l : List HostAct) : Coherent { s with host := l } := h

/-- An acknowledge ends the wait for it and leaves the sequencer alone (60_exceptions.md R295). -/
theorem acknowledge_coherent (bit : Bool) {s : State} (h : Coherent s) : Coherent (acknowledge bit s) := by
  refine ⟨fun hb => ?_, h.2⟩
  obtain ⟨hl, -, hp, hi, hj⟩ := h.1 hb
  exact ⟨hl, rfl, hp, hi, hj⟩

/-- After `rst` the engine is idle (70_reset_and_hazards.md R330). -/
theorem resetBlock_coherent (s : State) : Coherent (resetBlock s) := coherent_of_idle rfl rfl rfl rfl rfl rfl

/-- A command keeps coherence: a busy engine keeps its work list, an idle one stays idle or starts a sequence. -/
theorem commandFrame_coherent {s t : State} (hf : CommandFrame s t) (h : Coherent s) : Coherent t := by
  cases hb : s.busy with
  | true =>
    obtain ⟨-, hbt, hlt⟩ := hf.whenBusy hb
    obtain ⟨pre, last, hl, hc, hi⟩ := h.2 hb
    exact coherent_of_list (l := []) hbt (hlt.trans hl) hc hi (by simp)
  | false =>
    obtain ⟨hl, he, hp, hi, hj⟩ := h.1 hb
    rcases hf.whenIdle hb with ⟨hbt, hlt, hpt, hit, hjt⟩ | ⟨hbt, pre, last, hlt, hc, hin⟩
    · exact coherent_of_idle hbt (hlt.trans hl) (hf.evt.trans he) (hpt.trans hp) (hit.trans hi) (hjt.trans hj)
    · exact coherent_of_list (l := []) hbt (by rw [hlt, hl]; simp) hc hin (by simp)

/-- A command word, reserved or not, takes a coherent state to a coherent state (30_encoding.md R105). -/
theorem runWord_command_coherent (w : BitVec 64) {s : State} (h : Coherent s) :
    ∃ t, runWord .cmd64 w s = .next t ∧ Coherent t := by
  cases hd : decode .cmd64 w with
  | ok i =>
    obtain ⟨t, ht, hf⟩ := exec_command hd s
    exact ⟨t, (runWord_ok hd s).trans ht, commandFrame_coherent hf h⟩
  | error r => exact ⟨respond .error 0#32 s, by rw [runWord, hd]; rfl, h⟩

/-- The codes 0x00 to 0x0F all name a micro-operation (30_encoding.md R108). -/
theorem decode_uop_total {w : BitVec 64} (hw : w.toNat < 16) : ∃ i, decode .uop5 w = .ok i := by
  have hw' : w = BitVec.ofNat 64 w.toNat := by simp
  generalize w.toNat = n at hw hw'
  subst hw'
  interval_cases n <;> exact ⟨_, rfl⟩

/-- The engine's turn is no part of coherence. -/
theorem coherent_turn {s s' : State} (hs : EngineTurn s s') (h : Coherent s) : Coherent s' := by
  rw [engineTurn_fields hs]
  exact h

/-- What stays of a work list when a busy engine puts micro-operations in front of what is left of it. -/
theorem coherent_of_front {t : State} {rest : List Task} (hb : t.busy = true)
    (hr : ∃ pre last, rest = pre ++ [last] ∧ Closing last ∧ ∀ k ∈ pre, Inner k)
    (ht : ∃ front, t.todo = front ++ rest ∧ ∀ k ∈ front, Inner k) : Coherent t := by
  obtain ⟨pre, last, hl, hc, hi⟩ := hr
  obtain ⟨front, hlt, hf⟩ := ht
  exact coherent_of_list hb (by rw [hlt, hl]) hc hi hf

/-- A task inside a sequence, taken from the work list of a coherent state, leaves a coherent state. -/
theorem inner_task_coherent {k : Task} (hk : Inner k) {s : State} (hb : s.busy = true)
    (hr : ∃ pre last, s.todo = pre ++ [last] ∧ Closing last ∧ ∀ t ∈ pre, Inner t) :
    ∃ t, runMove (taskMove k s) = .next t ∧ Coherent t := by
  have chained : ∀ t, Chain s t → Coherent t := fun t h => coherent_of_front (h.busy.trans hb) hr h.todo
  cases k with
  | op f w item =>
    obtain ⟨rfl, hw⟩ := hk
    obtain ⟨i, hd⟩ := decode_uop_total hw
    obtain ⟨t, ht, hf⟩ := exec_inner (decode_inner hd hw) (loadSequencer .uop5 w item s)
    exact ⟨t, (runWord_ok hd _).trans ht, coherent_of_front (hf.busy.trans hb) hr hf.todo⟩
  | matCols n => exact ⟨_, rfl, chained _ (chain_matDebFrom n s)⟩
  | expLanes n => exact ⟨_, rfl, chained _ (chain_expDebFrom n s)⟩
  | commitRest => exact ⟨_, rfl, chained _ (chain_commitRest s)⟩
  | afterGate => exact hk.elim
  | afterValidate => exact hk.elim
  | beginEnd => exact hk.elim
  | cycleEnd => exact hk.elim

/-- The tasks of an update cycle that polls: micro-operations and the end (46_update_cycle.md R232). -/
theorem pollTasks_front (s : State) : ∃ pre, pollTasks s = pre ++ [.cycleEnd] ∧ ∀ k ∈ pre, Inner k := by
  refine ⟨itemTasks s.cfg.numExp [0x07#5, 0x08#5] ++
    (if s.psMode then [] else itemTasks s.cfg.numRows [0x09#5, 0x0A#5]) ++ itemTasks s.cfg.numGpio [0x0B#5] ++
    itemTasks s.cfg.numEnc [0x0C#5, 0x0D#5] ++ [uopTask 0x0E#5 none], by simp [pollTasks], ?_⟩
  have rows : ∀ k ∈ (if s.psMode then [] else itemTasks s.cfg.numRows [0x09#5, 0x0A#5]), Inner k := by
    split
    · simp
    · exact inner_itemTasks _ _ (by decide)
  intro k hk
  simp only [List.mem_append, List.mem_singleton] at hk
  rcases hk with (((hk | hk) | hk) | hk) | rfl
  · exact inner_itemTasks _ _ (by decide) k hk
  · exact rows k hk
  · exact inner_itemTasks _ _ (by decide) k hk
  · exact inner_itemTasks _ _ (by decide) k hk
  · exact inner_uopTask _ (by decide) _

/-- The tasks of an update cycle that skips: U_PS_ENTER and the end (R232). -/
theorem skipTasks_front : ∃ pre, skipTasks = pre ++ [.cycleEnd] ∧ ∀ k ∈ pre, Inner k :=
  ⟨[uopTask 0x06#5 none], rfl, by simpa using inner_uopTask _ (by decide) _⟩

/-- The tasks of BEGIN after validation: micro-operations and the end (47_host_commands.md R265). -/
theorem beginTasks_front (s : State) : ∃ pre, beginTasks s = pre ++ [.beginEnd] ∧ ∀ k ∈ pre, Inner k := by
  refine ⟨[uopTask 0x02#5 none, uopTask 0x03#5 none] ++ itemTasks s.cfg.numExp [0x04#5], by simp [beginTasks], ?_⟩
  intro k hk
  simp only [List.mem_append, List.mem_cons, List.not_mem_nil, or_false] at hk
  rcases hk with (rfl | rfl) | hk
  · exact inner_uopTask _ (by decide) _
  · exact inner_uopTask _ (by decide) _
  · exact inner_itemTasks _ _ (by decide) k hk

/-- A busy engine with micro-operations and one closing task on its work list is coherent. -/
theorem coherent_of_tasks {s : State} {last : Task} (hb : s.busy = true) (hc : Closing last)
    (h : ∃ pre, s.todo = pre ++ [last] ∧ ∀ k ∈ pre, Inner k) : Coherent s :=
  coherent_of_front hb ⟨[], last, rfl, hc, by simp⟩ h

/-- The closing task of a work list leaves a coherent state: a branch point lists a sequence, an end goes idle. -/
theorem closing_task_coherent {k : Task} (hk : Closing k) {s : State} (hb : s.busy = true) (he : s.evt = none)
    (hl : s.todo = []) : ∃ t, runMove (taskMove k s) = .next t ∧ Coherent t := by
  cases k with
  | afterGate =>
    cases hs : s.call.skip with
    | true =>
      refine ⟨{ s with todo := skipTasks ++ s.todo }, by simp [taskMove, hs], ?_⟩
      exact coherent_of_tasks (last := .cycleEnd) hb trivial (by simpa [hl] using skipTasks_front)
    | false =>
      refine ⟨{ s with todo := pollTasks s ++ s.todo }, by simp [taskMove, hs], ?_⟩
      exact coherent_of_tasks (last := .cycleEnd) hb trivial (by simpa [hl] using pollTasks_front s)
  | afterValidate =>
    cases hv : s.call.valid with
    | true =>
      refine ⟨{ s with todo := beginTasks s ++ s.todo }, by simp [taskMove, hv], ?_⟩
      exact coherent_of_tasks (last := .beginEnd) hb trivial (by simpa [hl] using beginTasks_front s)
    | false =>
      refine ⟨respond .error 0#32 (goIdle s), by simp [taskMove, hv], ?_⟩
      exact coherent_of_idle rfl hl he rfl rfl rfl
  | beginEnd => exact ⟨_, rfl, coherent_of_idle rfl hl he rfl rfl rfl⟩
  | cycleEnd => exact ⟨_, rfl, coherent_of_idle rfl hl he rfl rfl rfl⟩
  | op f w item => exact hk.elim
  | matCols n => exact hk.elim
  | expLanes n => exact hk.elim
  | commitRest => exact hk.elim

/-- The engine's move from a coherent state. -/
theorem engineMove_coherent {s : State} (h : Coherent s) : ∃ t, runMove (engineMove s) = .next t ∧ Coherent t := by
  by_cases he : s.evt = none
  · cases hl : s.todo with
    | nil =>
      by_cases hu : s.updWait ≠ 0 ∧ s.busy = false
      · rw [engineMove_update he hl hu.1 hu.2]
        exact runWord_command_coherent _ h
      · rw [engineMove_uIdle he hl (by simpa [or_iff_not_imp_left] using hu)]
        exact ⟨s, rfl, h⟩
    | cons k rest =>
      rw [engineMove_task he hl]
      obtain ⟨hb, ⟨hk, hr⟩ | ⟨hk, rfl⟩⟩ := coherent_task h hl
      · exact inner_task_coherent hk hb hr
      · exact closing_task_coherent hk hb he rfl
  · rw [engineMove_stalled he]
    exact ⟨s, rfl, h⟩

/-- Settles O8: every action of the host and every move of the engine goes on coherently. -/
theorem coherentStatesGoOn : Obligations.CoherentStatesGoOn := by
  intro s h
  cases hh : s.host with
  | nil =>
    rw [step, nextMove, hh]
    exact engineMove_coherent h
  | cons a rest =>
    have hr : Coherent { s with host := rest } := coherent_host h rest
    cases a with
    | cmd w =>
      rw [step_command hh]
      exact runWord_command_coherent w hr
    | ack bit => exact ⟨_, by rw [step, nextMove, hh]; rfl, acknowledge_coherent bit hr⟩
    | pass =>
      rw [step, nextMove, hh]
      exact engineMove_coherent hr
    | await =>
      rw [step, nextMove, hh]
      dsimp only
      split
      · exact ⟨_, rfl, hr⟩
      · exact engineMove_coherent h
    | rst => exact ⟨_, step_rst hh, resetBlock_coherent _⟩
    | rstAfter k =>
      obtain ⟨l, -, ht⟩ := step_rstAfter hh
      exact ⟨_, ht, resetBlock_coherent _⟩

/-! ## The canonical form of the register arrays (log 18) -/

/-- A register array is left alone, or one of its elements is written. -/
def PutOnce {α : Type} [DecidableEq α] (d : α) (t t' : Table α) : Prop := t' = t ∨ ∃ n x, t' = Table.put d t n x

theorem PutOnce.wf {α : Type} [DecidableEq α] {d : α} {t t' : Table α} (h : PutOnce d t t')
    (ht : Table.wf d t = true) : Table.wf d t' = true := by
  rcases h with rfl | ⟨n, x, rfl⟩
  · exact ht
  · exact Table.wf_put d t n x ht

/-- WR writes at most one element of each table (10_state.md R32, R34). -/
theorem writeReg_tables {r : HostReg} {imm : Word} {s u : State} (h : writeReg r imm s = some u) :
    PutOnce 0xFF#8 s.cfg.rowPin u.cfg.rowPin ∧ PutOnce 0xFF#8 s.cfg.colPin u.cfg.colPin ∧
    PutOnce 0xFF#8 s.cfg.gpioPin u.cfg.gpioPin ∧ PutOnce 0xFF#8 s.cfg.encPinA u.cfg.encPinA ∧
    PutOnce 0xFF#8 s.cfg.encPinB u.cfg.encPinB ∧ PutOnce 0xFF#8 s.cfg.encPinBtn u.cfg.encPinBtn ∧
    PutOnce ExpCfg.reset s.cfg.expCfg u.cfg.expCfg ∧ PutOnce 4#3 s.cfg.encDivisor u.cfg.encDivisor := by
  have kept : ∀ {α : Type} [DecidableEq α] (d : α) (t : Table α), PutOnce d t t := fun d t => .inl rfl
  have put : ∀ {α : Type} [DecidableEq α] (d : α) (t : Table α) (n : Nat) (x : α), PutOnce d t (Table.put d t n x) :=
    fun d t n x => .inr ⟨n, x, rfl⟩
  cases r <;> simp only [writeReg, Option.map_eq_some_iff, Option.ite_none_right_eq_some,
    Option.ite_none_left_eq_some, Option.some.injEq, reduceCtorEq] at h
  case activeProfile => obtain ⟨-, rfl⟩ := h; simp [kept]
  case encDivisor i => obtain ⟨-, rfl⟩ := h; simp [kept, put]
  case numRows => obtain ⟨n, -, rfl⟩ := h; simp [kept]
  case numCols => obtain ⟨n, -, rfl⟩ := h; simp [kept]
  case numGpio => obtain ⟨n, -, rfl⟩ := h; simp [kept]
  case numEnc => obtain ⟨n, -, rfl⟩ := h; simp [kept]
  case numExp => obtain ⟨n, -, rfl⟩ := h; simp [kept]
  all_goals (subst h; simp [kept, put, setEnc])

/-- A write of a host register keeps the configuration's tables in canonical form. -/
theorem writeReg_canonical {r : HostReg} {imm : Word} {s u : State} (h : writeReg r imm s = some u)
    (hs : Canonical s) : Canonical { s with cfg := u.cfg } := by
  obtain ⟨h1, h2, h3, h4, h5, h6, hrow, hcol, hgpio, hA, hB, hbtn, hexp, hdiv⟩ := hs
  obtain ⟨wrow, wcol, wgpio, wA, wB, wbtn, wexp, wdiv⟩ := writeReg_tables h
  exact ⟨h1, h2, h3, h4, h5, h6, wrow.wf hrow, wcol.wf hcol, wgpio.wf hgpio, wA.wf hA, wB.wf hB, wbtn.wf hbtn,
    wexp.wf hexp, wdiv.wf hdiv⟩

/-- Every update of a step keeps the canonical form. -/
theorem upd_canonical {s t : State} (hs : Canonical s) (h : Upd s t) : Canonical t := by
  cases h with
  | prim hp => exact (Chain.one hp).canonical hs
  | fresh e c t0 =>
    obtain ⟨h1, h2, h3, h4⟩ := hs
    exact ⟨h1, h2, Table.wf_put _ _ _ _ h3, h4⟩
  | position e v =>
    obtain ⟨h1, h2, h3, h4⟩ := hs
    exact ⟨h1, h2, Table.wf_put _ _ _ _ h3, h4⟩
  | config r imm u hw => exact writeReg_canonical hw hs
  | clear => exact hs
  | record w => exact hs
  | noRecord => exact hs
  | reset =>
    obtain ⟨-, -, -, -, -, hpins, -⟩ := hs
    exact ⟨rfl, rfl, rfl, rfl, rfl, hpins, rfl, rfl, rfl, rfl, rfl, rfl, rfl, rfl⟩
  | served b l =>
    obtain ⟨h1, h2, h3, h4, h5, hpins, h7⟩ := hs
    exact ⟨h1, h2, h3, h4, h5, Env.served_wf b l hpins, h7⟩
  | other t => exact hs

/-- Settles O9: a step is a sequence of updates, and each of them keeps the canonical form. -/
theorem canonicalFormKept : Obligations.CanonicalFormKept :=
  fun _ _ hs h => (step_upds h).keeps (fun _ _ => upd_canonical) hs

/-! ## The last-error slot (10_state.md R28, 60_exceptions.md R283) -/

/-- Every update of a step keeps the last-error slot legal: RAISE records one of its six kinds, CLEAR_ERROR, BEGIN and
`rst` empty the slot. -/
theorem upd_slotLegal {s t : State} (hs : SlotLegal s) (h : Upd s t) : SlotLegal t := by
  cases h with
  | prim hp => exact (Chain.one hp).slotLegal hs
  | clear => exact ⟨by simp, fun _ => ⟨rfl, rfl⟩⟩
  | reset => exact ⟨ErrKind.noConfusion, fun _ => ⟨rfl, rfl⟩⟩
  | fresh e c t0 => exact hs
  | position e v => exact hs
  | config r imm u hw => exact hs
  | record w => exact hs
  | noRecord => exact hs
  | served b l => exact hs
  | other t => exact hs

/-- Settles O11: a step is a sequence of updates, and each of them keeps the slot legal. -/
theorem errorSlotKept : Obligations.ErrorSlotKept :=
  fun _ _ hs h => (step_upds h).keeps (fun _ _ => upd_slotLegal) hs

/-! ## The configuration registers hold legal values (10_state.md R30, R34) -/

/-- The profile in use exists (R30). -/
def ProfileLegal (s : State) : Prop := s.cfg.activeProfile.toNat < s.cfg.profileCount.toNat

/-- Legality depends on the configuration, the parameters and `initialized` only. -/
theorem configLegal_congr {s t : State} (h : ConfigLegal s) (hc : t.cfg = s.cfg) (hp : t.params = s.params)
    (hi : t.initialized = true → s.initialized = true ∨ ProfileLegal s) : ConfigLegal t := by
  obtain ⟨h1, h2, h3, h4, h5, h6, h7⟩ := h
  unfold ConfigLegal
  rw [hc, hp]
  exact ⟨h1, h2, h3, h4, h5, h6, fun ht => (hi ht).elim h7 id⟩

/-- Soundness of a BEGIN in progress, in a state with the same configuration. -/
theorem beginSound_congr {s t : State} (h : BeginSound s) (hc : t.cfg = s.cfg)
    (hv : t.busy = true → t.call.valid = true → (s.busy = true ∧ s.call.valid = true) ∨ ProfileLegal s)
    (hl : Task.beginEnd ∈ t.todo → Task.beginEnd ∈ s.todo ∨ ProfileLegal s) : BeginSound t := by
  unfold BeginSound
  rw [hc]
  exact ⟨fun hb hvt => (hv hb hvt).elim (fun ⟨a, b⟩ => h.1 a b) id, fun hm => (hl hm).elim h.2 id⟩

/-- In an idle engine with nothing left to do no BEGIN is in progress. -/
theorem beginSound_of_idle {s : State} (hb : s.busy = false) (hl : s.todo = []) : BeginSound s :=
  ⟨fun h => absurd (hb.symm.trans h) Bool.false_ne_true, fun h => by simp [hl] at h⟩

/-- After `rst` every configuration register is legal (R41). -/
theorem resetBlock_configLegal (s : State) : ConfigLegal (resetBlock s) :=
  ⟨Nat.zero_le _, Nat.zero_le _, Nat.zero_le _, Nat.zero_le _, Nat.zero_le _,
    fun _ => show 1 ≤ (4#3).toNat ∧ (4#3).toNat ≤ 4 by decide, fun h => absurd h Bool.false_ne_true⟩

theorem legalCount_le {l : Byte} {imm : Word} {n : Byte} (h : legalCount l imm = some n) : n.toNat ≤ l.toNat := by
  simp only [legalCount, Option.ite_none_right_eq_some, Option.some.injEq] at h
  obtain ⟨hn, rfl⟩ := h
  exact hn

/-- What an accepted WR leaves is legal: a count is at most its capacity, a divisor 1 to 4, the active profile below the
profile count while initialised, and a structural register ends that (R30, R34, R37). -/
theorem writeReg_legal {r : HostReg} {imm : Word} {s u : State} (h : writeReg r imm s = some u) (hs : ConfigLegal s) :
    ConfigLegal (if r.structural then { u with initialized := false } else u) := by
  obtain ⟨h1, h2, h3, h4, h5, h6, h7⟩ := hs
  have off : ∀ {p : Prop}, false = true → p := fun hf => absurd hf Bool.false_ne_true
  cases r <;> simp only [writeReg, Option.map_eq_some_iff, Option.ite_none_right_eq_some,
    Option.ite_none_left_eq_some, Option.some.injEq, reduceCtorEq] at h
  case activeProfile =>
    obtain ⟨hn, rfl⟩ := h
    exact ⟨h1, h2, h3, h4, h5, h6, fun hi => Nat.lt_of_not_le fun hle => hn ⟨hi, hle⟩⟩
  case encDivisor i =>
    obtain ⟨hd, rfl⟩ := h
    refine ⟨h1, h2, h3, h4, h5, fun e => ?_, h7⟩
    simp only [HostReg.structural, HostCfg.encDivisorAt, get_put_byte, Bool.false_eq_true, if_false]
    split
    · exact hd
    · exact h6 e
  case numRows => obtain ⟨n, hn, rfl⟩ := h; exact ⟨legalCount_le hn, h2, h3, h4, h5, h6, off⟩
  case numCols => obtain ⟨n, hn, rfl⟩ := h; exact ⟨h1, legalCount_le hn, h3, h4, h5, h6, off⟩
  case numGpio => obtain ⟨n, hn, rfl⟩ := h; exact ⟨h1, h2, legalCount_le hn, h4, h5, h6, off⟩
  case numEnc => obtain ⟨n, hn, rfl⟩ := h; exact ⟨h1, h2, h3, legalCount_le hn, h5, h6, off⟩
  case numExp => obtain ⟨n, hn, rfl⟩ := h; exact ⟨h1, h2, h3, h4, legalCount_le hn, h6, off⟩
  case profileCount => subst h; exact ⟨h1, h2, h3, h4, h5, h6, off⟩
  all_goals (subst h; first | exact ⟨h1, h2, h3, h4, h5, h6, h7⟩ | exact ⟨h1, h2, h3, h4, h5, h6, off⟩)

/-- WR leaves the progress of the engine alone. -/
theorem writeReg_progress {r : HostReg} {imm : Word} {s u : State} (h : writeReg r imm s = some u) :
    u.busy = s.busy ∧ u.todo = s.todo := by
  rcases writeReg_cases h with h | ⟨e, -, rfl⟩
  · rw [h]; exact ⟨rfl, rfl⟩
  · exact ⟨rfl, rfl⟩

/-- A legal configuration together with the invariant of a BEGIN in progress. -/
def Legal (s : State) : Prop := ConfigLegal s ∧ BeginSound s

theorem resetBlock_legal (s : State) : Legal (resetBlock s) :=
  ⟨resetBlock_configLegal s, beginSound_of_idle rfl rfl⟩

/-- The start of an update cycle: only an initialised block accepts it, so its profile is legal. -/
theorem acceptUpdate_legal {s : State} (h : Legal s) (hi : s.initialized = true) : Legal (acceptUpdate s) := by
  obtain ⟨-, -, -, -, -, -, hprofile⟩ := h.1
  have hp : ProfileLegal s := hprofile hi
  exact ⟨configLegal_congr h.1 rfl rfl .inl, beginSound_congr h.2 rfl (fun _ _ => .inr hp) fun _ => .inr hp⟩

/-- The start of BEGIN: the earlier result of U_VALIDATE is dropped and the block is no longer initialised. -/
theorem begin_legal {s t : State} (hco : Coherent s) (h : Legal s) (hb : s.busy = false)
    (ht : t = { now { clearSlot { s with busy := true, initialized := false } with
      tCycle := s.env.nowAnswer, call.valid := false } with todo := [uopTask 0x01#5 none, .afterValidate] ++ s.todo }) :
    Legal t := by
  obtain ⟨hl, -⟩ := hco.1 hb
  subst ht
  refine ⟨configLegal_congr h.1 rfl rfl fun hi => absurd hi Bool.false_ne_true,
    fun _ hv => absurd hv Bool.false_ne_true, fun hm => ?_⟩
  simp [hl, uopTask] at hm

/-- Every command keeps the configuration legal. -/
theorem command_legal {i : Instr} {w : BitVec 64} (hd : decode .cmd64 w = .ok i) {s t : State} (hco : Coherent s)
    (h : Legal s) (hx : exec i s = .next t) : Legal t := by
  rcases decode_command hd with rfl | ⟨a, b, c, rfl⟩ | ⟨a, b, c, d, rfl⟩ | rfl | rfl | rfl | rfl
  · cases hx
    exact h
  · obtain ⟨st, d, n, rfl⟩ := rd_cases hx
    exact h
  · rcases wr_cases hx with ⟨st, rfl⟩ | ⟨hb, r, u, -, hw, rfl⟩
    · exact h
    · obtain ⟨hub, hul⟩ := writeReg_progress hw
      refine ⟨writeReg_legal hw h.1, beginSound_of_idle ?_ ?_⟩
      · rw [respond_busy]
        split <;> exact hub.trans hb
      · rw [respond_todo]
        split <;> exact hul.trans (hco.1 hb).1
  · rcases begin_cases hx with rfl | ⟨hb, ht⟩
    · exact h
    · exact begin_legal hco h hb ht
  · rcases tryUpdate_cases hx with ⟨st, rfl⟩ | ⟨hi, -, rfl⟩
    · exact h
    · exact acceptUpdate_legal h hi
  · rcases update_cases hx with rfl | ⟨-, rfl⟩ | ⟨hi, -, rfl⟩
    · exact h
    · exact h
    · exact acceptUpdate_legal h hi
  · cases hx
    exact h

/-- Micro-operations in front of a work list add no end of BEGIN to it. -/
theorem beginEnd_of_front {t : State} {l : List Task} (ht : ∃ pre, t.todo = pre ++ l ∧ ∀ k ∈ pre, Inner k)
    (hm : Task.beginEnd ∈ t.todo) : Task.beginEnd ∈ l := by
  obtain ⟨pre, hl, hi⟩ := ht
  rw [hl] at hm
  exact (List.mem_append.1 hm).resolve_left fun hp => hi _ hp

/-- A micro-operation keeps the configuration legal: only U_VALIDATE changes its own result, and it says "ok" of a legal
profile only (47_host_commands.md R266, check 2). -/
theorem innerFrame_legal {i : Instr} {s t : State} (hf : InnerFrame i s t) (h : Legal s) : Legal t := by
  refine ⟨configLegal_congr h.1 hf.cfg hf.params fun ht => .inl (hf.initialized ▸ ht),
    beginSound_congr h.2 hf.cfg (fun hb hv => ?_) fun hm => .inl (beginEnd_of_front hf.todo hm)⟩
  rcases hf.valid with he | he | ⟨-, hval⟩
  · exact .inl ⟨hf.busy ▸ hb, he ▸ hv⟩
  · exact absurd (he.symm.trans hv) Bool.false_ne_true
  · exact .inr (validateFault_profile hval)

/-- A task taken from the work list changes nothing that legality is about. -/
theorem legal_rest {s : State} (h : Legal s) {k : Task} {rest : List Task} (hl : s.todo = k :: rest) :
    Legal { s with todo := rest } :=
  ⟨h.1, beginSound_congr (t := { s with todo := rest }) h.2 rfl (fun hb hv => .inl ⟨hb, hv⟩)
    fun hm => .inl (hl ▸ List.mem_cons_of_mem k hm)⟩

/-- Branching after U_PSCHK lists no end of BEGIN (46_update_cycle.md R232). -/
theorem beginEnd_of_afterGate {s : State} (hm : Task.beginEnd ∈ (settleTask .afterGate s).todo) :
    Task.beginEnd ∈ s.todo := by
  have fresh : ∀ l : List Task, (∃ pre, l = pre ++ [.cycleEnd] ∧ ∀ k ∈ pre, Inner k) → Task.beginEnd ∉ l := by
    rintro l ⟨pre, rfl, hi⟩ hl
    rcases List.mem_append.1 hl with hp | hl
    · exact hi _ hp
    · simp at hl
  refine (List.mem_append.1 hm).resolve_left (fresh _ ?_)
  split
  · exact skipTasks_front
  · exact pollTasks_front s

/-- A task without a word keeps the configuration legal: BEGIN lists its end after a validation only, and the end finds
the profile that was validated. -/
theorem settleTask_legal (k : Task) {s : State} (h : Legal s) (hb : s.busy = true)
    (hk : k = .beginEnd → ProfileLegal s) : Legal (settleTask k s) := by
  have chained : ∀ t, Chain s t → Legal t := fun t hc => innerFrame_legal (i := .uIdle) (.of_chain hc) h
  cases k with
  | op f w item => exact h
  | matCols n => exact chained _ (chain_matDebFrom n s)
  | expLanes n => exact chained _ (chain_expDebFrom n s)
  | commitRest => exact chained _ (chain_commitRest s)
  | afterGate =>
    exact ⟨configLegal_congr h.1 rfl rfl .inl,
      beginSound_congr h.2 rfl (fun htb htv => .inl ⟨htb, htv⟩) fun hm => .inl (beginEnd_of_afterGate hm)⟩
  | afterValidate =>
    cases hv : s.call.valid with
    | true =>
      have hp : ProfileLegal s := h.2.1 hb hv
      simp only [settleTask, hv, if_true]
      exact ⟨configLegal_congr h.1 rfl rfl .inl, beginSound_congr h.2 rfl (fun _ _ => .inr hp) fun _ => .inr hp⟩
    | false =>
      simp only [settleTask, hv, Bool.false_eq_true, if_false]
      exact ⟨configLegal_congr h.1 rfl rfl .inl,
        beginSound_congr h.2 rfl (fun htb _ => absurd htb Bool.false_ne_true) .inl⟩
  | beginEnd =>
    exact ⟨configLegal_congr h.1 rfl rfl fun _ => .inr (hk rfl),
      beginSound_congr h.2 rfl (fun htb _ => absurd htb Bool.false_ne_true) .inl⟩
  | cycleEnd =>
    exact ⟨configLegal_congr h.1 rfl rfl .inl,
      beginSound_congr h.2 rfl (fun htb _ => absurd htb Bool.false_ne_true) .inl⟩

/-- The engine's turn is no part of legality. -/
theorem legal_turn {s s' : State} (hs : EngineTurn s s') (h : Legal s) : Legal s' := by
  rw [engineTurn_fields hs]
  exact h

/-- An operation at the front of a coherent work list is a micro-operation that `phase` can hold. -/
theorem coherent_op {s : State} (h : Coherent s) {f : Fmt} {w : BitVec 64} {item : Option Byte} {rest : List Task}
    (hl : s.todo = .op f w item :: rest) : f = .uop5 ∧ w.toNat < 16 := by
  obtain ⟨-, ⟨hk, -⟩ | ⟨hk, -⟩⟩ := coherent_task h hl
  · exact hk
  · exact hk.elim

/-- Settles O10: every way in which a step can go keeps the configuration and a BEGIN in progress legal. -/
theorem legalConfigurationKept : Obligations.LegalConfigurationKept := by
  intro s t hco hcf hbs hst
  have h : Legal s := ⟨hcf, hbs⟩
  show Legal t
  cases step_cases hst with
  | command w l i hh hd hx => exact command_legal hd (coherent_host hco l) h hx
  | reserved w l r hh hd ht => subst ht; exact h
  | ack bit l hh ht => subst ht; exact h
  | rst l hh ht => subst ht; exact resetBlock_legal _
  | cut k l o hh ho ht => subst ht; exact resetBlock_legal _
  | waited l hh ha ht => subst ht; exact h
  | stalled s' hs he ht => subst ht; exact legal_turn hs h
  | run s' f w item rest i hs he hl hd hx =>
    obtain ⟨rfl, hw⟩ := coherent_op hco hl
    have hr : Legal (loaded .uop5 w item rest s') := legal_rest (legal_turn hs h) ((turn_todo hs).trans hl)
    obtain ⟨u, hu, hf⟩ := exec_inner (decode_inner hd hw) (loaded .uop5 w item rest s')
    obtain rfl : u = t := by simpa [hu] using hx
    exact innerFrame_legal hf hr
  | odd s' w item rest r hs he hl hd ht => exact absurd (coherent_op hco hl).1 Fmt.noConfusion
  | task s' k rest hs he hl hk ht =>
    subst ht
    obtain ⟨hb, -⟩ := coherent_task hco hl
    refine settleTask_legal k (legal_rest (legal_turn hs h) ((turn_todo hs).trans hl)) ((turn_busy hs).trans hb) ?_
    rintro rfl
    have hp : ProfileLegal s := hbs.2 (by simp [hl])
    simpa [ProfileLegal, turn_cfg hs] using hp
  | update s' hs he hl hu hb hx =>
    have hco' : Coherent s' := coherent_turn hs hco
    have h' : Legal s' := legal_turn hs h
    exact command_legal (s := { s' with updWait := s.updWait - 1 }) decode_update hco' h' hx
  | idle s' hs he hl ht => subst ht; exact legal_turn hs h

/-! ## The error counters and the malfunction latches (10_state.md R35, 44_quadrature.md R180) -/

/-- The one word that names U_STATEINIT (30_encoding.md R108). -/
theorem decode_uStateInit {f : Fmt} {w : BitVec 64} (hd : decode f w = .ok .uStateInit) : f = .uop5 ∧ w = 0x03#64 := by
  rcases decode_formats hd with rfl | ⟨n, rfl, rfl, hn, hu⟩ | ⟨-, hp⟩ | ⟨-, v, hv⟩
  · simpa using decode_command hd
  · interval_cases n <;> first | exact ⟨rfl, rfl⟩ | cases hu
  · exact hp.elim
  · have hr : stateInit State.reset = present v State.reset := Host.Outcome.next.inj (hv State.reset)
    exact absurd (congrArg State.evt hr) (by simp [stateInit, State.reset, HostCfg.reset, forAsc])

/-- Counters kept from a state with the same encoder records. -/
theorem counters_of_same {s s' t : State} (h : s'.encs = s.encs) (hk : CountersKept s' t) : CountersKept s t := by
  intro e
  rw [← enc_congr h e]
  exact hk e

/-- A step keeps the counters and the latches, U_STATEINIT and `rst` apart. -/
theorem step_countersKept {s t : State} (h : step s = .next t) (hr : ¬ Resets s)
    (hi : ∀ item rest, s.todo ≠ .op .uop5 0x03#64 item :: rest) : CountersKept s t := by
  cases step_cases h with
  | command w l i hh hd hx =>
    obtain ⟨u, hu, hf⟩ := exec_command hd { s with host := l }
    obtain rfl : u = t := by simpa [hu] using hx
    exact hf.counters
  | reserved w l r hh hd ht => subst ht; exact .of_encs rfl
  | ack bit l hh ht => subst ht; exact .of_encs rfl
  | rst l hh ht => exact absurd (.inl ⟨l, hh⟩) hr
  | cut k l o hh ho ht => exact absurd (.inr ⟨k, l, hh⟩) hr
  | waited l hh ha ht => subst ht; exact .of_encs rfl
  | stalled s' hs he ht => subst ht; exact counters_of_same (turn_encs hs) (.of_encs rfl)
  | run s' f w item rest i hs he hl hd hx =>
    refine counters_of_same (turn_encs hs) ((exec_word hd hx).counters ?_)
    rintro rfl
    obtain ⟨rfl, rfl⟩ := decode_uStateInit hd
    exact hi item rest hl
  | odd s' w item rest r hs he hl hd ht => subst ht; exact counters_of_same (turn_encs hs) (.of_encs rfl)
  | task s' k rest hs he hl hk ht =>
    subst ht
    obtain ⟨-, -, -, hc⟩ := settleTask_frame k { s' with todo := rest }
    exact counters_of_same (turn_encs hs) hc
  | update s' hs he hl hu hb hx =>
    have hw := exec_word decode_update hx
    exact counters_of_same (turn_encs hs) (hw.counters Instr.noConfusion)
  | idle s' hs he hl ht => subst ht; exact counters_of_same (turn_encs hs) (.of_encs rfl)

/-- Settles O16: `step_countersKept` at one encoder. -/
theorem errorCountersNeverFall : Obligations.ErrorCountersNeverFall :=
  fun _ _ e h hr hi => step_countersKept h hr hi e

/-! ## `rst` (10_state.md R41, 70_reset_and_hazards.md R330, R332) -/

/-- The block's reset values, whatever environment, host and trace go on beside them. -/
theorem resetBlock_atReset (s : State) : AtReset (resetBlock s) := by
  have lanes : ∀ d, ((resetBlock s).exp d).last16 = 0#16 ∧ ((resetBlock s).exp d).conf16 = 0#16 ∧
      ∀ b, ((resetBlock s).exp d).laneTs b = 0#32 := by
    refine fun d => ⟨rfl, rfl, fun b => ?_⟩
    show (Vector.replicate 16 0#32)[b.toNat] = 0#32
    simp
  exact ⟨fun _ _ => rfl, fun _ => rfl, fun _ => rfl, lanes, rfl, rfl, rfl, rfl, rfl, rfl, rfl, rfl, rfl, rfl, rfl, rfl,
    rfl, fun _ => rfl, rfl, rfl, rfl, rfl, rfl, rfl, rfl, rfl, rfl, rfl, rfl, rfl, rfl, rfl, rfl, rfl, rfl,
    fun _ => ⟨rfl, rfl, rfl, rfl, rfl, rfl⟩, fun _ => rfl, fun _ => rfl⟩

/-- `State.reset` is what `rst` leaves of it. -/
theorem reset_atReset : AtReset State.reset := resetBlock_atReset State.reset

/-- What is issued on the way is what was put before the trace. -/
theorem issuedBetween_of_append {s u : State} {l : List Out} (h : u.out = l.reverse ++ s.out) :
    issuedBetween s u = l := by
  simp [issuedBetween, h]

/-- Settles O7: at reset, after `rst` between two moves, and after `rst` during a move, where the first `k` things
issued and the environment they leave stay. -/
theorem resetLeavesTheResetValues : Obligations.ResetLeavesTheResetValues := by
  refine ⟨reset_atReset, fun s h hh => ?_, fun s k h hh => ?_⟩
  · exact ⟨_, step_rst hh, resetBlock_atReset _, rfl, rfl, rfl, rfl⟩
  · obtain ⟨l, hl, ht⟩ := step_rstAfter hh
    refine ⟨_, ht, resetBlock_atReset _, rfl, rfl, fun u l' hu ho => ?_⟩
    obtain rfl : l = l'.take k := (hl u hu).trans (by rw [issuedBetween_of_append ho])
    exact ⟨rfl, fun p => Env.served_pin false _ s.env p, Env.served_byteIn false _ s.env⟩

/-! ## The invariants at reset -/

/-- Settles O14: the reset state is idle, its tables are empty, and its slot and event port too. -/
theorem invariantsHoldAtReset : Obligations.InvariantsHoldAtReset where
  coherent := resetBlock_coherent State.reset
  canonical := ⟨rfl, rfl, rfl, rfl, rfl, rfl, rfl, rfl, rfl, rfl, rfl, rfl, rfl, rfl⟩
  config := resetBlock_configLegal State.reset
  beginSound := beginSound_of_idle rfl rfl
  slot := ⟨ErrKind.noConfusion, fun _ => ⟨rfl, rfl⟩⟩
  malfunction := nofun
  record := nofun

/-! ## The word that a step runs -/

/-- The word of U_IDLE. -/
theorem decode_uIdle : decode .uop5 (encode .uIdle).2 = .ok .uIdle := by decide

/-- Settles O5: a command word of the host, a word of the work list after its item and code are loaded, a waiting
UPDATE, or U_IDLE. -/
theorem stepRunsTheDecodedWord : Obligations.StepRunsTheDecodedWord := by
  refine ⟨fun s w h i hh hd => ?_, fun s s' f w item rest i hs he hl hd => ?_, fun s s' hs he hl hu hb => ?_,
    fun s s' hs he hl hb => ?_⟩
  · rw [step_command hh, runWord_ok hd]
  · rw [step_task hs he hl, taskMove, runMove_fetch, runWord_ok hd]
    obtain ⟨host, rfl⟩ : ∃ host, s' = { s with host := host } := ⟨_, engineTurn_fields hs⟩
    rfl
  · rw [step, nextMove_engine hs he, engineMove_update ((turn_evt hs).trans he) ((turn_todo hs).trans hl)
      ((turn_updWait hs).trans_ne hu) ((turn_busy hs).trans hb), runMove_fetch, runWord_ok decode_update,
      turn_updWait hs]
  · have hb' : s'.updWait = 0 ∨ s'.busy = true := by rwa [turn_updWait hs, turn_busy hs]
    rw [step, nextMove_engine hs he, engineMove_uIdle ((turn_evt hs).trans he) ((turn_todo hs).trans hl) hb',
      runMove_fetch, runWord_ok decode_uIdle]

/-! ## The addresses of the host registers (10_state.md R33, R36) -/

/-- An address that is named resolves to a register. -/
theorem resolve_of_named {p : Params} {reg i j : Byte} (h : Named p reg i j) : ∃ r, resolve p reg i j = some r :=
  Option.isSome_iff_exists.1 ((named_iff p reg i j).1 h)

theorem resolve_of_not_named {p : Params} {reg i j : Byte} (h : ¬ Named p reg i j) : resolve p reg i j = none := by
  rw [named_iff] at h
  simpa using h

/-- RD of an address that names nothing (47_host_commands.md R263). -/
theorem rd_unnamed {s : State} {reg i j : Byte} (h : resolve s.params reg i j = none) :
    Answers (.rd reg i j) s .error 0#32 := by
  show execRd reg i j s = _
  simp [execRd, h, respond]

/-- WR of an address that names nothing, by an idle engine (R264). -/
theorem wr_unnamed {s : State} {reg i j : Byte} (hb : s.busy = false) (h : resolve s.params reg i j = none)
    (imm : Word) : Answers (.wr reg i j imm) s .error 0#32 := by
  show execWr reg i j imm s = _
  simp [execWr, hb, h, respond]

/-- Settles O18: `Named` is what resolves; a register that resolves answers its value, or a free one while it races. -/
theorem registerAddresses : Obligations.RegisterAddresses := by
  refine fun s reg i j => ⟨fun hn => ?_, fun hn => ?_⟩
  · obtain ⟨r, hr⟩ := resolve_of_named hn
    cases hc : racingRead r s with
    | false => exact ⟨regValue r s, s.env.draws, rd_answers hr hc⟩
    | true => exact ⟨_, _, rd_races hr hc⟩
  · have hr : resolve s.params reg i j = none := resolve_of_not_named hn
    exact ⟨rd_unnamed hr, fun hb imm => wr_unnamed hb hr imm⟩

/-- A named address from 0x20 up is read-only (R36). -/
theorem wr_readOnly {s : State} {reg i j : Byte} (hb : s.busy = false) (hn : Named s.params reg i j)
    (hr : 0x20 ≤ reg.toNat) (imm : Word) : Answers (.wr reg i j imm) s .error 0#32 := by
  obtain ⟨r, h⟩ := resolve_of_named hn
  exact wr_refused hb h ((resolve_kind h).2 hr imm s)

/-- Settles O22: a register of the racy block, read while the engine runs and no record holds it still. -/
theorem racingReadIsFree : Obligations.RacingReadIsFree := by
  intro s reg i j hn hrb hb he
  obtain ⟨r, h⟩ := resolve_of_named hn
  have hracy : r.racy = true := by
    refine (resolve_kind h).1 (hrb.imp ?_ id)
    rintro rfl
    rfl
  exact rd_races h (by simp [racingRead, hracy, hb, he])

/-! ## The values of RD -/

/-- RD of a register that never races. -/
theorem reads_steady {s : State} {reg i j : Byte} {r : HostReg} {d : Word} (h : resolve s.params reg i j = some r)
    (hr : r.racy = false) (hd : regValue r s = d) : Reads s reg i j d :=
  hd ▸ rd_answers h (racingRead_of_not_racy hr)

/-- RD while nothing races. -/
theorem reads_quiet {s : State} {reg i j : Byte} {r : HostReg} {d : Word} (hq : s.busy = false ∨ s.evt ≠ none)
    (h : resolve s.params reg i j = some r) (hd : regValue r s = d) : Reads s reg i j d :=
  hd ▸ rd_answers h (racingRead_of_quiet r hq)

/-- A field that fills the low bits of the datum. -/
theorem zeroExtend_byte (x : Byte) : x.zeroExtend 32 = 0#24 ++ x := (zero_append_eq x).symm

theorem zeroExtend_half (x : BitVec 16) : x.zeroExtend 32 = 0#16 ++ x := (zero_append_eq x).symm

/-- The fields of EXP_CFG (10_state.md R34). -/
theorem expCfg_fields (c : ExpCfg) :
    c.bits.extractLsb' 0 7 = c.addr ∧ c.bits.getLsbD 7 = false ∧ c.bits.getLsbD 8 = c.usePullups ∧
    c.bits.getLsbD 9 = c.useInt ∧ c.bits.extractLsb' 10 22 = 0#22 := by
  unfold ExpCfg.bits
  refine ⟨?_, bit_of_extract _ _ _ ?_, bit_of_extract _ _ _ ?_, bit_of_extract _ _ _ ?_, ?_⟩
  all_goals
    repeat (first | rw [extract_append_low _ _ _ _ (by decide)] | rw [extract_append_high _ _ _ _ (by decide)])
    exact extract_all _

/-- The fields of STATUS (R38). -/
theorem statusWord_fields (s : State) :
    s.statusWord.getLsbD 0 = s.initialized ∧ s.statusWord.getLsbD 1 = s.busy ∧ s.statusWord.getLsbD 2 = s.psMode ∧
    s.statusWord.getLsbD 3 = s.errNotified ∧ s.statusWord.getLsbD 4 = s.activity ∧
    s.statusWord.extractLsb' 5 3 = 0#3 ∧ s.statusWord.extractLsb' 8 5 = s.phase ∧
    s.statusWord.extractLsb' 13 3 = 0#3 ∧ s.statusWord.extractLsb' 16 8 = s.ix ∧
    s.statusWord.extractLsb' 24 8 = s.jx := by
  unfold State.statusWord
  refine ⟨bit_of_extract _ _ _ ?_, bit_of_extract _ _ _ ?_, bit_of_extract _ _ _ ?_, bit_of_extract _ _ _ ?_,
    bit_of_extract _ _ _ ?_, ?_, ?_, ?_, ?_, ?_⟩
  all_goals
    repeat (first | rw [extract_append_low _ _ _ _ (by decide)] | rw [extract_append_high _ _ _ _ (by decide)])
    exact extract_all _

/-- The fields of ERROR (R38). -/
theorem errorWord_fields (s : State) :
    s.errorWord.extractLsb' 0 3 = s.errKind.code ∧ s.errorWord.extractLsb' 3 5 = 0#5 ∧
    s.errorWord.extractLsb' 8 8 = s.errCause ∧ s.errorWord.extractLsb' 16 8 = s.errSrc ∧
    s.errorWord.extractLsb' 24 8 = 0#8 := by
  unfold State.errorWord
  refine ⟨?_, ?_, ?_, ?_, ?_⟩
  all_goals
    repeat (first | rw [extract_append_low _ _ _ _ (by decide)] | rw [extract_append_high _ _ _ _ (by decide)])
    exact extract_all _

/-- The fields of ENC_STATE (R39). -/
theorem encState_fields (x : Enc) :
    x.stateBits.extractLsb' 0 2 = x.lastState ∧ x.stateBits.extractLsb' 2 2 = x.pendingDir.code ∧
    x.stateBits.extractLsb' 4 2 = x.lastDir.code ∧ x.stateBits.getLsbD 6 = x.valid ∧
    x.stateBits.getLsbD 7 = x.malReported ∧ x.stateBits.extractLsb' 8 24 = 0#24 := by
  unfold Enc.stateBits
  refine ⟨?_, ?_, ?_, bit_of_extract _ _ _ ?_, bit_of_extract _ _ _ ?_, ?_⟩
  all_goals
    repeat (first | rw [extract_append_low _ _ _ _ (by decide)] | rw [extract_append_high _ _ _ _ (by decide)])
    exact extract_all _

/-- Settles O19: no configuration register races, so RD answers its value at any time. -/
theorem readConfiguration : Obligations.ReadConfiguration := by
  intro s
  refine ⟨reads_steady rfl rfl ?_, reads_steady rfl rfl rfl, reads_steady rfl rfl rfl, reads_steady rfl rfl rfl,
    reads_steady rfl rfl (zeroExtend_byte _), reads_steady rfl rfl (zeroExtend_byte _),
    reads_steady rfl rfl (zeroExtend_byte _), reads_steady rfl rfl (zeroExtend_byte _),
    reads_steady rfl rfl (zeroExtend_byte _), reads_steady rfl rfl (zeroExtend_byte _),
    reads_steady rfl rfl (zeroExtend_byte _), reads_steady rfl rfl (zero_append_eq _).symm,
    fun i h => reads_steady (indexedReg_eq h _) rfl (zeroExtend_byte _),
    fun i h => reads_steady (indexedReg_eq h _) rfl (zeroExtend_byte _),
    fun i h => reads_steady (indexedReg_eq h _) rfl (zeroExtend_byte _),
    fun i h => ⟨reads_steady (indexedReg_eq h _) rfl (zeroExtend_byte _),
      reads_steady (indexedReg_eq h _) rfl (zeroExtend_byte _),
      reads_steady (indexedReg_eq h _) rfl (zeroExtend_byte _),
      reads_steady (indexedReg_eq h _) rfl (zero_append_eq _).symm⟩,
    fun i h => ⟨(s.cfg.expCfgAt i).bits, reads_steady (indexedReg_eq h _) rfl rfl, expCfg_fields _⟩⟩
  show (BitVec.ofBool s.cfg.psEnable).zeroExtend 32 = if s.cfg.psEnable then 1#32 else 0#32
  cases s.cfg.psEnable <;> rfl

/-- Settles O20: no status register races, and all four are read-only. -/
theorem readStatusRegisters : Obligations.ReadStatusRegisters := by
  intro s
  refine ⟨⟨s.statusWord, reads_steady rfl rfl rfl, statusWord_fields s⟩,
    ⟨s.errorWord, reads_steady rfl rfl rfl, errorWord_fields s⟩, reads_steady rfl rfl rfl, reads_steady rfl rfl rfl,
    fun hb reg imm hr => ?_⟩
  have hrange : 0x20 ≤ reg.toNat ∧ reg.toNat ≤ 0x23 := by
    revert hr
    revert reg
    decide
  exact wr_readOnly hb (.inr (.inl ⟨hrange.1, hrange.2, rfl, rfl⟩)) hrange.1 imm

/-- EXP_TS of lane `b`: the index `j` is the lane (R39). -/
theorem resolve_expTs {p : Params} {i : Byte} (h : i.toNat < p.maxExp.toNat) (b : BitVec 4) :
    resolve p 0x3D#8 i (0#4 ++ b) = some (.expTs i b) := by
  have hj : (0#4 ++ b).toNat < 16 := by revert b; decide
  have hb : (0#4 ++ b).truncate 4 = b := by revert b; decide
  have hr : resolve p 0x3D#8 i (0#4 ++ b) =
      doubleReg p.maxExp.toNat 16 i (0#4 ++ b) (.expTs i ((0#4 ++ b).truncate 4)) := rfl
  rw [hr, hb, doubleReg_eq h hj]

/-- Settles O21: in an idle engine or while a record waits no register races; the read-back registers are read-only. -/
theorem readBackRegisters : Obligations.ReadBackRegisters := by
  intro s hq
  refine ⟨fun i j hi hj => ?_, fun i h => ?_, fun i h => ?_, fun i h => ?_,
    fun hb reg i j imm hn hr => wr_readOnly hb hn (by omega) imm⟩
  · have cell := fun r => doubleReg_eq hi hj r
    exact ⟨reads_quiet hq (cell _) rfl, reads_quiet hq (cell _) rfl⟩
  · have line := fun r => indexedReg_eq h r
    exact ⟨reads_quiet hq (line _) rfl, reads_quiet hq (line _) rfl⟩
  · have enc := fun r => indexedReg_eq h r
    exact ⟨⟨(s.enc i).stateBits, reads_quiet hq (enc _) rfl, encState_fields _⟩, reads_quiet hq (enc _) rfl,
      reads_quiet hq (enc _) rfl, reads_quiet hq (enc _) rfl, reads_quiet hq (enc _) rfl, reads_quiet hq (enc _) rfl,
      reads_quiet hq (enc _) rfl, reads_quiet hq (enc _) rfl⟩
  · have exp := fun r => indexedReg_eq h r
    exact ⟨reads_quiet hq (exp _) (zeroExtend_half _), reads_quiet hq (exp _) (zeroExtend_half _),
      fun b => reads_quiet hq (resolve_expTs h b) rfl⟩

end Sys2Proof.StateClaims

/-! SUPPORT. Proof of the statement about the memory (20_memory.md R81): the configuration registers stand while the engine
is busy, and the parameters (00_scope.md R6 to R8) always. -/

namespace Sys2Proof.MemoryClaims

open Sys2Proof.Machine Sys2Proof.Safety Sys2Proof.StateClaims

/-! ## The parameters (00_scope.md R6 to R8, 10_state.md R20) -/

/-- No update of a step writes the parameters: the primitive ones do not, and `rst` leaves them alone. -/
theorem upd_params {s t : State} (h : Upd s t) : t.params = s.params := by
  cases h with
  | prim hp => exact hp.params
  | fresh e c t0 => exact setEnc_params s e _
  | position e v => exact setEnc_params s e _
  | clear => exact clearSlot_params s
  | record w => exact present_params s w
  | reset => exact resetBlock_params s
  | config r imm u hw => rfl
  | noRecord => rfl
  | served b l => rfl
  | other t => rfl

/-- A step is a sequence of updates, so it keeps the parameters. -/
theorem step_params {s t : State} (h : step s = .next t) : t.params = s.params :=
  (step_upds h).keeps (P := fun u => u.params = s.params) (fun _ _ hs hu => (upd_params hu).trans hs) rfl

/-! ## The configuration while the engine is busy (20_memory.md R81) -/

/-- The configuration kept from the engine's turn is kept from the step's own state. -/
theorem cfg_of_turn {s s' t : State} (hs : EngineTurn s s') (h : t.cfg = s'.cfg) : t.cfg = s.cfg :=
  h.trans (turn_cfg hs)

/-- A step of a busy engine keeps the configuration, `rst` apart: the one operation that writes it is WR, and a busy
engine refuses WR (47_host_commands.md R264); no UPDATE starts before the engine is idle. -/
theorem step_cfg_of_busy {s t : State} (h : step s = .next t) (hb : s.busy = true) (hr : ¬ Resets s) :
    t.cfg = s.cfg := by
  cases step_cases h with
  | command w l i hh hd hx => exact (exec_word hd hx).cfg hb
  | reserved w l r hh hd ht => subst ht; exact respond_cfg _ _ _
  | ack bit l hh ht => subst ht; rfl
  | rst l hh ht => exact absurd (.inl ⟨l, hh⟩) hr
  | cut k l o hh ho ht => exact absurd (.inr ⟨k, l, hh⟩) hr
  | waited l hh ha ht => subst ht; rfl
  | stalled s' hs he ht => subst ht; exact turn_cfg hs
  | run s' f w item rest i hs he hl hd hx => exact cfg_of_turn hs ((exec_word hd hx).cfg ((turn_busy hs).trans hb))
  | odd s' w item rest r hs he hl hd ht => subst ht; exact cfg_of_turn hs rfl
  | task s' k rest hs he hl hk ht =>
    subst ht
    obtain ⟨-, hc, -⟩ := settleTask_frame k { s' with todo := rest }
    exact cfg_of_turn hs hc
  | update s' hs he hl hu hidle hx => exact absurd (hb.symm.trans hidle) Bool.noConfusion
  | idle s' hs he hl ht => subst ht; exact turn_cfg hs

/-- Settles O15: the parameters by the updates of a step, the configuration by its cases. -/
theorem configurationConstantWhileBusy : Obligations.ConfigurationConstantWhileBusy :=
  fun _ _ h => ⟨step_params h, step_cfg_of_busy h⟩

end Sys2Proof.MemoryClaims

/-! SUPPORT. Proofs of the statements about the encoding (30_encoding.md): decoder and encoder are inverse to each other,
reserved command words, the records on the event port, and the one response of a command. -/

namespace Sys2Proof.EncodingClaims

open Sys2Proof.Machine Sys2Proof.Safety Sys2Proof.StateClaims

/-! ## The width of a format (30_encoding.md R100) -/

/-- A word of `n` bits in its 64-bit carrier has no stray bits. -/
theorem within_carrier {n : Nat} (x : BitVec n) (r : Except Reject Instr) : within n (x.zeroExtend 64) r = r :=
  if_pos (zeroExtend_lt x)

/-- What a word with no stray bits names is what its low bits name. -/
theorem within_ok {n : Nat} {w : BitVec 64} {r : Except Reject Instr} {i : Instr} (h : within n w r = .ok i) :
    (w.extractLsb' 0 n).zeroExtend 64 = w ∧ r = .ok i := by
  unfold within at h
  split at h
  · next hw => exact ⟨zeroExtend_extract hw, h⟩
  · cases h

/-- A field in the low bits of a word is that field of the word cut to `n` bits. -/
theorem extract_extract (w : BitVec 64) {n k l : Nat} (h : k + l ≤ n) :
    (w.extractLsb' 0 n).extractLsb' k l = w.extractLsb' k l := by
  apply BitVec.eq_of_getLsbD_eq
  intro i hi
  have : k + i < n := by omega
  simp [hi, this]

/-! ## Event records (30_encoding.md R110) -/

/-- The record operation of a channel. -/
def eventOf : Channel → Byte → Byte → Byte → BitVec 4 → Instr
  | .matrix    => .evMatrix
  | .gpio      => .evGpio
  | .encRotate => .evEncRotate
  | .encButton => .evEncButton
  | .expander  => .evExpander
  | .error     => .evError

theorem encode_eventOf (ch : Channel) (p a b : Byte) (v : BitVec 4) :
    encode (eventOf ch p a b v) = (.evt32, evtCarrier ch.code p a b v) := by
  cases ch <;> rfl

theorem exec_eventOf (ch : Channel) (p a b : Byte) (v : BitVec 4) (s : State) :
    exec (eventOf ch p a b v) s = .next (present (evtWord ch.code p a b v) s) := by
  cases ch <;> rfl

theorem decodeEvt_eventOf (ch : Channel) (p a b : Byte) (v : BitVec 4) :
    decodeEvt (evtWord ch.code p a b v) = .ok (eventOf ch p a b v) := by
  obtain ⟨hc, hp, ha, hb, hv⟩ := evtWord_fields ch.code p a b v
  unfold decodeEvt
  rw [hc, hp, ha, hb, hv]
  cases ch <;> rfl

/-- A word that is a record carries one of the six channels, and the operation is that channel's. -/
theorem decodeEvt_ok {w : BitVec 32} {i : Instr} (h : decodeEvt w = .ok i) :
    ∃ ch p a b v, i = eventOf ch p a b v ∧ w = evtWord ch.code p a b v := by
  have fields : ∀ ch : Channel, w.extractLsb' 28 4 = ch.code → w = evtWord ch.code (w.extractLsb' 20 8)
      (w.extractLsb' 12 8) (w.extractLsb' 4 8) (w.extractLsb' 0 4) := by
    intro ch hc
    rw [← hc, evtWord_eta]
  have known : ∃ ch : Channel, w.extractLsb' 28 4 = ch.code := by
    simp only [decodeEvt] at h
    repeat' split at h
    · next hc => exact ⟨.matrix, hc⟩
    · next hc => exact ⟨.gpio, hc⟩
    · next hc => exact ⟨.encRotate, hc⟩
    · next hc => exact ⟨.encButton, hc⟩
    · next hc => exact ⟨.expander, hc⟩
    · next hc => exact ⟨.error, hc⟩
    · cases h
  obtain ⟨ch, hc⟩ := known
  have hw := fields ch hc
  rw [hw, decodeEvt_eventOf] at h
  exact ⟨ch, _, _, _, _, (Except.ok.inj h).symm, hw⟩

theorem decode_evtCarrier (ch : Channel) (p a b : Byte) (v : BitVec 4) :
    decode .evt32 (evtCarrier ch.code p a b v) = .ok (eventOf ch p a b v) := by
  show within 32 (evtCarrier ch.code p a b v) (decodeEvt ((evtCarrier ch.code p a b v).extractLsb' 0 32)) = _
  rw [evtCarrier_record, decodeEvt_eventOf]
  exact within_carrier _ _

/-! ## Micro-operation codes (30_encoding.md R108) -/

theorem decode_uopWord (c : BitVec 5) : decode .uop5 (uopWord c) = decodeUop c := by
  show within 5 (uopWord c) (decodeUop ((uopWord c).extractLsb' 0 5)) = _
  rw [uopWord, extract_zeroExtend _ _ _ _ (by decide), extract_all]
  exact within_carrier _ _

/-- The entry of the code table at a code has that code. -/
theorem encode_uopList : ∀ n : Fin uopList.length, encode uopList[n] = (.uop5, uopWord (BitVec.ofNat 5 n)) := by
  decide

theorem encode_of_decodeUop {c : BitVec 5} {i : Instr} (h : decodeUop c = .ok i) : encode i = (.uop5, uopWord c) := by
  unfold decodeUop at h
  split at h
  · next j hj =>
    obtain ⟨hn, rfl⟩ := List.getElem?_eq_some_iff.1 hj
    cases h
    simpa using encode_uopList ⟨c.toNat, hn⟩
  · cases h

/-! ## Bus frames (30_encoding.md R109) -/

theorem decode_frame2 (a : BitVec 7) (r v : Byte) :
    decode .bfW2 ((a ++ r ++ v : BitVec 23).zeroExtend 64) = .ok (.bfWriteReg a r v) := by
  obtain ⟨ha, hr, hv⟩ := frame2_fields a r v
  simp only [decode]
  rw [within_carrier, extract_zeroExtend _ _ _ _ (by decide), extract_zeroExtend _ _ _ _ (by decide),
    extract_zeroExtend _ _ _ _ (by decide), ha, hr, hv]

theorem decode_frame1 (a : BitVec 7) (r : Byte) :
    decode .bfW1 ((a ++ r : BitVec 15).zeroExtend 64) = .ok (.bfSetPointer a r) := by
  obtain ⟨ha, hr⟩ := frame1_fields a r
  simp only [decode]
  rw [within_carrier, extract_zeroExtend _ _ _ _ (by decide), extract_zeroExtend _ _ _ _ (by decide), ha, hr]

theorem decode_frameRead (a : BitVec 7) : decode .bfR2 (a.zeroExtend 64) = .ok (.bfRead2 a) := by
  simp only [decode]
  rw [within_carrier, extract_zeroExtend _ _ _ _ (by decide), extract_all]

/-! ## Command words (30_encoding.md R101 to R103) -/

theorem decodeCmd_rd (reg i j : Byte) : decodeCmd (cmdWord 0x01#8 reg i j 0) = .ok (.rd reg i j) := by
  obtain ⟨hop, hreg, hi, hj, himm⟩ := cmdWord_fields 0x01#8 reg i j 0
  unfold decodeCmd
  rw [hop, hreg, hi, hj, himm]
  rfl

theorem decodeCmd_wr (reg i j : Byte) (imm : Word) :
    decodeCmd (cmdWord 0x02#8 reg i j imm) = .ok (.wr reg i j imm) := by
  obtain ⟨hop, hreg, hi, hj, himm⟩ := cmdWord_fields 0x02#8 reg i j imm
  unfold decodeCmd
  rw [hop, hreg, hi, hj, himm]
  rfl

/-- A command word without operands is its `op` alone. -/
theorem cmdWord_of_zero56 {w : BitVec 64} (h : w.extractLsb' 0 56 = 0#56) :
    cmdWord (w.extractLsb' 56 8) 0 0 0 0 = w := by
  obtain ⟨hreg, hi, hj, himm⟩ := fields_of_zero56 h
  have hw := cmdWord_eta w
  rwa [hreg, hi, hj, himm] at hw

/-- A command word that decodes is the encoding of its command. -/
theorem encode_of_decodeCmd {w : BitVec 64} {i : Instr} (h : decodeCmd w = .ok i) : encode i = (.cmd64, w) := by
  have bare : ∀ {op : Byte} {c : Instr}, w.extractLsb' 56 8 = op → encode c = (.cmd64, cmdWord op 0 0 0 0) →
      (if w.extractLsb' 0 56 = 0#56 then Except.ok c else .error Reject.unusedField) = .ok i →
      encode i = (.cmd64, w) := by
    intro op c hop hc hi
    split at hi
    · next hz =>
      cases hi
      rw [hc, ← hop, cmdWord_of_zero56 hz]
    · cases hi
  simp only [decodeCmd] at h
  split at h
  · next hop => exact bare hop rfl h
  split at h
  · next hop =>
    split at h
    · next himm =>
      cases h
      have hw := cmdWord_eta w
      rw [hop, himm] at hw
      exact congrArg _ hw
    · cases h
  split at h
  · next hop =>
    cases h
    have hw := cmdWord_eta w
    rw [hop] at hw
    exact congrArg _ hw
  split at h
  · next hop => exact bare hop rfl h
  split at h
  · next hop => exact bare hop rfl h
  split at h
  · next hop => exact bare hop rfl h
  split at h
  · next hop => exact bare hop rfl h
  · cases h

/-! ## Decoder and encoder are inverse to each other -/

/-- Settles O1: format by format, the fields put together read back. -/
theorem decodeOfEncode : Obligations.DecodeOfEncode := by
  intro i _
  cases i with
  | rd reg i j => exact decodeCmd_rd reg i j
  | wr reg i j imm => exact decodeCmd_wr reg i j imm
  | bfWriteReg a r v => exact decode_frame2 a r v
  | bfSetPointer a r => exact decode_frame1 a r
  | bfRead2 a => exact decode_frameRead a
  | evMatrix p a b v => exact decode_evtCarrier .matrix p a b v
  | evGpio p a b v => exact decode_evtCarrier .gpio p a b v
  | evEncRotate p a b v => exact decode_evtCarrier .encRotate p a b v
  | evEncButton p a b v => exact decode_evtCarrier .encButton p a b v
  | evExpander p a b v => exact decode_evtCarrier .expander p a b v
  | evError p a b v => exact decode_evtCarrier .error p a b v
  | nop | beginCmd | tryUpdate | update | clearError => decide
  | _ => exact decode_uopWord _

/-- Settles O2: format by format, a word that decodes is put together from its own fields. -/
theorem encodeOfDecode : Obligations.EncodeOfDecode := by
  intro f w i h
  cases f with
  | cmd64 => exact encode_of_decodeCmd h
  | uop5 =>
    obtain ⟨hw, hu⟩ := within_ok h
    rw [encode_of_decodeUop hu, uopWord, hw]
  | bfW2 =>
    obtain ⟨hw, hi⟩ := within_ok h
    cases hi
    have hf := frame2_eta (w.extractLsb' 0 23)
    rw [extract_extract w (by decide), extract_extract w (by decide), extract_extract w (by decide)] at hf
    exact congrArg _ ((congrArg _ hf).trans hw)
  | bfW1 =>
    obtain ⟨hw, hi⟩ := within_ok h
    cases hi
    have hf := frame1_eta (w.extractLsb' 0 15)
    rw [extract_extract w (by decide), extract_extract w (by decide)] at hf
    exact congrArg _ ((congrArg _ hf).trans hw)
  | bfR2 =>
    obtain ⟨hw, hi⟩ := within_ok h
    cases hi
    exact congrArg _ hw
  | evt32 =>
    obtain ⟨hw, hi⟩ := within_ok h
    obtain ⟨ch, p, a, b, v, rfl, he⟩ := decodeEvt_ok hi
    rw [encode_eventOf, evtCarrier, ← he, hw]

/-! ## Reserved command words (30_encoding.md R105) -/

/-- An `op` that names no command (R102, R105). -/
theorem reserved_of_unlisted {w : BitVec 64}
    (h : w.extractLsb' 56 8 ∉ [0x00#8, 0x01#8, 0x02#8, 0x10#8, 0x11#8, 0x12#8, 0x13#8]) : Reserved w := by
  refine .inl fun hm => h ?_
  generalize w.extractLsb' 56 8 = op at hm ⊢
  simpa [← BitVec.toNat_inj] using hm

/-- A command without operands is reserved where a bit below `op` is set (R103). -/
theorem reserved_iff_bare {w : BitVec 64} (h : (w.extractLsb' 56 8).toNat ∈ [0x00, 0x10, 0x11, 0x12, 0x13]) :
    Reserved w ↔ w.extractLsb' 0 56 ≠ 0#56 := by
  simp only [List.mem_cons, List.not_mem_nil, or_false] at h
  rcases h with h | h | h | h | h <;> simp [Reserved, h]

/-- RD is reserved where its `imm` is not zero (R103). -/
theorem reserved_iff_rd {w : BitVec 64} (h : (w.extractLsb' 56 8).toNat = 0x01) :
    Reserved w ↔ w.extractLsb' 0 32 ≠ 0#32 := by
  simp [Reserved, h]

/-- WR uses every field (R103). -/
theorem not_reserved_wr {w : BitVec 64} (h : (w.extractLsb' 56 8).toNat = 0x02) : ¬ Reserved w := by
  simp [Reserved, h]

/-- The outcome of decoding agrees with `Reserved`. -/
def Agrees (w : BitVec 64) (r : Except Reject Instr) : Prop :=
  (Reserved w ∧ ∃ e, r = .error e) ∨ (¬ Reserved w ∧ ∃ i, r = .ok i)

/-- A test for an unused field agrees where the field is what decides. -/
theorem agrees_ite {w : BitVec 64} {p : Prop} [Decidable p] (h : Reserved w ↔ ¬ p) (c : Instr) :
    Agrees w (if p then .ok c else .error .unusedField) := by
  by_cases hp : p
  · rw [if_pos hp]
    exact .inr ⟨fun hr => h.1 hr hp, c, rfl⟩
  · rw [if_neg hp]
    exact .inl ⟨h.2 hp, _, rfl⟩

/-- A command word decodes exactly where it is not reserved. -/
theorem decodeCmd_agrees (w : BitVec 64) : Agrees w (decodeCmd w) := by
  have bare : ∀ {op : Byte} (c : Instr), w.extractLsb' 56 8 = op → op.toNat ∈ [0x00, 0x10, 0x11, 0x12, 0x13] →
      Agrees w (if w.extractLsb' 0 56 = 0#56 then .ok c else .error .unusedField) :=
    fun c hop hm => agrees_ite (reserved_iff_bare (hop ▸ hm)) c
  simp only [decodeCmd]
  split
  · next hop => exact bare _ hop (by decide)
  split
  · next hop => exact agrees_ite (reserved_iff_rd (by rw [hop]; rfl)) _
  split
  · next hop => exact .inr ⟨not_reserved_wr (by rw [hop]; rfl), _, rfl⟩
  split
  · next hop => exact bare _ hop (by decide)
  split
  · next hop => exact bare _ hop (by decide)
  split
  · next hop => exact bare _ hop (by decide)
  split
  · next hop => exact bare _ hop (by decide)
  · next h0 h1 h2 h3 h4 h5 h6 =>
    exact .inl ⟨reserved_of_unlisted (by simp [h0, h1, h2, h3, h4, h5, h6]), _, rfl⟩

/-- Settles O4: a reserved word is rejected, and the rejection of a command word is the response ERROR. -/
theorem reservedWordsAnswerError : Obligations.ReservedWordsAnswerError := by
  intro s w h
  rcases decodeCmd_agrees w with ⟨hr, r, hd⟩ | ⟨hr, hd⟩
  · refine ⟨fun _ => ?_, fun hn => absurd hr hn⟩
    have hw : decode .cmd64 w = .error r := hd
    rw [step_command rfl, runWord, hw]
    rfl
  · exact ⟨fun hn => absurd hn hr, fun _ => hd⟩

/-! ## The words that the spec writes out -/

/-- Settles O3, word by word. -/
theorem specWordsDecode : Obligations.SpecWordsDecode := by
  unfold Obligations.SpecWordsDecode
  decide

/-! ## Event records on the event port (30_encoding.md R110, 60_exceptions.md R290) -/

/-- Settles O55: `exec_eventOf` at each of the six channels. -/
theorem eventRecordsPresented : Obligations.EventRecordsPresented := fun s p a b v =>
  ⟨exec_eventOf .matrix p a b v s, exec_eventOf .gpio p a b v s, exec_eventOf .encRotate p a b v s,
    exec_eventOf .encButton p a b v s, exec_eventOf .expander p a b v s, exec_eventOf .error p a b v s⟩

/-- Whether a pending record is legal depends on the event port only. -/
theorem recordLegal_congr {s t : State} (h : RecordLegal s) (he : t.evt = s.evt) : RecordLegal t := by
  unfold RecordLegal
  rw [he]
  exact h

/-- With no record pending there is nothing to be legal. -/
theorem recordLegal_of_none {s : State} (h : s.evt = none) : RecordLegal s := by
  intro w hw
  rw [h] at hw
  cases hw

theorem recordLegal_turn {s s' : State} (hs : EngineTurn s s') (h : RecordLegal s) : RecordLegal s' :=
  recordLegal_congr h (turn_evt hs)

/-- No command presents or takes a record. -/
theorem command_recordLegal {w : BitVec 64} {i : Instr} (hd : decode .cmd64 w = .ok i) {s t : State}
    (h : RecordLegal s) (hx : exec i s = .next t) : RecordLegal t := by
  obtain ⟨u, hu, hf⟩ := exec_command hd s
  obtain rfl : u = t := by simpa [hu] using hx
  exact recordLegal_congr h hf.evt

/-- A task without a word presents legal records at most: the rests of suspended micro-operations are chains of primitive
updates, the branch points and the ends leave the event port alone. -/
theorem settleTask_recordLegal (k : Task) {s : State} (h : RecordLegal s) : RecordLegal (settleTask k s) := by
  cases k with
  | op f w item => exact h
  | matCols n => exact (chain_matDebFrom n s).recordLegal h
  | expLanes n => exact (chain_expDebFrom n s).recordLegal h
  | commitRest => exact (chain_commitRest s).recordLegal h
  | afterGate => exact h
  | afterValidate =>
    simp only [settleTask]
    split
    · exact h
    · exact h
  | beginEnd => exact h
  | cycleEnd => exact h

/-- Settles O13: what a step presents comes from a micro-operation of a coherent work list, whose records are legal; no
other step presents one. -/
theorem pendingRecordKept : Obligations.PendingRecordKept := by
  intro s t hco h hst
  cases step_cases hst with
  | command w l i hh hd hx => exact command_recordLegal (s := { s with host := l }) hd h hx
  | reserved w l r hh hd ht => subst ht; exact h
  | ack bit l hh ht => subst ht; exact recordLegal_of_none rfl
  | rst l hh ht => subst ht; exact recordLegal_of_none rfl
  | cut k l o hh ho ht => subst ht; exact recordLegal_of_none rfl
  | waited l hh ha ht => subst ht; exact h
  | stalled s' hs he ht => subst ht; exact recordLegal_turn hs h
  | run s' f w item rest i hs he hl hd hx =>
    obtain ⟨rfl, hw⟩ := coherent_op hco hl
    obtain ⟨u, hu, hf⟩ := exec_inner (decode_inner hd hw) (loaded .uop5 w item rest s')
    obtain rfl : u = t := by simpa [hu] using hx
    exact hf.record (recordLegal_of_none ((turn_evt hs).trans he))
  | odd s' w item rest r hs he hl hd ht => exact absurd (coherent_op hco hl).1 Fmt.noConfusion
  | task s' k rest hs he hl hk ht =>
    subst ht
    exact settleTask_recordLegal k (recordLegal_of_none ((turn_evt hs).trans he))
  | update s' hs he hl hu hb hx =>
    exact command_recordLegal (s := { s' with updWait := s.updWait - 1 }) decode_update
      (recordLegal_of_none ((turn_evt hs).trans he)) hx
  | idle s' hs he hl ht => subst ht; exact recordLegal_turn hs h

/-! ## A command in progress ends with one response (30_encoding.md R106, 70_reset_and_hazards.md R340) -/

/-- A run takes its first step first. -/
theorem run_succ {M : Host.Core} {s t : M.State} (h : M.step s = .next t) (k : Nat) : M.run (k + 1) s = M.run k t := by
  rw [Host.Core.run, h]

/-- The engine has gone from `s` to `t` with its command: less is left to do, and nothing has been returned. -/
structure Advances (s t : State) : Prop where
  busy      : t.busy = s.busy
  host      : t.host = s.host
  load      : load t.todo < load s.todo
  responses : responses t.out = responses s.out

/-- The command in progress in `s` has ended in `t`, with one response. -/
structure Ends (s t : State) : Prop where
  busy      : t.busy = false
  todo      : t.todo = []
  evt       : t.evt = none
  responses : responses t.out = responses s.out + 1

/-- What the command returned counts from any state with as many responses. -/
theorem ends_of_responses {s u t : State} (h : Ends u t) (hr : responses u.out = responses s.out) : Ends s t :=
  ⟨h.busy, h.todo, h.evt, by rw [h.responses, hr]⟩

/-- The rest of a suspended micro-operation goes on with the command where it puts back less than its own weight. -/
theorem advances_of_chain {s t : State} {k : Task} {rest : List Task} (hl : s.todo = k :: rest)
    (hc : Chain { s with todo := rest } t) (hw : load t.todo < weight k + load rest) : Advances s t :=
  ⟨hc.busy, hc.host, by rwa [hl, load_cons], hc.responses⟩

/-- A scan of `n` items that puts back a shorter one at most weighs less afterwards. -/
theorem load_scan {task : Nat → Task} {n : Nat} {l rest : List Task} (hw : ∀ m, weight (task m) = m + 1)
    (h : l = rest ∨ ∃ m, m < n ∧ l = task m :: rest) : load l < weight (task n) + load rest := by
  rcases h with rfl | ⟨m, hm, rfl⟩
  · rw [hw]
    omega
  · rw [load_cons, hw, hw]
    omega

/-- A task inside a sequence goes on with the command. -/
theorem inner_task_advances {s : State} {k : Task} {rest : List Task} (hk : Inner k) (hl : s.todo = k :: rest) :
    ∃ t, runMove (taskMove k { s with todo := rest }) = .next t ∧ Advances s t := by
  cases k with
  | op f w item =>
    obtain ⟨rfl, hw⟩ := hk
    obtain ⟨i, hd⟩ := decode_uop_total hw
    have hi := decode_inner hd hw
    obtain ⟨t, ht, hf⟩ := exec_inner hi (loaded .uop5 w item rest s)
    have hload : load t.todo < load rest + 300 := exec_inner_load hi ht
    refine ⟨t, (runWord_ok hd _).trans ht, hf.busy, hf.host, ?_, hf.responses⟩
    rw [hl, load_cons, weight]
    omega
  | matCols n =>
    exact ⟨_, rfl, advances_of_chain hl (chain_matDebFrom n _)
      (load_scan (task := .matCols) (fun _ => rfl) (matDebFrom_todo n _))⟩
  | expLanes n =>
    exact ⟨_, rfl, advances_of_chain hl (chain_expDebFrom n _)
      (load_scan (task := .expLanes) (fun _ => rfl) (expDebFrom_todo n _))⟩
  | commitRest =>
    refine ⟨_, rfl, advances_of_chain hl (chain_commitRest _) ?_⟩
    rw [commitRest_todo, weight]
    exact Nat.lt_add_of_pos_left Nat.one_pos
  | afterGate => exact hk.elim
  | afterValidate => exact hk.elim
  | beginEnd => exact hk.elim
  | cycleEnd => exact hk.elim

/-- A branch point goes on with a sequence that weighs less than itself. -/
theorem advances_of_branch {s t : State} {k : Task} {l : List Task} (hl : s.todo = [k]) (hw : load l < weight k)
    (ht : t = { s with todo := l ++ [] }) : Advances s t := by
  subst ht
  exact ⟨rfl, rfl, by rw [hl, List.append_nil, load_cons]; exact Nat.lt_add_right _ hw, rfl⟩

/-- A response with nothing left to do ends the command. -/
theorem ends_respond {s t : State} (st : Status) (d : Word) (ht : t.todo = []) (he : t.evt = none)
    (ho : t.out = s.out) : Ends s (respond st d (goIdle t)) :=
  ⟨rfl, ht, he, by rw [← ho]; rfl⟩

/-- A closing task holds no word, so its move is settled. -/
theorem runMove_closing {k : Task} (hk : Closing k) (s : State) :
    runMove (taskMove k s) = .next (settleTask k s) := by
  cases k with
  | afterGate =>
    simp only [taskMove, settleTask, runMove_settled]
    split <;> rfl
  | afterValidate => rfl
  | beginEnd => rfl
  | cycleEnd => rfl
  | op f w item => exact hk.elim
  | matCols n => exact hk.elim
  | expLanes n => exact hk.elim
  | commitRest => exact hk.elim

/-- The closing task of a work list goes on with a sequence, or ends the command. -/
theorem closing_task_progress {s : State} {k : Task} (hk : Closing k) (hl : s.todo = [k]) (he : s.evt = none) :
    Advances s (settleTask k { s with todo := [] }) ∨ Ends s (settleTask k { s with todo := [] }) := by
  cases k with
  | afterGate =>
    refine .inl (advances_of_branch hl ?_ rfl)
    split
    · exact load_skipTasks
    · exact load_pollTasks _
  | afterValidate =>
    simp only [settleTask]
    split
    · exact .inl (advances_of_branch hl (load_beginTasks _) rfl)
    · exact .inr (ends_respond _ _ rfl he rfl)
  | beginEnd => exact .inr (ends_respond _ _ rfl he rfl)
  | cycleEnd => exact .inr (ends_respond _ _ rfl he rfl)
  | op f w item => exact hk.elim
  | matCols n => exact hk.elim
  | expLanes n => exact hk.elim
  | commitRest => exact hk.elim

/-- A host that waits for the block lets a busy engine move. -/
theorem acknowledging_turn {s : State} {n : Nat} (hh : s.host = acknowledging n) (hb : s.busy = true)
    (he : s.evt = none) : EngineTurn s s := by
  cases n with
  | zero => exact .inl ⟨hh, rfl⟩
  | succ n => exact .inr (.inr ⟨_, hh, he, .inl hb, rfl⟩)

/-- The engine's move from a coherent busy state in which no record waits. -/
theorem busy_step_progress {s : State} (hs : EngineTurn s s) (hco : Coherent s) (hb : s.busy = true)
    (he : s.evt = none) : ∃ t, step s = .next t ∧ Coherent t ∧ (Advances s t ∨ Ends s t) := by
  obtain ⟨u, hu, hcou⟩ := coherentStatesGoOn s hco
  have found : (∃ t, step s = .next t ∧ (Advances s t ∨ Ends s t)) →
      ∃ t, step s = .next t ∧ Coherent t ∧ (Advances s t ∨ Ends s t) := by
    rintro ⟨t, ht, hp⟩
    obtain rfl : u = t := by simpa [hu] using ht
    exact ⟨u, hu, hcou, hp⟩
  apply found
  cases hl : s.todo with
  | nil =>
    obtain ⟨pre, last, hlist, -⟩ := hco.2 hb
    simp [hl] at hlist
  | cons k rest =>
    rw [step_task hs he hl]
    obtain ⟨-, ⟨hk, -⟩ | ⟨hk, rfl⟩⟩ := coherent_task hco hl
    · obtain ⟨t, ht, ha⟩ := inner_task_advances hk hl
      exact ⟨t, ht, .inl ha⟩
    · exact ⟨_, runMove_closing hk _, closing_task_progress hk hl he⟩

/-- Where a record waits, a host that acknowledges takes two steps: it sees the record, and acknowledges it. -/
theorem acknowledging_steps {s : State} {n : Nat} {w : BitVec 32} (hh : s.host = acknowledging (n + 1))
    (he : s.evt = some w) : ∃ u, step s = .next u ∧ step u = .next { s with host := acknowledging n, evt := none } := by
  refine ⟨{ s with host := .ack false :: acknowledging n }, ?_, rfl⟩
  have ha : s.answersHost = true := by simp [State.answersHost, he]
  rw [step, nextMove, hh]
  simp [acknowledging, ha]

/-- The records that wait for their acknowledge: one or none. -/
def pending (s : State) : Nat := if s.evt = none then 0 else 1

theorem pending_le (s : State) : pending s ≤ 1 := by
  unfold pending
  split <;> decide

/-- A host that has as many acknowledges as the weight of what is left to do sees the command end. Each move of the engine
lightens the work list and presents one record at most; each acknowledge takes one. -/
theorem command_ends (s : State) (n : Nat) (hh : s.host = acknowledging n) (hn : load s.todo + pending s ≤ n)
    (hco : Coherent s) (hb : s.busy = true) : ∃ k t, core.run k s = .next t ∧ Ends s t := by
  cases he : s.evt with
  | none =>
    obtain ⟨u, hu, hcou, ha | hends⟩ := busy_step_progress (acknowledging_turn hh hb he) hco hb he
    · have hload := ha.load
      have hp := pending_le u
      obtain ⟨k, t, hk, ht⟩ :=
        command_ends u n (ha.host.trans hh) (by omega) hcou (ha.busy.trans hb)
      exact ⟨k + 1, t, (run_succ hu k).trans hk, ends_of_responses ht ha.responses⟩
    · exact ⟨1, u, run_succ hu 0, hends⟩
  | some w =>
    have hp : pending s = 1 := by simp [pending, he]
    obtain ⟨m, rfl⟩ : ∃ m, n = m + 1 := ⟨n - 1, by omega⟩
    obtain ⟨u, hu, hv⟩ := acknowledging_steps hh he
    obtain ⟨k, t, hk, ht⟩ := command_ends { s with host := acknowledging m, evt := none } m rfl
      (show load s.todo + 0 ≤ m by omega) (acknowledge_coherent false (coherent_host hco _)) hb
    exact ⟨k + 2, t, (run_succ hu _).trans ((run_succ hv k).trans hk), ends_of_responses ht rfl⟩
termination_by 2 * load s.todo + pending s
decreasing_by
  · omega
  · show 2 * load s.todo + 0 < _
    omega

/-- Settles O58: one acknowledge for each unit of weight of the work list, and one for a record that waits, are enough. -/
theorem commandsComplete : Obligations.CommandsComplete := by
  intro s hco hb _ _
  obtain ⟨k, t, hk, ht⟩ := command_ends { s with host := acknowledging (load s.todo + pending s) }
    (load s.todo + pending s) rfl (Nat.le_refl _) (coherent_host hco _) hb
  exact ⟨_, k, t, hk, ht.busy, ht.todo, ht.evt, ht.responses⟩

end Sys2Proof.EncodingClaims

/-! SUPPORT. Proofs of the statements about DEBOUNCE (41_debounce.md): what one poll of a line does, and what successive
polls of it report. -/

namespace Sys2Proof.DebounceClaims

open Sys2Proof.Machine Sys2Proof.Safety

/-! ## One poll of a line (41_debounce.md R141) -/

section

variable (l : Line) (r : Bool) (now interval : Word)

@[simp] theorem debounceLine_raw : (debounceLine l r now interval).1.raw = r := rfl

theorem debounceLine_conf : (debounceLine l r now interval).1.conf =
    if (debounceLine l r now interval).2 then r else l.conf := rfl

/-- A flip re-arms the time stamp, and only a flip does. -/
theorem debounceLine_ts : (debounceLine l r now interval).1.ts = if r = l.raw then l.ts else now := ite_not ..

/-- The commit is decided by the time stamp that the poll leaves. -/
theorem debounceLine_toggled : (debounceLine l r now interval).2 =
    (decide (interval.toNat < (now - (debounceLine l r now interval).1.ts).toNat) && (r != l.conf)) := rfl

/-- No commit while the last flip is no more than `interval` old. -/
theorem debounceLine_young (h : (now - (debounceLine l r now interval).1.ts).toNat ≤ interval.toNat) :
    (debounceLine l r now interval).2 = false := by
  rw [debounceLine_toggled, decide_eq_false (Nat.not_lt.mpr h), Bool.false_and]

/-- A poll that reads the confirmed state does not toggle (41_debounce.md R142 (h)). -/
theorem debounceLine_confirmed (h : r = l.conf) : (debounceLine l r now interval).2 = false := by
  simp [debounceLine_toggled, h]

/-- The poll that sees the flip stamps it and cannot commit (41_debounce.md R142 (a)). -/
theorem debounceLine_flip (h : r ≠ l.raw) : debounceLine l r now interval = (⟨r, l.conf, now⟩, false) := by
  have hts : (debounceLine l r now interval).1.ts = now := by rw [debounceLine_ts, if_neg h]
  have hres : (debounceLine l r now interval).2 = false := debounceLine_young _ _ _ _ (by simp [hts])
  have hconf : (debounceLine l r now interval).1.conf = l.conf := by simp [debounceLine_conf, hres]
  calc debounceLine l r now interval
    _ = (⟨r, (debounceLine l r now interval).1.conf, (debounceLine l r now interval).1.ts⟩,
          (debounceLine l r now interval).2) := rfl
    _ = (⟨r, l.conf, now⟩, false) := by rw [hconf, hts, hres]

end

/-- A poll of a line whose reading holds away from its confirmed state: commit when the interval is over. -/
theorem debounceLine_held {r c : Bool} (hc : r ≠ c) (ts now interval : Word) :
    debounceLine ⟨r, c, ts⟩ r now interval =
      if interval.toNat < (now - ts).toNat then (⟨r, r, ts⟩, true) else (⟨r, c, ts⟩, false) := by
  by_cases h : interval.toNat < (now - ts).toNat <;> simp [-BitVec.toNat_sub, debounceLine, exceeds, elapsed, h, hc]

/-! ## DEBOUNCE on a line of the block (41_debounce.md R140) -/

theorem exec_debounce (s : State) : exec .debounce s = .next (debounceOp s) := rfl

/-- Writing a line writes the four arrays of lines only. -/
theorem setLine_frame (q : LineRef) (l : Line) (s : State) :
    setLine q l s = { s with cells := (setLine q l s).cells, gpioLines := (setLine q l s).gpioLines,
                             encs := (setLine q l s).encs, exps := (setLine q l s).exps } := by
  cases q <;> rfl

/-- Settles O52: DEBOUNCE is a write of one line, which holds afterwards what `debounceLine` answers. -/
theorem debounceSubOperation : Obligations.DebounceSubOperation := by
  intro s q r l ts toggled
  have hts : (debounceLine l r s.tCycle s.cfg.debounceMs).1.ts = ts := debounceLine_ts ..
  have htoggled : (debounceLine l r s.tCycle s.cfg.debounceMs).2 = toggled := by
    rw [debounceLine_toggled, hts]
  have hline : (debounceLine l r s.tCycle s.cfg.debounceMs).1 = ⟨r, if toggled then r else l.conf, ts⟩ := by
    rw [← hts, ← htoggled]
    rfl
  have hop : debounceOp s =
      setLine q ⟨r, if toggled then r else l.conf, ts⟩ { s with call.toggled := toggled } := by
    rw [← hline, ← htoggled]
    rfl
  refine ⟨debounceOp s, exec_debounce s, ?_⟩
  rw [hop]
  exact ⟨line_setLine_same _ q _, fun k hk => (line_setLine_other _ hk _).trans (line_congr rfl rfl rfl rfl k),
    enc_setLine _ q _, setLine_frame q _ _⟩

/-! ## Successive polls of a line (41_debounce.md R144) -/

/-- The line after the first `k` polls. -/
def lineAfter (interval : Word) (l : Line) (polls : List (Word × Bool)) (k : Nat) : Line :=
  (polls.take k).foldl (fun x p => (debounceLine x p.2 p.1 interval).1) l

/-- The reading before poll `k`: the line's stored one, then those of the polls. -/
def reading (l : Line) (polls : List (Word × Bool)) : Nat → Option Bool
  | 0 => some l.raw
  | k + 1 => (polls[k]?).map Prod.snd

section

variable (interval : Word) (l : Line)

theorem lineAfter_succ {polls : List (Word × Bool)} {k : Nat} {p : Word × Bool} (hp : polls[k]? = some p) :
    lineAfter interval l polls (k + 1) = (debounceLine (lineAfter interval l polls k) p.2 p.1 interval).1 := by
  simp [lineAfter, List.take_add_one, hp]

/-- What poll `k` reports is DEBOUNCE on the line that the polls before it leave. -/
theorem toggles_getElem? (polls : List (Word × Bool)) (k : Nat) :
    (toggles interval l polls)[k]? =
      (polls[k]?).map fun p => (debounceLine (lineAfter interval l polls k) p.2 p.1 interval).2 := by
  induction polls generalizing l k with
  | nil => rfl
  | cons p rest ih =>
    cases k with
    | zero => rfl
    | succ k => exact ih _ k

/-- The line stores the last reading. -/
theorem lineAfter_raw {polls : List (Word × Bool)} {k : Nat} {p : Word × Bool} (hp : polls[k]? = some p) :
    reading l polls k = some (lineAfter interval l polls k).raw := by
  cases k with
  | zero => rfl
  | succ k =>
    have hk : k + 1 < polls.length := (List.getElem?_eq_some_iff.mp hp).1
    have hq : polls[k]? = some polls[k] := List.getElem?_eq_getElem (by omega)
    simp [reading, lineAfter_succ interval l hq, hq]

/-- A poll is a flip when its reading is not the stored one. -/
theorem flip_iff {polls : List (Word × Bool)} {k : Nat} {p : Word × Bool} (hp : polls[k]? = some p) :
    reading l polls (k + 1) ≠ reading l polls k ↔ p.2 ≠ (lineAfter interval l polls k).raw := by
  have hnow : reading l polls (k + 1) = some p.2 := by simp [reading, hp]
  rw [hnow, lineAfter_raw interval l hp, ne_eq, Option.some_inj]

/-- After poll `k` the time stamp is the time of the last flip, poll `m`. -/
theorem lineAfter_ts {polls : List (Word × Bool)} {m k : Nat} {p q : Word × Bool} (hmk : m ≤ k)
    (hp : polls[k]? = some p) (hq : polls[m]? = some q) (hflip : reading l polls (m + 1) ≠ reading l polls m)
    (hlast : ∀ j, m < j → j ≤ k → ¬ reading l polls (j + 1) ≠ reading l polls j) :
    (lineAfter interval l polls (k + 1)).ts = q.1 := by
  induction k, hmk using Nat.le_induction generalizing p with
  | base => rw [lineAfter_succ interval l hq, debounceLine_ts, if_neg ((flip_iff interval l hq).mp hflip)]
  | succ k hmk ih =>
    have hk : k + 1 < polls.length := (List.getElem?_eq_some_iff.mp hp).1
    have hprev : polls[k]? = some polls[k] := List.getElem?_eq_getElem (by omega)
    have hsame : p.2 = (lineAfter interval l polls (k + 1)).raw :=
      not_not.mp fun h => hlast (k + 1) (by omega) le_rfl ((flip_iff interval l hp).mpr h)
    rw [lineAfter_succ interval l hp, debounceLine_ts, if_pos hsame]
    exact ih hprev fun j hmj hjk => hlast j hmj (by omega)

/-- Once confirmed, a reading that holds does not toggle the line again. -/
theorem toggles_confirmed {r : Bool} {l : Line} (hl : l.conf = r) (times : List Word) :
    ∀ b ∈ toggles interval l (times.map fun u => (u, r)), b = false := by
  induction times generalizing l with
  | nil => simp [toggles]
  | cons u rest ih =>
    have hres : (debounceLine l r u interval).2 = false := debounceLine_confirmed _ _ _ _ hl.symm
    have hconf : (debounceLine l r u interval).1.conf = r := by simp [debounceLine_conf, hres, hl]
    exact List.forall_mem_cons.mpr ⟨hres, ih hconf⟩

/-- A reading that holds away from the confirmed state toggles the line at the first poll past the interval. -/
theorem toggles_held {r c : Bool} (hc : r ≠ c) (ts : Word) {times : List Word} {k : Nat} {u : Word}
    (hu : times[k]? = some u) :
    (toggles interval ⟨r, c, ts⟩ (times.map fun v => (v, r)))[k]? = some true ↔
      interval.toNat < (u - ts).toNat ∧ ∀ j v, j < k → times[j]? = some v → (v - ts).toNat ≤ interval.toNat := by
  induction times generalizing k with
  | nil => simp at hu
  | cons w rest ih =>
    have hpoll := debounceLine_held hc ts w interval
    simp only [List.map_cons, toggles, hpoll]
    cases k with
    | zero =>
      obtain rfl : w = u := Option.some.inj hu
      by_cases hw : interval.toNat < (w - ts).toNat <;> simp [-BitVec.toNat_sub, hw]
    | succ k =>
      by_cases hw : interval.toNat < (w - ts).toNat
      · rw [if_pos hw]
        constructor
        · intro h
          exact absurd (toggles_confirmed interval rfl rest true (List.mem_of_getElem? h)) (by decide)
        · rintro ⟨-, hbefore⟩
          exact absurd hw (Nat.not_lt.mpr (hbefore 0 w (Nat.succ_pos k) rfl))
      · rw [if_neg hw]
        refine (ih hu).trans (and_congr_right fun _ => ⟨fun h j v hj hv => ?_, fun h j v hj hv => ?_⟩)
        · cases j with
          | zero =>
            obtain rfl : w = v := Option.some.inj hv
            exact Nat.not_lt.mp hw
          | succ j => exact h j v (Nat.lt_of_succ_lt_succ hj) hv
        · exact h (j + 1) v (Nat.succ_lt_succ hj) hv

/-- A line whose last flip is young at every poll never toggles. -/
theorem toggles_young {polls : List (Word × Bool)}
    (hyoung : ∀ k p, polls[k]? = some p → ∃ m q, m ≤ k ∧ polls[m]? = some q ∧
      reading l polls (m + 1) ≠ reading l polls m ∧
      (∀ j, m < j → j ≤ k → ¬ reading l polls (j + 1) ≠ reading l polls j) ∧
      (p.1 - q.1).toNat ≤ interval.toNat) :
    ∀ b ∈ toggles interval l polls, b = false := by
  intro b hb
  obtain ⟨k, hk⟩ := List.mem_iff_getElem?.mp hb
  rw [toggles_getElem?] at hk
  obtain ⟨p, hp, rfl⟩ := Option.map_eq_some_iff.mp hk
  obtain ⟨m, q, hmk, hq, hflip, hlast, hage⟩ := hyoung k p hp
  have hts := lineAfter_ts interval l hmk hp hq hflip hlast
  rw [lineAfter_succ interval l hp] at hts
  exact debounceLine_young _ _ _ _ (by rwa [hts])

/-- A flip is silent, and leaves the line stamped with its time for the polls that follow. -/
theorem toggles_flip {r : Bool} (hraw : r ≠ l.raw) (t : Word) (rest : List (Word × Bool)) :
    toggles interval l ((t, r) :: rest) = false :: toggles interval ⟨r, l.conf, t⟩ rest := by
  simp only [toggles, debounceLine_flip l r t interval hraw]

end

/-- Settles O59: a poll is silent while the last flip, whose time the line holds, is young; after a flip the line stands
stamped, and a reading that holds is confirmed once. -/
theorem debounceProperties : Obligations.DebounceProperties := by
  constructor
  · intro interval l polls _ _ hyoung
    exact toggles_young interval l hyoung
  · intro interval t l r times hraw hconf results
    have hresults : results = false :: toggles interval ⟨r, l.conf, t⟩ (times.map fun u => (u, r)) :=
      toggles_flip interval l hraw t _
    rw [hresults]
    exact ⟨rfl, fun k u hu => toggles_held interval hconf t hu⟩

end Sys2Proof.DebounceClaims

/-! SUPPORT. Proofs of the statements about the matrix scanner (42_matrix.md): the latch of one row, and the polls of its
cells. -/

namespace Sys2Proof.MatrixClaims

open Sys2Proof.Machine Sys2Proof.Safety

/-! ## U_MAT_ROW (42_matrix.md R152) -/

/-- The row `ix` driven LOW and left to settle. -/
def rowDriven (s : State) : State :=
  request (.waitMicros s.params.matrixSettleUs) (pinWrite (s.cfg.rowPinAt s.ix) false s)

/-- U_MAT_ROW in its three parts: drive and settle, latch, restore. -/
theorem matRow_eq (s : State) :
    matRow s = pinWrite (s.cfg.rowPinAt s.ix) true (forAsc s.cfg.numCols.toNat latchColumn (rowDriven s)) := rfl

theorem exec_uMatRow (s : State) : exec .uMatRow s = .next (matRow s) := rfl

theorem decode_uMatRow : decode .uop5 0x09#64 = .ok .uMatRow := by decide

theorem rowDriven_issued (s : State) :
    Issued [.pinWrite (s.cfg.rowPinAt s.ix) false, .waitMicros s.params.matrixSettleUs] s (rowDriven s) :=
  issued_append (pinWrite_issued _ _ s) (waitMicros_issued _ _)

theorem rowDriven_pinsOnly (s : State) : PinsOnly s (rowDriven s) := rfl

/-- Settles O44: the row is driven and restored around the latch of its columns, and the parts' requests and frames
add up. -/
theorem matrixRow : Obligations.MatrixRow := by
  refine ⟨decode_uMatRow, fun s => ⟨matRow s, exec_uMatRow s, ?_⟩⟩
  obtain ⟨hreads, hlatch, -, hframe⟩ := latchColumns_block s s.cfg.numCols.toNat (rowDriven s) rfl
  rw [matRow_eq]
  generalize forAsc s.cfg.numCols.toNat latchColumn (rowDriven s) = v at *
  refine ⟨?_, hlatch, ?_⟩
  · exact issued_append (issued_append (rowDriven_issued s) hreads) (pinWrite_issued _ true v)
  · rw [pinWrite_pinsOnly (s.cfg.rowPinAt s.ix) true v, hframe, rowDriven_pinsOnly s]

/-! ## U_MAT_DEB (42_matrix.md R153) -/

theorem exec_uMatDeb (s : State) : exec .uMatDeb s = .next (matDebFrom s.cfg.numCols.toNat s) := rfl

/-- In its turn the engine goes on with the columns that a record had left. -/
theorem step_matCols {s s' : State} {n : Nat} {rest : List Task} (hs : EngineTurn s s') (he : s.evt = none)
    (hl : s.todo = .matCols n :: rest) : step s = .next (matDebFrom n { s' with todo := rest }) :=
  step_task hs he hl

/-- Settles O45: the micro-operation scans all columns of the row, and the task that it leaves behind scans the columns
left. -/
theorem matrixCells : Obligations.MatrixCells := by
  constructor
  · intro s
    exact ⟨_, exec_uMatDeb s, matDebFrom_scanned _ s⟩
  · intro s s' n rest hs he hl
    exact ⟨_, step_matCols hs he hl, matDebFrom_scanned n _⟩

end Sys2Proof.MatrixClaims

/-! SUPPORT. Proof of the statement about the GPIO reader (43_gpio.md R165): the request for the pin's level, and the poll of
the line. -/

namespace Sys2Proof.GpioClaims

open Sys2Proof.Machine Sys2Proof.Safety

/-- The request for a pin's level takes one answer and joins the trace; it changes nothing else (00_scope.md R12). -/
theorem pinRead_eq (p : Byte) (s : State) :
    pinRead p s = { s with env := s.env.afterPin, out := .request (.pinRead p) :: s.out } := rfl

theorem exec_uGpio (s : State) :
    exec .uGpio s =
      .next (pollLine (.gpio s.ix) (!s.env.pinAnswer 0) .gpio s.ix 0#8 (pinRead (s.cfg.gpioPinAt s.ix) s)) := rfl

/-- Settles O46: the poll starts from the state that the pin's request leaves, and a GPIO line is not on the error
channel, so the rule for one poll applies. -/
theorem gpioPoll : Obligations.GpioPoll := by
  intro s
  refine ⟨_, exec_uGpio s, ?_⟩
  rw [← pinRead_eq]
  exact pollLine_polled (.gpio s.ix) (!s.env.pinAnswer 0) .gpio (by decide) s.ix 0#8 (pinRead (s.cfg.gpioPinAt s.ix) s)

end Sys2Proof.GpioClaims

/-! SUPPORT. Proofs of the statements about the quadrature decoder (44_quadrature.md): the malfunction latch, the encoder's
button, U_ENC_STEP with and without a commit, and one full detent. -/

namespace Sys2Proof.QuadratureClaims

open Sys2Proof.Machine Sys2Proof.Safety

/-! ## The malfunction latch (44_quadrature.md R179, R180) -/

theorem resetBlock_enc_valid (s : State) (e : Byte) : ((resetBlock s).enc e).valid = true := rfl

theorem freshEnc_valid (c : BitVec 2) (t0 : Word) : (freshEnc c t0).valid = true := rfl

/-- Writing an encoder record whose own malfunction is latched keeps every malfunction latched. -/
theorem setEnc_malfunctionLatched {s : State} (hs : MalfunctionLatched s) (e : Byte) {x : Enc}
    (hx : x.valid = false → x.malReported = true) : MalfunctionLatched (setEnc e x s) := by
  intro k hk
  rw [enc_setEnc] at hk ⊢
  by_cases he : k = e
  · rw [if_pos he] at hk ⊢
    exact hx hk
  · rw [if_neg he] at hk ⊢
    exact hs k hk

/-- Every update of a step keeps every malfunction latched: U_STATEINIT and `rst` leave valid encoders, WR of
`ENC_POSITION` leaves the latch alone. -/
theorem upd_malfunctionLatched {s t : State} (hs : MalfunctionLatched s) (h : Upd s t) : MalfunctionLatched t := by
  cases h with
  | prim hp => exact (Chain.one hp).malfunctionLatched hs
  | fresh e c t0 => exact setEnc_malfunctionLatched hs e fun hv => absurd hv (by simp [freshEnc_valid])
  | position e v => exact setEnc_malfunctionLatched hs e (hs e)
  | reset => exact fun e hv => absurd hv (by simp [resetBlock_enc_valid])
  | config r imm u hw => exact hs
  | clear => exact hs
  | record w => exact hs
  | noRecord => exact hs
  | served b l => exact hs
  | other t => exact hs

/-- Settles O12: a step is a sequence of updates, and each of them keeps every malfunction latched. -/
theorem malfunctionLatchKept : Obligations.MalfunctionLatchKept :=
  fun _ _ hs h => (step_upds h).keeps (fun _ _ => upd_malfunctionLatched) hs

/-! ## U_ENC_BTN (44_quadrature.md R182) -/

theorem exec_uEncBtn_absent {s : State} (h : s.cfg.encPinBtnAt s.ix = 0xFF#8) : exec .uEncBtn s = .next s :=
  if_pos h

theorem exec_uEncBtn_present {s : State} (h : s.cfg.encPinBtnAt s.ix ≠ 0xFF#8) :
    exec .uEncBtn s = .next (pollLine (.encBtn s.ix) (!s.env.pinAnswer 0) .encButton s.ix 0#8
      (pinRead (s.cfg.encPinBtnAt s.ix) s)) :=
  if_neg h

/-- Settles O47: where there is a button, its poll starts from the state that the pin's request leaves, and the rule for
one poll applies. -/
theorem encoderButton : Obligations.EncoderButton := by
  intro s p
  refine ⟨exec_uEncBtn_absent, fun h => ⟨_, exec_uEncBtn_present h, ?_⟩⟩
  rw [← GpioClaims.pinRead_eq]
  exact pollLine_polled (.encBtn s.ix) (!s.env.pinAnswer 0) .encButton (by decide) s.ix 0#8 (pinRead p s)

/-! ## U_ENC_STEP without a commit (44_quadrature.md R172 to R178) -/

theorem exec_uEncStep (s : State) : exec .uEncStep s = .next (encStep s) := rfl

theorem exec_uEncStep_of {s u : State} (h : encStep s = u) : exec .uEncStep s = .next u := by rw [exec_uEncStep, h]

/-- The gate closed: nothing. -/
theorem encStep_closed {s : State} (h : ¬ GateOpen s) : encStep s = s := by
  rw [encStep_eq, if_pos (gateClosed_of_not_open h)]

theorem classify_same {last cur : BitVec 2} (h : cur = last) : classify last cur = .same := by
  rcases classify_cases last cur with ⟨hc, -⟩ | ⟨-, hne, -⟩ | ⟨-, -, hne, -⟩
  · exact hc
  · exact absurd h.symm hne
  · exact absurd h.symm hne

theorem classify_illegal {last cur : BitVec 2} (hne : cur ≠ last) (hq : ∀ d, ¬ QuarterStep d last cur) :
    classify last cur = .illegal := by
  rcases classify_cases last cur with ⟨-, he⟩ | ⟨hc, -⟩ | ⟨d, -, -, hd⟩
  · exact absurd he.symm hne
  · exact hc
  · exact absurd ((hd d).mpr rfl) (hq d)

theorem classify_quarterStep {d : Dir} {last cur : BitVec 2} (hq : QuarterStep d last cur) :
    classify last cur = .legal d := by
  rcases classify_cases last cur with ⟨-, he⟩ | ⟨-, -, hno⟩ | ⟨d', hc, -, hd⟩
  · exact absurd he (quarterStep_ne hq)
  · exact absurd hq (hno d)
  · rw [hc, (hd d).mp hq]

section

variable {s : State} (hg : GateOpen s)
include hg

/-- No state change: the speed may go idle (R173). -/
theorem encStep_same (h : pinsShow s = (s.enc s.ix).lastState) :
    encStep s = setEnc s.ix
      { s.enc s.ix with
        speed := if s.params.speedIdleTimeoutMs.toNat < (s.tCycle - (s.enc s.ix).tSpeed).toNat then 0#32
                 else (s.enc s.ix).speed }
      (encPinsRead s) := by
  rw [encStep_eq, gateClosed_of_open hg, classify_same h, ← speedIdle_eq]
  rfl

/-- An illegal transition is counted (R176). -/
theorem encStep_illegal (hne : pinsShow s ≠ (s.enc s.ix).lastState)
    (hq : ∀ d, ¬ QuarterStep d (s.enc s.ix).lastState (pinsShow s)) :
    encStep s = setEnc s.ix
      { changed s with errorCount := BitVec.ofNat 32 (min ((s.enc s.ix).errorCount.toNat + 1) 0xFFFFFFFF) }
      (encPinsRead s) := by
  rw [encStep_eq, gateClosed_of_open hg, classify_illegal hne hq]
  rfl

/-- A quarter-step that does not commit leaves its direction pending (R177, R178). -/
theorem encStep_quarter {d : Dir} (hq : QuarterStep d (s.enc s.ix).lastState (pinsShow s))
    (hn : ¬ (pinsShow s = s.params.encSettleState ∧ (s.enc s.ix).pendingDir = d)) :
    encStep s = setEnc s.ix { changed s with pendingDir := d } (encPinsRead s) := by
  rw [encStep_eq, gateClosed_of_open hg, classify_quarterStep hq]
  exact if_neg hn

end

/-- Settles O48: each of the four cases writes at most the record of the encoder `ix`, after the two pins are read. -/
theorem quadratureStep : Obligations.QuadratureStep := by
  intro s x cur
  refine ⟨fun hg => ?_, fun hg he => ?_, fun hg hne hq => ?_, fun d hg hq hn => ?_⟩
  · exact exec_uEncStep_of (encStep_closed hg)
  · exact ⟨_, exec_uEncStep_of (encStep_same hg he), setEnc_becomes _ _ _⟩
  · exact ⟨_, exec_uEncStep_of (encStep_illegal hg hne hq), setEnc_becomes _ _ _⟩
  · exact ⟨_, exec_uEncStep_of (encStep_quarter hg hq hn), setEnc_becomes _ _ _⟩

/-! ## U_ENC_STEP with a commit (44_quadrature.md R178 to R180) -/

/-- The state in which a commit in the direction `d` emits its rotation event: position, direction and `activity` are
written, and the operands of EMIT stand in `call` (R179). -/
def emitting (d : Dir) (s : State) : State :=
  let u := setEnc s.ix (committed d s) (setEnc s.ix { changed s with pendingDir := d } (encPinsRead s))
  { u with activity := true, call.channel := .encRotate, call.evA := s.ix, call.evB := 0#8, call.evV := rotateCode d }

theorem emitting_enc_same (d : Dir) (s : State) : (emitting d s).enc s.ix = committed d s := by
  have h : (emitting d s).enc s.ix =
      (setEnc s.ix (committed d s) (setEnc s.ix { changed s with pendingDir := d } (encPinsRead s))).enc s.ix :=
    enc_congr rfl s.ix
  rw [h, enc_setEnc, if_pos rfl]

theorem emitting_enc_other (d : Dir) (s : State) {k : Byte} (hk : k ≠ s.ix) : (emitting d s).enc k = s.enc k := by
  have h : (emitting d s).enc k =
      (setEnc s.ix (committed d s) (setEnc s.ix { changed s with pendingDir := d } (encPinsRead s))).enc k :=
    enc_congr rfl k
  rw [h, enc_setEnc, if_neg hk, enc_setEnc, if_neg hk]
  rfl

/-- The record of the rotation event (R179, 60_exceptions.md R290). -/
def rotationRecord (d : Dir) (s : State) : BitVec 32 := evtWord 3#4 s.cfg.activeProfile s.ix 0#8 (rotateCode d)

/-- The state in which an enabled channel leaves the commit: the record is presented, and the rest of the commit waits for
its acknowledge (R179; log 6). -/
def presenting (d : Dir) (s : State) : State :=
  { emitting d s with evt := some (rotationRecord d s), out := .record (rotationRecord d s) :: (encPinsRead s).out,
                      todo := .commitRest :: s.todo }

section

variable (d : Dir) (s : State)

theorem presenting_ix : (presenting d s).ix = s.ix := by simp [presenting, emitting, encPinsRead]
theorem presenting_cfg : (presenting d s).cfg = s.cfg := by simp [presenting, emitting, encPinsRead]
theorem presenting_params : (presenting d s).params = s.params := by simp [presenting, emitting, encPinsRead]
theorem presenting_env : (presenting d s).env = (encPinsRead s).env := by simp [presenting, emitting]

theorem presenting_enc_same : (presenting d s).enc s.ix = committed d s := emitting_enc_same d s

theorem presenting_enc_other {k : Byte} (hk : k ≠ s.ix) : (presenting d s).enc k = s.enc k :=
  emitting_enc_other d s hk

end

section

variable {s : State} {d : Dir} (hg : GateOpen s) (hq : QuarterStep d (s.enc s.ix).lastState (pinsShow s))
  (hs : pinsShow s = s.params.encSettleState) (hp : (s.enc s.ix).pendingDir = d)
include hg hq hs hp

/-- On an enabled channel the commit presents its record. -/
theorem encStep_presents (he : s.cfg.evtEnable.getLsbD 2 = true) : encStep s = presenting d s := by
  rw [encStep_commits hg hq hs hp, commit_enabled d _ _ (commit_record s (quarterStep_dir hq)) he]
  rfl

/-- On a disabled channel the commit ends at once. -/
theorem encStep_silent (he : s.cfg.evtEnable.getLsbD 2 = false) : encStep s = commitRest (emitting d s) := by
  rw [encStep_commits hg hq hs hp, commit_disabled d _ _ (commit_record s (quarterStep_dir hq)) he]
  rfl

end

/-- Settles O49: the state is `presenting`, whose records are those written before the event. -/
theorem commitPresentsRotation : Obligations.CommitPresentsRotation := by
  intro s d hg hq hs hp he w
  exact ⟨presenting d s, exec_uEncStep_of (encStep_presents hg hq hs hp he), presenting_enc_same d s,
    fun k hk => presenting_enc_other d s hk, rfl, rfl⟩

/-- Settles O50: the check runs in the state written before the event, which is not presented. -/
theorem commitOnDisabledChannel : Obligations.CommitOnDisabledChannel := by
  intro s d hg hq hs hp he
  exact ⟨emitting d s, _, exec_uEncStep_of (encStep_silent hg hq hs hp he), emitting_enc_same d s,
    fun k hk => emitting_enc_other d s hk, rfl, rfl, commitRest_checked _⟩

/-- Settles O51: after the acknowledge the engine goes on with the task that the commit had left. -/
theorem commitEndsAfterAcknowledge : Obligations.CommitEndsAfterAcknowledge :=
  fun _ _ _ hs he hl => ⟨_, step_task hs he hl, commitRest_checked _⟩

/-! ## One full detent (44_quadrature.md R185, R186) -/

/-- The records in a trace, newest first. -/
def records (l : List Out) : List Out :=
  l.filter fun o => match o with | .record _ => true | .response _ _ | .request _ => false

theorem afterPin_pinIn (e : Env) : e.afterPin.pinIn = e.pinIn.tail := by
  unfold Env.afterPin
  split <;> simp_all

section

variable {s : State} {a b : Level} {l : List Level} (h : s.env.pinIn = a :: b :: l)
include h

/-- The pins show the next two scripted levels, and reading them takes both. -/
theorem pinsShow_scripted : pinsShow s = encState a b := by
  simp [pinsShow, encState, Env.pinAnswer, h]

theorem encPinsRead_scripted : (encPinsRead s).env.pinIn = l := by
  simp [encPinsRead, afterPin_pinIn, h]

end

/-- What a U_ENC_STEP at the time `t` that accepts the state `cur` leaves for the next one, commit or not; `l` are the
levels still scripted. -/
structure Turned (cur : BitVec 2) (t : Word) (l : List Level) (s u : State) : Prop where
  ix : u.ix = s.ix
  cfg : u.cfg = s.cfg
  params : u.params = s.params
  lastState : (u.enc u.ix).lastState = cur
  tChange : (u.enc u.ix).tChange = t
  pinIn : u.env.pinIn = l

/-- A quarter-step in the direction `d` that does not commit. -/
structure Pending (d : Dir) (cur : BitVec 2) (t : Word) (l : List Level) (s u : State) : Prop
    extends Turned cur t l s u where
  pendingDir : (u.enc u.ix).pendingDir = d
  position : (u.enc u.ix).position = (s.enc s.ix).position
  lastDir : (u.enc u.ix).lastDir = (s.enc s.ix).lastDir
  records : records u.out = records s.out

/-- A quarter-step in the direction `d` that commits and presents its rotation record. -/
structure Presented (d : Dir) (cur : BitVec 2) (t : Word) (l : List Level) (s u : State) : Prop
    extends Turned cur t l s u where
  position : (u.enc u.ix).position =
    movePosition (s.enc s.ix).position d (positionStep (s.cfg.encDivisorAt s.ix))
  lastDir : (u.enc u.ix).lastDir = d
  records : records u.out = .record (rotationRecord d s) :: records s.out

theorem committed_position {d : Dir} (hd : d ≠ .none) (s : State) :
    (committed d s).position =
      movePosition (s.enc s.ix).position d (positionStep (s.cfg.encDivisorAt s.ix)) := by
  cases d with
  | none => exact absurd rfl hd
  | cw => rfl
  | ccw => rfl

section

variable {s : State} {t : Word} {d : Dir} {a b : Level} {l : List Level} (hpins : s.env.pinIn = a :: b :: l)
  (hg : s.cfg.encDebounceMs.toNat ≤ (t - (s.enc s.ix).tChange).toNat)
  (hq : QuarterStep d (s.enc s.ix).lastState (encState a b))
include hpins hg hq

/-- A quarter-step that does not arrive at the settle state stays pending. -/
theorem encStep_pending (hn : encState a b ≠ s.params.encSettleState) :
    Pending d (encState a b) t l s (encStep { s with tCycle := t }) := by
  have hshow : pinsShow { s with tCycle := t } = encState a b := pinsShow_scripted hpins
  rw [← hshow] at hn hq ⊢
  rw [encStep_quarter (s := { s with tCycle := t }) hg hq fun h => hn h.1]
  obtain ⟨henc, -, -⟩ :=
    setEnc_becomes s.ix { changed { s with tCycle := t } with pendingDir := d } (encPinsRead { s with tCycle := t })
  exact {
    ix := rfl
    cfg := rfl
    params := rfl
    lastState := congrArg Enc.lastState henc
    tChange := congrArg Enc.tChange henc
    pinIn := encPinsRead_scripted hpins
    pendingDir := congrArg Enc.pendingDir henc
    position := (congrArg Enc.position henc :)
    lastDir := (congrArg Enc.lastDir henc :)
    records := rfl }

/-- A quarter-step that arrives at the settle state with its direction pending commits. -/
theorem encStep_presented (hs : encState a b = s.params.encSettleState) (hp : (s.enc s.ix).pendingDir = d)
    (he : s.cfg.evtEnable.getLsbD 2 = true) :
    Presented d (encState a b) t l s (encStep { s with tCycle := t }) := by
  have hd : d ≠ .none := quarterStep_dir hq
  have hshow : pinsShow { s with tCycle := t } = encState a b := pinsShow_scripted hpins
  rw [← hshow] at hs hq ⊢
  rw [encStep_presents (s := { s with tCycle := t }) hg hq hs hp he]
  have henc : (presenting d { s with tCycle := t }).enc (presenting d { s with tCycle := t }).ix =
      committed d { s with tCycle := t } := presenting_enc_same d { s with tCycle := t }
  exact {
    ix := presenting_ix d _
    cfg := presenting_cfg d _
    params := presenting_params d _
    lastState := by rw [henc]; rfl
    tChange := by rw [henc]; rfl
    pinIn := by rw [presenting_env]; exact encPinsRead_scripted hpins
    position := by rw [henc, committed_position hd]; rfl
    lastDir := by rw [henc]; rfl
    records := rfl }

end

/-- Three quarter-steps in one direction: the second arrives at the settle state and commits, the third moves on. -/
theorem detent_turns {s : State} {t1 t2 t3 : Word} {d : Dir} {a b e f : Level} {l : List Level}
    (hpins : s.env.pinIn = [a, b, true, true, e, f] ++ l)
    (hs : s.params.encSettleState = 3#2) (he : s.cfg.evtEnable.getLsbD 2 = true)
    (hg1 : s.cfg.encDebounceMs.toNat ≤ (t1 - (s.enc s.ix).tChange).toNat)
    (hg2 : s.cfg.encDebounceMs.toNat ≤ (t2 - t1).toNat) (hg3 : s.cfg.encDebounceMs.toNat ≤ (t3 - t2).toNat)
    (hq1 : QuarterStep d (s.enc s.ix).lastState (encState a b)) (hq2 : QuarterStep d (encState a b) 3#2)
    (hq3 : QuarterStep d 3#2 (encState e f)) :
    ∃ u1 u2 u3, encStep { s with tCycle := t1 } = u1 ∧ encStep { u1 with tCycle := t2 } = u2 ∧
      encStep { u2 with tCycle := t3 } = u3 ∧ Pending d (encState a b) t1 ([true, true, e, f] ++ l) s u1 ∧
      Presented d 3#2 t2 ([e, f] ++ l) u1 u2 ∧ Pending d (encState e f) t3 l u2 u3 := by
  have h1 := encStep_pending hpins hg1 hq1 (by rw [hs]; exact quarterStep_ne hq2)
  generalize encStep { s with tCycle := t1 } = u1 at h1
  have h2 := encStep_presented (d := d) (t := t2) h1.pinIn (by rw [h1.cfg, h1.tChange]; exact hg2)
    (by rw [h1.lastState]; exact hq2) (by rw [h1.params, hs]; rfl) h1.pendingDir (by rw [h1.cfg]; exact he)
  generalize hu2 : encStep { u1 with tCycle := t2 } = u2 at h2
  have h3 := encStep_pending (d := d) (t := t3) h2.pinIn (by rw [h2.cfg, h2.tChange, h1.cfg]; exact hg3)
    (by rw [h2.lastState]; exact hq3) (by rw [h2.params, h1.params, hs]; exact (quarterStep_ne hq3).symm)
  exact ⟨u1, u2, _, rfl, hu2, rfl, h1, h2, h3⟩

/-- With divisor 4 a commit moves the position by one (R179). -/
theorem movePosition_one {d : Dir} (hd : d ≠ .none) (p : Word) :
    movePosition p d (positionStep 4#3) = if d = .cw then p + 1#32 else p - 1#32 := by
  cases d with
  | none => exact absurd rfl hd
  | cw => rfl
  | ccw => rfl

/-- The code of a rotation (00_scope.md R11, 30_encoding.md R110). -/
theorem rotateCode_eq {d : Dir} (hd : d ≠ .none) : rotateCode d = if d = .cw then 1#4 else 3#4 := by
  cases d with
  | none => exact absurd rfl hd
  | cw => rfl
  | ccw => rfl

/-- The levels of one detent are three quarter-steps from state 0 through state 3 (R175, R185). -/
theorem detent_quarterSteps {d : Dir} {rest pins : List Level}
    (h : d = .cw ∧ pins = [false, true, true, true, true, false] ++ rest ∨
      d = .ccw ∧ pins = [true, false, true, true, false, true] ++ rest) :
    ∃ a b e f, pins = [a, b, true, true, e, f] ++ rest ∧ QuarterStep d 0#2 (encState a b) ∧
      QuarterStep d (encState a b) 3#2 ∧ QuarterStep d 3#2 (encState e f) := by
  rcases h with ⟨rfl, hp⟩ | ⟨rfl, hp⟩
  · exact ⟨false, true, true, false, hp, by unfold QuarterStep Clockwise; decide⟩
  · exact ⟨true, false, false, true, hp, by unfold QuarterStep Clockwise; decide⟩

/-- Settles O60: of the three quarter-steps only the second moves the position and presents a record. -/
theorem fullDetentMovesByOne : Obligations.FullDetentMovesByOne := by
  intro s t1 t2 t3 d rest hlast _ hdiv hs he hg1 hg2 hg3 hpins
  obtain ⟨a, b, e, f, hpins, hq1, hq2, hq3⟩ := detent_quarterSteps hpins
  obtain ⟨u1, u2, u3, hu1, hu2, hu3, h1, h2, h3⟩ :=
    detent_turns hpins hs he hg1 hg2 hg3 (hlast.symm ▸ hq1) hq2 hq3
  have hd : d ≠ .none := quarterStep_dir hq1
  have hix : u3.ix = s.ix := h3.ix.trans (h2.ix.trans h1.ix)
  refine ⟨u1, u2, u3, exec_uEncStep_of hu1, exec_uEncStep_of hu2, exec_uEncStep_of hu3, ?_, ?_, rotationRecord d u1,
    ?_, ?_⟩
  · rw [← hix, h3.position, h2.position, h1.position, h1.cfg, h1.ix, hdiv, movePosition_one hd, hix]
  · rw [← hix, h3.lastDir, h2.lastDir]
  · exact h3.records.trans (h2.records.trans (congrArg _ h1.records))
  · rw [rotationRecord, h1.cfg, h1.ix, rotateCode_eq hd]

end Sys2Proof.QuadratureClaims

/-! SUPPORT. Proofs of the statements about the expander bus (45_expander.md): the bus frames, the initialisation of a
device, its read, and the polls of its lanes. -/

namespace Sys2Proof.ExpanderClaims

open Sys2Proof.Machine Sys2Proof.Safety

/-! ## The bus frames (45_expander.md R200 to R202, R206) -/

theorem exec_bfWriteReg (a : BitVec 7) (r v : Byte) (s : State) :
    exec (.bfWriteReg a r v) s = .next (writeRegFrame a r v s) := rfl

theorem exec_bfSetPointer (a : BitVec 7) (r : Byte) (s : State) :
    exec (.bfSetPointer a r) s = .next (setPointerFrame a r s) := rfl

theorem exec_bfRead2 (a : BitVec 7) (s : State) : exec (.bfRead2 a) s = .next (read2Frame a s) := rfl

theorem writeRegFrame_eq (a : BitVec 7) (r v : Byte) (s : State) :
    writeRegFrame a r v s =
      { s with call.status := s.env.endAnswer 0, env := s.env.afterEnd,
               out := .request .busEnd :: .request (.busWrite v) :: .request (.busWrite r) ::
                 .request (.busBegin a) :: s.out } := rfl

theorem setPointerFrame_eq (a : BitVec 7) (r : Byte) (s : State) :
    setPointerFrame a r s =
      { s with call.status := s.env.endAnswer 0, env := s.env.afterEnd,
               out := .request .busEnd :: .request (.busWrite r) :: .request (.busBegin a) :: s.out } := rfl

/-- Settles O40: each frame is its requests in order, and `BusEnd` answers the status. -/
theorem writeFrames : Obligations.WriteFrames := by
  intro s a r v
  rw [exec_bfWriteReg, exec_bfSetPointer, writeRegFrame_eq, setPointerFrame_eq]
  exact ⟨rfl, rfl⟩

/-- The block has asked for two bytes and for the time at which the wait begins; the clock's next answers are `nows`. -/
def readRequested (a : BitVec 7) (nows : List Word) (s : State) : State :=
  { s with env.nowIn := nows, out := .request .now :: .request (.busRequest a 2) :: s.out }

/-- BF_READ2 with the clock's first answer scripted: the wait counts from that answer. -/
theorem read2Frame_scripted {s : State} {w0 : Word} {nows : List Word} (a : BitVec 7) (h : s.env.nowIn = w0 :: nows) :
    read2Frame a s = waitData w0 s.env.availIn (readRequested a nows s) := by
  simp [read2Frame, readRequested, now, request, Env.nowAnswer, Env.afterNow, h]

/-- BF_READ2 is the wait after requests that touch the trace and the clock only. -/
theorem read2Frame_waits (a : BitVec 7) (s : State) :
    ∃ w0 avail u, BusOnly s u ∧ read2Frame a s = waitData w0 avail u :=
  ⟨_, _, _, (request_busOnly (.busRequest a 2) s).trans (now_busOnly _), rfl⟩

/-- Settles O41: the frame is its two requests and then the wait, which takes data in time, gives up when the limit is
exceeded, and ends whatever the environment answers. -/
theorem readFrame : Obligations.ReadFrame := by
  refine ⟨?data, ?timeout, ?ends⟩
  case data =>
    intro s a w0 ts nows ns avail n b0 b1 bytes hnow havail hbytes hlen hfew htime hready
    rw [exec_bfRead2, read2Frame_scripted a hnow, havail,
      waitData_ok w0 ts nows ns avail n b0 b1 bytes (readRequested a (ts ++ nows) s) rfl havail hbytes hlen hfew
        htime hready]
    simp [readRequested]
  case timeout =>
    intro s a w0 t1 ts nows ns avail n hnow havail hlen hfew htime hn hlate
    rw [exec_bfRead2, read2Frame_scripted a hnow, havail,
      waitData_timeout w0 t1 ts nows ns avail n (readRequested a (ts ++ t1 :: nows) s) rfl havail hlen hfew
        htime hn hlate]
    simp [readRequested]
  case ends =>
    intro s a
    obtain ⟨w0, avail, u, hu, hread⟩ := read2Frame_waits a s
    obtain ⟨hresult, hframe⟩ := waitData_ends w0 avail u
    refine ⟨_, exec_bfRead2 a s, ?_⟩
    rw [hread]
    exact ⟨hresult, hu.trans hframe⟩

/-! ## U_EXP_INIT (45_expander.md R203, R204) -/

theorem exec_uExpInit (s : State) :
    exec .uExpInit s = .next (expInitWrites s.ix (s.cfg.expCfgAt s.ix) s.params.expInit s) := rfl

/-- When a write of the initialisation table is made (R203). -/
theorem initCond_holds (c : InitCond) (x : ExpCfg) :
    InitCond.holds c x = (decide (c = .always) || (decide (c = .ifPullups) && x.usePullups) ||
      (decide (c = .ifInterrupt) && x.useInt)) := by
  cases c <;> simp [InitCond.holds]

/-- Settles O35: the writes made are those whose condition holds, and the rule for the table's writes gives both ends. -/
theorem expanderInitialisation : Obligations.ExpanderInitialisation := by
  intro s x writes frames Sends
  have hsends := expInitWrites_sends s.ix x s.params.expInit s
  simp only [initCond_holds] at hsends
  obtain ⟨hall, hfail⟩ := hsends
  refine ⟨fun h => ⟨_, exec_uExpInit s, hall h⟩, fun k hk hbefore hne => ?_⟩
  obtain ⟨u, hu, hraised⟩ := hfail k hk hbefore hne
  exact ⟨u, _, exec_uExpInit s, hu, hraised⟩

/-! ## U_EXP_READ (45_expander.md R205) -/

theorem exec_uExpRead (s : State) : exec .uExpRead s = .next (expRead s) := rfl

/-- The device's pointer is written, and no read has succeeded yet. -/
def pointerWritten (s : State) : State :=
  setPointerFrame (s.cfg.expCfgAt s.ix).addr s.params.expRegs.gpioa { s with expOk := false }

theorem pointerWritten_status (s : State) : (pointerWritten s).call.status = s.env.endAnswer 0 := rfl

/-- The read that follows a pointer write that passed. -/
def readTried (s : State) : State := read2Frame (s.cfg.expCfgAt s.ix).addr (pointerWritten s)

/-- A pointer write that fails is BusError, and no read is tried. -/
theorem expRead_busError {s : State} (h : s.env.endAnswer 0 ≠ 0#8) :
    expRead s = callRaise .busError s.ix (s.env.endAnswer 0) (pointerWritten s) := if_neg h

section

variable {s : State} (hp : s.env.endAnswer 0 = 0#8)
include hp

/-- Two bytes make the word, the first the low one (20_memory.md R74). -/
theorem expRead_word {b0 b1 : Byte} (h : (readTried s).call.read = .ok b0 b1) :
    expRead s = { readTried s with expWord := b1 ++ b0, expOk := true } := by
  rw [← pointerWritten_status] at hp
  unfold readTried pointerWritten at *
  simp only [expRead, hp, h, if_true]

/-- A read that times out is TimeoutError. -/
theorem expRead_timeoutError {n : Byte} (h : (readTried s).call.read = .timeout n) :
    expRead s = callRaise .timeoutError s.ix n (readTried s) := by
  rw [← pointerWritten_status] at hp
  unfold readTried pointerWritten at *
  simp only [expRead, hp, h, if_true]

end

/-- Settles O42: the status of the pointer write says whether a read is tried, and the result of the read says whether
there is a word. -/
theorem expanderRead : Obligations.ExpanderRead := by
  intro s a st u
  refine ⟨fun hfails => ?_, fun hpasses => ⟨readTried s, exec_bfRead2 a u, fun b0 b1 hread => ?_, fun n hread => ?_⟩⟩
  · rw [exec_uExpRead, expRead_busError hfails]
    exact ⟨_, rfl, callRaise_raised .busError s.ix st u⟩
  · rw [exec_uExpRead, expRead_word hpasses hread]
  · rw [exec_uExpRead, expRead_timeoutError hpasses hread]
    exact ⟨_, rfl, callRaise_raised .timeoutError s.ix n (readTried s)⟩

/-! ## U_EXP_DEB (45_expander.md R208, R209) -/

theorem exec_uExpDeb_failed {s : State} (h : s.expOk = false) : exec .uExpDeb s = .next s :=
  if_neg (by simp [h])

theorem exec_uExpDeb_read {s : State} (h : s.expOk = true) : exec .uExpDeb s = .next (expDebFrom 16 s) := if_pos h

/-- In its turn the engine goes on with the lanes that a record had left. -/
theorem step_expLanes {s s' : State} {n : Nat} {rest : List Task} (hs : EngineTurn s s') (he : s.evt = none)
    (hl : s.todo = .expLanes n :: rest) : step s = .next (expDebFrom n { s' with todo := rest }) :=
  step_task hs he hl

/-- Settles O43: after a read the micro-operation scans all sixteen lanes, and the task that it leaves behind scans the
lanes left. -/
theorem expanderLanes : Obligations.ExpanderLanes := by
  refine ⟨fun _ => exec_uExpDeb_failed, fun s hok => ?_, fun s s' n rest hs he hl => ?_⟩
  · exact ⟨_, exec_uExpDeb_read hok, expDebFrom_scanned 16 s⟩
  · exact ⟨_, step_expLanes hs he hl, expDebFrom_scanned n _⟩

end Sys2Proof.ExpanderClaims

/-! SUPPORT. Proofs of the statements about the update cycle (46_update_cycle.md): the commands that start a cycle, U_IDLE,
the power-save gate, the power mode, and the sequence of a cycle. -/

namespace Sys2Proof.UpdateCycleClaims

open Sys2Proof.Machine Sys2Proof.Safety Sys2Proof.StateClaims Sys2Proof.EncodingClaims

/-! ## TRY_UPDATE and UPDATE (46_update_cycle.md R230, R231, R245) -/

theorem acceptUpdate_eq (s : State) :
    acceptUpdate s = { s with busy := true, activity := false, tCycle := s.env.nowAnswer, env := s.env.afterNow,
                              out := .request .now :: s.out,
                              todo := [.op .uop5 0x05#64 none, .afterGate] ++ s.todo } := rfl

section

variable {s : State}

theorem tryUpdate_error (hi : s.initialized = false) : Answers .tryUpdate s .error 0#32 :=
  if_pos (by rw [hi]; rfl)

theorem tryUpdate_busy (hi : s.initialized = true) (hb : s.busy = true) : Answers .tryUpdate s .busy 0#32 := by
  show execTryUpdate s = _
  simp [execTryUpdate, hi, hb, respond]

theorem tryUpdate_accepted (hi : s.initialized = true) (hb : s.busy = false) :
    exec .tryUpdate s = .next (acceptUpdate s) := by
  show execTryUpdate s = _
  simp [execTryUpdate, hi, hb]

theorem update_error (hi : s.initialized = false) : Answers .update s .error 0#32 :=
  if_pos (by rw [hi]; rfl)

theorem update_waits (hi : s.initialized = true) (hb : s.busy = true) :
    exec .update s = .next { s with updWait := s.updWait + 1 } := by
  show execUpdate s = _
  simp [execUpdate, hi, hb]

theorem update_accepted (hi : s.initialized = true) (hb : s.busy = false) :
    exec .update s = .next (acceptUpdate s) := by
  show execUpdate s = _
  simp [execUpdate, hi, hb]

end

/-- Settles O28: the three ways of TRY_UPDATE; an accepted one is `acceptUpdate`. -/
theorem tryUpdateOutcomes : Obligations.TryUpdateOutcomes := by
  intro s
  rw [← acceptUpdate_eq]
  exact ⟨tryUpdate_error, tryUpdate_busy, tryUpdate_accepted⟩

/-- Settles O29: the three ways of UPDATE; an accepted one is `acceptUpdate`. -/
theorem updateOutcomes : Obligations.UpdateOutcomes := by
  intro s
  rw [← acceptUpdate_eq]
  exact ⟨update_error, update_waits, update_accepted⟩

/-! ## U_PSCHK (46_update_cycle.md R234) -/

theorem exec_uPsChk (s : State) : exec .uPsChk s = .next { s with call.skip := gateSkips s } := rfl

/-- The gate compares strictly (60_exceptions.md R298). -/
theorem gateSkips_eq (s : State) :
    gateSkips s = (!s.psMode && s.cfg.psEnable &&
      decide (s.cfg.psTimeoutMs.toNat < (s.tCycle - s.tActivity).toNat)) := rfl

/-- Settles O36: the result is the gate's. -/
theorem powerSaveGate : Obligations.PowerSaveGate := by
  intro s
  rw [exec_uPsChk, gateSkips_eq]

/-! ## U_PS_ENTER, U_PS_EXIT, U_FIN (46_update_cycle.md R235, R241, R242) -/

theorem decode_uPsEnter : decode .uop5 0x06#64 = .ok .uPsEnter := by decide

theorem decode_uPsExit : decode .uop5 0x0F#64 = .ok .uPsExit := by decide

theorem exec_uPsEnter (s : State) : exec .uPsEnter s = .next (psEnter s) := rfl

theorem exec_uPsExit (s : State) : exec .uPsExit s = .next (psExit s) := rfl

/-- The power mode written after requests that touch nothing but the pins. -/
theorem pinsOnly_with_psMode {s u : State} (h : PinsOnly s u) (b : Bool) :
    { u with psMode := b } = { s with psMode := b, env.pins := u.env.pins, out := u.out } := by
  unfold PinsOnly at h
  rw [h]

/-- U_PS_ENTER: the rows' pins become inputs, and the mode PowerSaving. -/
theorem psEnter_releases (s : State) :
    Issued ((List.range s.cfg.numRows.toNat).map fun r => .pinMode (s.cfg.rowPinAt (BitVec.ofNat 8 r)) .input) s
        (psEnter s) ∧
      psEnter s = { s with psMode := true, env.pins := (psEnter s).env.pins, out := (psEnter s).out } := by
  obtain ⟨hissued, hpins⟩ := setModes_issued s HostCfg.rowPinAt .input s.cfg.numRows.toNat
  rw [← List.map_eq_flatMap] at hissued
  exact ⟨hissued, pinsOnly_with_psMode hpins true⟩

/-- The requests that restore the rows (R242, 47_host_commands.md R267). -/
def rowRequests (c : HostCfg) : List Request :=
  (List.range c.numRows.toNat).flatMap fun r =>
    [.pinMode (c.rowPinAt (BitVec.ofNat 8 r)) .output, .pinWrite (c.rowPinAt (BitVec.ofNat 8 r)) true]

/-- U_PS_EXIT: the rows are restored, and the mode is Awake. -/
theorem psExit_restores (s : State) :
    Issued (rowRequests s.cfg) s (psExit s) ∧
      psExit s = { s with psMode := false, env.pins := (psExit s).env.pins, out := (psExit s).out } := by
  obtain ⟨hissued, hpins⟩ := restoreRows_issued s s.cfg.numRows.toNat
  exact ⟨hissued, pinsOnly_with_psMode hpins false⟩

/-- Settles O37: the requests of the loop over the rows, and the mode. -/
theorem powerSaveEntry : Obligations.PowerSaveEntry :=
  ⟨decode_uPsEnter, fun s => ⟨psEnter s, exec_uPsEnter s, psEnter_releases s⟩⟩

/-- Settles O38: the requests of the loop over the rows, and the mode. -/
theorem powerSaveExit : Obligations.PowerSaveExit :=
  ⟨decode_uPsExit, fun s => ⟨psExit s, exec_uPsExit s, psExit_restores s⟩⟩

section

variable {s : State}

theorem exec_uFin_quiet (ha : s.activity = false) : exec .uFin s = .next s :=
  if_neg (by simp [ha])

theorem exec_uFin_awake (ha : s.activity = true) (hp : s.psMode = false) :
    exec .uFin s = .next { s with tActivity := s.tCycle } := by
  show execUFin s = _
  simp [execUFin, ha, hp]

theorem exec_uFin_wakes (ha : s.activity = true) (hp : s.psMode = true) :
    exec .uFin s = .next (psExit { s with tActivity := s.tCycle, phase := 0x0F#5 }) := by
  show execUFin s = _
  simp [execUFin, ha, hp]

end

/-- Settles O39: from PowerSaving the cycle ends with U_PS_EXIT, after the idle timer and the code are written. -/
theorem cycleFinish : Obligations.CycleFinish := by
  refine fun s => ⟨exec_uFin_quiet, exec_uFin_awake, fun ha hp => ?_⟩
  exact ⟨_, exec_uFin_wakes ha hp, psExit_restores { s with tActivity := s.tCycle, phase := 0x0F#5 }⟩

/-! ## The power mode (46_update_cycle.md R243) -/

/-- A word of the work list that changes the power mode is that of U_PS_ENTER, of U_FIN after a confirmed change, or of
U_PS_EXIT: each operation has one word. -/
theorem word_changes_psMode {f : Fmt} {w : BitVec 64} {i : Instr} (hd : decode f w = .ok i) {s t : State}
    (hx : exec i s = .next t) (hne : t.psMode ≠ s.psMode) :
    f = .uop5 ∧ (w = 0x06#64 ∧ t.psMode = true ∨ w = 0x0E#64 ∧ s.activity = true ∧ t.psMode = false ∨
      w = 0x0F#64 ∧ t.psMode = false) := by
  have hw : encode i = (f, w) := encodeOfDecode f w i hd
  rcases (exec_word hd hx).psMode hne with ⟨rfl, ht⟩ | ⟨rfl, ha, ht⟩ | ⟨rfl, ht⟩
  · cases hw
    exact ⟨rfl, .inl ⟨rfl, ht⟩⟩
  · cases hw
    exact ⟨rfl, .inr (.inl ⟨rfl, ha, ht⟩)⟩
  · cases hw
    exact ⟨rfl, .inr (.inr ⟨rfl, ht⟩)⟩

theorem turn_psMode {s s' : State} (hs : EngineTurn s s') : s'.psMode = s.psMode := by rw [engineTurn_fields hs]

theorem turn_activity {s s' : State} (hs : EngineTurn s s') : s'.activity = s.activity := by rw [engineTurn_fields hs]

/-- A command leaves the power mode alone. -/
theorem command_psMode {w : BitVec 64} {i : Instr} (hd : decode .cmd64 w = .ok i) {s t : State}
    (hx : exec i s = .next t) : t.psMode = s.psMode := by
  obtain ⟨u, hu, hf⟩ := exec_command hd s
  cases hu.symm.trans hx
  exact hf.psMode

/-- Settles O17: of the cases of a step, `rst`, a word of the work list and the end of BEGIN can change the power mode. -/
theorem powerModeTransitions : Obligations.PowerModeTransitions := by
  intro s t h hne
  cases step_cases h with
  | command w l i hh hd hx => exact absurd (command_psMode hd hx) hne
  | reserved w l r hh hd ht => subst ht; exact absurd rfl hne
  | ack bit l hh ht => subst ht; exact absurd rfl hne
  | rst l hh ht => subst ht; exact .inl ⟨.inl ⟨l, hh⟩, rfl⟩
  | cut k l o hh ho ht => subst ht; exact .inl ⟨.inr ⟨k, l, hh⟩, rfl⟩
  | waited l hh ha ht => subst ht; exact absurd rfl hne
  | stalled s' hs he ht => subst ht; exact absurd (turn_psMode hs) hne
  | run s' f w item rest i hs he hl hd hx =>
    have hturn : s'.psMode = s.psMode := turn_psMode hs
    obtain ⟨rfl, ⟨rfl, ht⟩ | ⟨rfl, ha, ht⟩ | ⟨rfl, ht⟩⟩ := word_changes_psMode hd hx (hne.trans_eq hturn.symm)
    · exact .inr (.inl ⟨item, rest, hl, ht⟩)
    · exact .inr (.inr (.inl ⟨item, rest, hl, (turn_activity hs).symm.trans ha, ht⟩))
    · exact .inr (.inr (.inr (.inl ⟨item, rest, hl, ht⟩)))
  | odd s' w item rest r hs he hl hd ht => subst ht; exact absurd (turn_psMode hs) hne
  | task s' k rest hs he hl hk ht =>
    have hturn : s'.psMode = s.psMode := turn_psMode hs
    obtain ⟨-, -, hmode, -⟩ := settleTask_frame k { s' with todo := rest }
    subst ht
    obtain ⟨rfl, hawake⟩ := hmode (hne.trans_eq hturn.symm)
    exact .inr (.inr (.inr (.inr ⟨rest, hl, hawake⟩)))
  | update s' hs he hl hu hb hx =>
    have hturn : s'.psMode = s.psMode := turn_psMode hs
    exact absurd ((command_psMode decode_update hx).trans hturn) hne
  | idle s' hs he hl ht => subst ht; exact absurd (turn_psMode hs) hne

/-! ## U_IDLE (46_update_cycle.md R246) -/

theorem exec_uIdle (s : State) : exec .uIdle s = .next s := rfl

/-- WR does not start the engine. -/
theorem writeReg_busy {r : HostReg} {imm : Word} {s u : State} (h : writeReg r imm s = some u) : u.busy = s.busy := by
  rcases writeReg_cases h with hu | ⟨e, -, rfl⟩
  · rw [hu]
  · rfl

/-- A command that takes an idle engine to busy is BEGIN, TRY_UPDATE or UPDATE. -/
theorem command_starts {w : BitVec 64} {i : Instr} (hd : decode .cmd64 w = .ok i) {s t : State}
    (hx : exec i s = .next t) (hne : t.busy ≠ s.busy) : i = .beginCmd ∨ i = .tryUpdate ∨ i = .update := by
  rcases decode_command hd with rfl | ⟨a, b, c, rfl⟩ | ⟨a, b, c, d, rfl⟩ | rfl | rfl | rfl | rfl
  · cases hx
    exact absurd rfl hne
  · obtain ⟨st, d, n, rfl⟩ := rd_cases hx
    exact absurd rfl hne
  · rcases wr_cases hx with ⟨st, rfl⟩ | ⟨-, r, u, -, hw, rfl⟩
    · exact absurd rfl hne
    · have hu : u.busy = s.busy := writeReg_busy hw
      exact absurd (by rw [respond_busy, apply_ite State.busy, ite_self, hu]) hne
  · exact .inl rfl
  · exact .inr (.inl rfl)
  · exact .inr (.inr rfl)
  · cases hx
    exact absurd rfl hne

/-- The words of BEGIN, TRY_UPDATE and UPDATE (30_encoding.md R102). -/
def startWords : List (BitVec 64) := [0x1000000000000000#64, 0x1100000000000000#64, 0x1200000000000000#64]

theorem command_starts_word {w : BitVec 64} {i : Instr} (hd : decode .cmd64 w = .ok i) {s t : State}
    (hx : exec i s = .next t) (hne : t.busy ≠ s.busy) :
    w ∈ startWords := by
  have hw : encode i = (.cmd64, w) := encodeOfDecode .cmd64 w i hd
  rcases command_starts hd hx hne with rfl | rfl | rfl <;> cases hw <;> decide

/-- With nothing to do, nothing waiting and no action of the host, a step is U_IDLE. -/
theorem step_uIdle {s : State} (hh : s.host = []) (he : s.evt = none) (hl : s.todo = []) (hu : s.updWait = 0) :
    step s = .next s := by
  obtain ⟨-, -, -, hidle⟩ := stepRunsTheDecodedWord
  rw [hidle s s (.inl ⟨hh, rfl⟩) he hl (.inl hu), exec_uIdle]

/-- What takes a coherent idle engine to busy: an UPDATE that waits, or a command of the host. -/
theorem step_leaves_idle {s t : State} (hco : Coherent s) (hb : s.busy = false) (h : step s = .next t)
    (ht : t.busy = true) :
    s.updWait ≠ 0 ∨ ∃ w h, s.host = .cmd w :: h ∧ w ∈ startWords := by
  obtain ⟨hempty, -⟩ := hco.1 hb
  have noTask : ∀ {k : Task} {rest : List Task}, s.todo ≠ k :: rest := by simp [hempty]
  have hne : t.busy ≠ s.busy := by simp [hb, ht]
  cases step_cases h with
  | command w l i hh hd hx => exact .inr ⟨w, l, hh, command_starts_word hd hx hne⟩
  | reserved w l r hh hd hu => subst hu; exact absurd rfl hne
  | ack bit l hh hu => subst hu; exact absurd rfl hne
  | rst l hh hu => subst hu; exact absurd hb.symm hne
  | cut k l o hh ho hu => subst hu; exact absurd hb.symm hne
  | waited l hh ha hu => subst hu; exact absurd rfl hne
  | stalled s' hs he hu => subst hu; exact absurd (turn_busy hs) hne
  | run s' f w item rest i hs he hl hd hx => exact absurd hl noTask
  | odd s' w item rest r hs he hl hd hu => exact absurd hl noTask
  | task s' k rest hs he hl hk hu => exact absurd hl noTask
  | update s' hs he hl hu hb' hx => exact .inl hu
  | idle s' hs he hl hu => subst hu; exact absurd (turn_busy hs) hne

/-- Settles O31: an idle engine has an empty work list, so a step runs U_IDLE, a waiting UPDATE, or the host's command. -/
theorem idleUntilACommand : Obligations.IdleUntilACommand := by
  refine ⟨exec_uIdle, fun s hco hb => ?_⟩
  obtain ⟨hl, he, hphase, -, -⟩ := hco.1 hb
  exact ⟨hphase, fun hh hu => step_uIdle hh he hl hu, fun t => step_leaves_idle hco hb⟩

/-! ## The sequence of a cycle (46_update_cycle.md R230, R232) -/

/-- In its turn the engine settles a branch point or an end. -/
theorem step_closing {s s' : State} {k : Task} {rest : List Task} (hk : Closing k) (hs : EngineTurn s s')
    (he : s.evt = none) (hl : s.todo = k :: rest) : step s = .next (settleTask k { s' with todo := rest }) :=
  (step_task hs he hl).trans (runMove_closing hk _)

/-- What U_PSCHK said chooses the branch. -/
theorem settleTask_afterGate (s : State) :
    settleTask .afterGate s = { s with todo := (if s.call.skip then skipTasks else pollTasks s) ++ s.todo } := rfl

/-- The items of a cycle are those of the configuration, and of the power mode (R232). -/
theorem pollTasks_congr {s t : State} (hc : t.cfg = s.cfg) (hp : t.psMode = s.psMode) : pollTasks t = pollTasks s := by
  rw [pollTasks, hc, hp, pollTasks]

section

variable {s s' : State} {rest : List Task} (hs : EngineTurn s s') (he : s.evt = none)
include hs he

theorem step_afterGate (hl : s.todo = .afterGate :: rest) :
    step s = .next { s' with todo := (if s.call.skip then skipTasks else pollTasks s) ++ rest } := by
  have hcall : s'.call = s.call := by rw [engineTurn_fields hs]
  have hcfg : s'.cfg = s.cfg := turn_cfg hs
  have hmode : s'.psMode = s.psMode := turn_psMode hs
  have hpolls : pollTasks { s' with todo := rest } = pollTasks s := pollTasks_congr hcfg hmode
  rw [step_closing (k := .afterGate) trivial hs he hl, settleTask_afterGate, hpolls, hcall]

theorem step_cycleEnd (hl : s.todo = .cycleEnd :: rest) :
    step s = .next { s' with todo := rest, busy := false, phase := 0#5, ix := 0#8, jx := 0#8,
                             out := .response .ok 0#32 :: s.out } := by
  have hout : s'.out = s.out := by rw [engineTurn_fields hs]
  rw [← hout]
  exact step_closing (k := .cycleEnd) trivial hs he hl

end

/-- Settles O56: the two branches of U_PSCHK's result, and the end of the cycle. -/
theorem updateCycleSequence : Obligations.UpdateCycleSequence := by
  intro s s' rest hs he c uop upto polls
  refine ⟨fun hl hskip => ?_, fun hl hpoll => ?_, step_cycleEnd hs he⟩
  · rw [step_afterGate hs he hl, hskip]
    rfl
  · have hpolls : pollTasks s = polls := rfl
    rw [step_afterGate hs he hl, hpoll, hpolls]
    rfl

end Sys2Proof.UpdateCycleClaims

/-! SUPPORT. Proofs of the statements about the host commands (47_host_commands.md): NOP, CLEAR_ERROR, WR, and BEGIN with
its micro-operations and its sequence. -/

namespace Sys2Proof.HostCommandClaims

open Sys2Proof.Machine Sys2Proof.Safety Sys2Proof.StateClaims Sys2Proof.EncodingClaims Sys2Proof.UpdateCycleClaims

/-! ## WR (47_host_commands.md R264) -/

section

variable {s t : State} {reg i j : Byte} {r : HostReg} {imm : Word}

/-- While the engine is busy the address is not even looked at. -/
theorem wr_busy (hb : s.busy = true) : Answers (.wr reg i j imm) s .busy 0#32 := by
  show execWr reg i j imm s = _
  simp [execWr, hb, respond]

/-- A count above its capacity is refused, whichever count it is (10_state.md R30). -/
theorem wr_count_refused {limit : Byte} {f : Byte → State} (hb : s.busy = false) (hr : resolve s.params reg i j = some r)
    (hw : writeReg r imm s = (legalCount limit imm).map f) (h : limit.toNat < (imm.extractLsb' 0 8).toNat) :
    Answers (.wr reg i j imm) s .error 0#32 :=
  wr_refused hb hr (by rw [hw, legalCount_none h]; rfl)

/-- A profile that does not exist is refused while the block is initialised (R30). -/
theorem wr_profile_refused (hb : s.busy = false) (hi : s.initialized = true)
    (h : s.cfg.profileCount.toNat ≤ (imm.extractLsb' 0 8).toNat) :
    Answers (.wr 0x05#8 0#8 0#8 imm) s .error 0#32 :=
  wr_refused (r := .activeProfile) hb rfl (if_pos ⟨hi, h⟩)

/-- The legal divisors (10_state.md R34). -/
theorem divisor_legal_iff : ∀ d : BitVec 3, d ∈ [1#3, 2#3, 3#3, 4#3] ↔ 1 ≤ d.toNat ∧ d.toNat ≤ 4 := by decide

/-- A divisor that is not 1 to 4 is refused; an index beyond the encoders names no register. -/
theorem wr_divisor_refused (hb : s.busy = false) (i : Byte) (h : imm.extractLsb' 0 3 ∉ [1#3, 2#3, 3#3, 4#3]) :
    Answers (.wr 0x17#8 i 0#8 imm) s .error 0#32 := by
  rw [divisor_legal_iff] at h
  by_cases hi : i.toNat < s.params.maxEnc.toNat
  · exact wr_refused (r := .encDivisor i) hb (indexedReg_eq hi _) (if_neg h)
  · have hnone : resolve s.params 0x17#8 i 0#8 = none := if_neg fun hn => hi hn.1
    exact wr_unnamed hb hnone imm

/-- An accepted write of a structural register clears `initialized` (10_state.md R37). -/
theorem wr_structural (hb : s.busy = false) (hr : resolve s.params reg i j = some r) (hs : r.structural = true)
    (hw : writeReg r imm s = some t) : Writes s reg i j imm { t with initialized := false } := by
  have h := wr_accepted hb hr hw
  rwa [if_pos hs] at h

/-- An accepted write of any other register leaves `initialized` alone. -/
theorem wr_plain (hb : s.busy = false) (hr : resolve s.params reg i j = some r) (hs : r.structural = false)
    (hw : writeReg r imm s = some t) : Writes s reg i j imm t := by
  have h := wr_accepted hb hr hw
  rwa [if_neg (by simp [hs])] at h

/-- A count of at most its capacity is accepted, whichever count it is; every count is structural. -/
theorem wr_count_accepted {limit : Byte} {f : Byte → State} (hb : s.busy = false)
    (hr : resolve s.params reg i j = some r) (hs : r.structural = true)
    (hw : writeReg r imm s = (legalCount limit imm).map f) (h : (imm.extractLsb' 0 8).toNat ≤ limit.toNat) :
    Writes s reg i j imm { f (imm.extractLsb' 0 8) with initialized := false } :=
  wr_structural hb hr hs (by rw [hw, legalCount_some h]; rfl)

/-- A profile that exists is accepted, and any profile while the block is not initialised (R30). -/
theorem wr_profile_accepted (hb : s.busy = false)
    (h : s.initialized = false ∨ (imm.extractLsb' 0 8).toNat < s.cfg.profileCount.toNat) :
    Writes s 0x05#8 0#8 0#8 imm { s with cfg.activeProfile := imm.extractLsb' 0 8 } := by
  have hlegal : ¬ (s.initialized = true ∧ s.cfg.profileCount.toNat ≤ (imm.extractLsb' 0 8).toNat) := by
    rintro ⟨hi, hp⟩
    rcases h with h | h
    · exact Bool.false_ne_true (h.symm.trans hi)
    · omega
  exact wr_plain (r := .activeProfile) hb rfl rfl (if_neg hlegal)

end

/-- Settles O23: BUSY comes before the address; then a read-only register, or a value that `writeReg` refuses. -/
theorem writeRefused : Obligations.WriteRefused := by
  refine fun s imm => ⟨fun hb reg i j => wr_busy hb, fun hb => ?_⟩
  exact ⟨fun reg i j hn hr => wr_readOnly hb hn hr imm,
    wr_count_refused (r := .numRows) hb rfl rfl,
    wr_count_refused (r := .numCols) hb rfl rfl,
    wr_count_refused (r := .numGpio) hb rfl rfl,
    wr_count_refused (r := .numEnc) hb rfl rfl,
    wr_count_refused (r := .numExp) hb rfl rfl,
    wr_profile_refused hb,
    wr_divisor_refused hb⟩

/-- Settles O24: one line a register, by what `writeReg` makes of it and whether it is structural. -/
theorem writeScalarRegisters : Obligations.WriteScalarRegisters := by
  intro s imm hb
  exact ⟨wr_plain (r := .ctrl) hb rfl rfl rfl,
    wr_plain (r := .debounceMs) hb rfl rfl rfl,
    wr_plain (r := .encDebounceMs) hb rfl rfl rfl,
    wr_plain (r := .psTimeoutMs) hb rfl rfl rfl,
    wr_structural (r := .profileCount) hb rfl rfl rfl,
    wr_profile_accepted hb,
    wr_count_accepted (r := .numRows) hb rfl rfl rfl,
    wr_count_accepted (r := .numCols) hb rfl rfl rfl,
    wr_count_accepted (r := .numGpio) hb rfl rfl rfl,
    wr_count_accepted (r := .numEnc) hb rfl rfl rfl,
    wr_count_accepted (r := .numExp) hb rfl rfl rfl,
    wr_plain (r := .evtEnable) hb rfl rfl rfl⟩

/-- Settles O25: the address resolves because the index is in range; the entry is the one `Table.put` writes. -/
theorem writeTableRegisters : Obligations.WriteTableRegisters := by
  intro s i imm hb
  refine ⟨fun hi => ?rowPin, fun hi => ?colPin, fun hi => ?gpioPin,
    fun hi => ⟨?encPinA, ?encPinB, ?encPinBtn, fun hd => ?encDivisor, ?encPosition⟩, fun hi => ?expCfg⟩
  case rowPin =>
    exact ⟨_, wr_structural (r := .rowPin i) hb (indexedReg_eq hi _) rfl rfl, fun k => get_put_byte _ _ i k _, rfl⟩
  case colPin =>
    exact ⟨_, wr_structural (r := .colPin i) hb (indexedReg_eq hi _) rfl rfl, fun k => get_put_byte _ _ i k _, rfl⟩
  case gpioPin =>
    exact ⟨_, wr_structural (r := .gpioPin i) hb (indexedReg_eq hi _) rfl rfl, fun k => get_put_byte _ _ i k _, rfl⟩
  case encPinA =>
    exact ⟨_, wr_structural (r := .encPinA i) hb (indexedReg_eq hi _) rfl rfl, fun k => get_put_byte _ _ i k _, rfl⟩
  case encPinB =>
    exact ⟨_, wr_structural (r := .encPinB i) hb (indexedReg_eq hi _) rfl rfl, fun k => get_put_byte _ _ i k _, rfl⟩
  case encPinBtn =>
    exact ⟨_, wr_structural (r := .encPinBtn i) hb (indexedReg_eq hi _) rfl rfl, fun k => get_put_byte _ _ i k _, rfl⟩
  case encDivisor =>
    have hlegal := (divisor_legal_iff _).1 hd
    exact ⟨_, wr_plain (r := .encDivisor i) hb (indexedReg_eq hi _) rfl (if_pos hlegal),
      fun k => get_put_byte _ _ i k _, rfl⟩
  case encPosition =>
    exact ⟨_, wr_plain (r := .encPosition i) hb (indexedReg_eq hi _) rfl rfl, setEnc_becomes i _ s⟩
  case expCfg =>
    exact ⟨_, wr_structural (r := .expCfg i) hb (indexedReg_eq hi _) rfl rfl, fun k => get_put_byte _ _ i k _, rfl⟩

/-! ## NOP and CLEAR_ERROR (47_host_commands.md R261, R271) -/

theorem decode_nop : decode .cmd64 0x0000000000000000#64 = .ok .nop := by decide

theorem decode_clearError : decode .cmd64 0x1300000000000000#64 = .ok .clearError := by decide

theorem exec_nop (s : State) : exec .nop s = .next (respond .ok 0#32 s) := rfl

theorem exec_clearError (s : State) : exec .clearError s = .next (respond .ok 0#32 (clearSlot s)) := rfl

/-- Settles O26: the word, and the response alone. -/
theorem nopResponds : Obligations.NopResponds := ⟨decode_nop, exec_nop⟩

/-- Settles O30: the word; the slot and its latch are cleared before the response. -/
theorem clearErrorEmptiesTheSlot : Obligations.ClearErrorEmptiesTheSlot := ⟨decode_clearError, exec_clearError⟩

/-! ## BEGIN up to U_VALIDATE (47_host_commands.md R265) -/

/-- An accepted BEGIN: the engine is taken, the slot cleared, the time sampled, U_VALIDATE put on the work list. -/
def beginStarted (s : State) : State :=
  let s1 := now { clearSlot { s with busy := true, initialized := false } with
    tCycle := s.env.nowAnswer, call.valid := false }
  { s1 with todo := [.op .uop5 0x01#64 none, .afterValidate] ++ s.todo }

section

variable {s : State}

theorem begin_busy (hb : s.busy = true) : Answers .beginCmd s .busy 0#32 := by
  show execBeginCmd s = _
  simp [execBeginCmd, hb, respond]

theorem begin_accepted (hb : s.busy = false) : exec .beginCmd s = .next (beginStarted s) :=
  if_neg (by simp [hb])

end

/-- Settles O27: the two ways of BEGIN; an accepted one is `beginStarted`. -/
theorem beginStarts : Obligations.BeginStarts := fun _ => ⟨begin_busy, begin_accepted⟩

/-! ## U_VALIDATE (47_host_commands.md R266) -/

/-- The checks that look at no pin, 1 to 4. -/
def CountsSound (c : HostCfg) : Prop :=
  c.profileCount ≠ 0#8 ∧ c.activeProfile.toNat < c.profileCount.toNat ∧ (c.numRows = 0#8 ↔ c.numCols = 0#8) ∧
  someEqual c.expAddrs = false

/-- The pin of the slot `m` is that of an earlier slot (check 6). -/
def PinClash (l : List Slot) (m : Nat) : Prop :=
  ∃ (k : Nat) (x y : Slot), k < m ∧ l[k]? = some x ∧ l[m]? = some y ∧ x.pin = y.pin

/-- The fault of a slot: its table and its index. -/
def faultAt (k : FaultKind) (x : Slot) : FaultKind × Byte × Byte := (k, x.table, BitVec.ofNat 8 x.index)

/-- The fault of the checks 5 and 6. -/
def slotFault (p : Params) (c : HostCfg) : Option (FaultKind × Byte × Byte) :=
  ((firstInvalid p.pinValid c.slots).map (faultAt .invalidPin)).or
    ((firstConflict [] c.slots).map (faultAt .pinConflict))

theorem firstConflict_of_no_clash {l : List Slot} (h : ∀ m, ¬ PinClash l m) : firstConflict [] l = none :=
  firstConflict_none (fun _ _ _ => List.not_mem_nil) fun k m x y hk hx hy he => h m ⟨k, x, y, hk, hx, hy, he⟩

theorem firstConflict_of_clash {l : List Slot} {m : Nat} {y : Slot} (hm : l[m]? = some y) (h : PinClash l m)
    (hfirst : ∀ k, k < m → ¬ PinClash l k) : firstConflict [] l = some y := by
  obtain ⟨k, x, z, hk, hx, hz, he⟩ := h
  obtain rfl : z = y := Option.some.inj (hz.symm.trans hm)
  exact firstConflict_some hm (.inr ⟨k, x, hk, hx, he⟩) (fun _ _ _ _ => List.not_mem_nil)
    fun a b w v ha hb hw hv hwv => hfirst b hb ⟨a, w, v, ha, hw, hv, hwv⟩

section

variable {p : Params} {c : HostCfg}

theorem rowsCols_differ_iff :
    ((c.numRows == 0#8) != (c.numCols == 0#8)) = true ↔ ¬ (c.numRows = 0#8 ↔ c.numCols = 0#8) := by
  by_cases hr : c.numRows = 0#8 <;> by_cases hc : c.numCols = 0#8 <;> simp [hr, hc]

theorem validateFault_noProfile (h1 : c.profileCount = 0#8) : validateFault p c = some (.invalidConfig, 0#8, 1#8) :=
  if_pos h1

theorem validateFault_badProfile (h1 : c.profileCount ≠ 0#8) (h2 : ¬ c.activeProfile.toNat < c.profileCount.toNat) :
    validateFault p c = some (.invalidConfig, 0#8, 2#8) := by
  rw [validateFault, if_neg h1, if_pos (Nat.le_of_not_lt h2)]

theorem validateFault_badMatrix (h1 : c.profileCount ≠ 0#8) (h2 : c.activeProfile.toNat < c.profileCount.toNat)
    (h3 : ¬ (c.numRows = 0#8 ↔ c.numCols = 0#8)) : validateFault p c = some (.invalidConfig, 0#8, 3#8) := by
  rw [validateFault, if_neg h1, if_neg (Nat.not_le_of_lt h2), if_pos (rowsCols_differ_iff.2 h3)]

theorem validateFault_equalAddresses (h1 : c.profileCount ≠ 0#8) (h2 : c.activeProfile.toNat < c.profileCount.toNat)
    (h3 : c.numRows = 0#8 ↔ c.numCols = 0#8) (h4 : someEqual c.expAddrs = true) :
    validateFault p c = some (.invalidConfig, 0#8, 4#8) := by
  rw [validateFault, if_neg h1, if_neg (Nat.not_le_of_lt h2), if_neg (fun h => rowsCols_differ_iff.1 h h3), if_pos h4]

/-- With the checks 1 to 4 passed, the slot list decides. -/
theorem validateFault_of_countsSound (h : CountsSound c) : validateFault p c = slotFault p c := by
  obtain ⟨h1, h2, h3, h4⟩ := h
  rw [validateFault, if_neg h1, if_neg (Nat.not_le_of_lt h2), if_neg (fun h => rowsCols_differ_iff.1 h h3),
    if_neg (by simp [h4]), slotFault]
  cases firstInvalid p.pinValid c.slots with
  | some x => rfl
  | none => cases firstConflict [] c.slots <;> rfl

theorem slotFault_invalidPin {x : Slot} (hx : firstInvalid p.pinValid c.slots = some x) :
    slotFault p c = some (faultAt .invalidPin x) := by
  simp [slotFault, hx]

theorem slotFault_pinConflict (hv : firstInvalid p.pinValid c.slots = none) {y : Slot}
    (hy : firstConflict [] c.slots = some y) : slotFault p c = some (faultAt .pinConflict y) := by
  simp [slotFault, hv, hy]

theorem slotFault_none (hv : firstInvalid p.pinValid c.slots = none) (hc : firstConflict [] c.slots = none) :
    slotFault p c = none := by
  simp [slotFault, hv, hc]

end

theorem exec_uValidate_passes {s : State} (h : validateFault s.params s.cfg = none) :
    exec .uValidate s = .next { s with call.valid := true } := by
  show execUValidate s = _
  rw [execUValidate, h]

theorem exec_uValidate_fails {s : State} {k : FaultKind} {src cause : Byte}
    (h : validateFault s.params s.cfg = some (k, src, cause)) :
    ∃ t, exec .uValidate s = .next t ∧ Raised k src cause { s with call.valid := false } t := by
  refine ⟨_, ?_, callRaise_raised k src cause { s with call.valid := false }⟩
  show execUValidate s = _
  rw [execUValidate, h]

/-- Settles O32: each outcome is that of `validateFault`, whose searches find the first bad slot. -/
theorem validateChecks : Obligations.ValidateChecks := by
  intro s c check1 check2 check3 check4 bad clash check5 check6 Fails
  have hslots {f : Option (FaultKind × Byte × Byte)} (h1 : check1) (h2 : check2) (h3 : check3) (h4 : check4)
      (hf : slotFault s.params c = f) : validateFault s.params c = f := by
    refine (validateFault_of_countsSound ⟨h1, h2, h3, Bool.eq_false_iff.2 fun he => ?_⟩).trans hf
    obtain ⟨d1, d2, h12, h2n, heq⟩ := (someEqual_expAddrs c).1 he
    exact h4 d1 d2 h12 h2n heq
  have hvalid (h5 : check5) : firstInvalid s.params.pinValid c.slots = none :=
    firstInvalid_none fun k x hx => Bool.eq_true_of_not_eq_false (h5 k x hx)
  refine ⟨?ok, ?profile, ?active, ?matrix, ?addresses, ?invalid, ?conflict⟩
  case ok =>
    intro h1 h2 h3 h4 h5 h6
    exact exec_uValidate_passes (hslots h1 h2 h3 h4 (slotFault_none (hvalid h5) (firstConflict_of_no_clash h6)))
  case profile =>
    intro h1
    exact exec_uValidate_fails (validateFault_noProfile (not_not.1 h1))
  case active =>
    intro h1 h2
    exact exec_uValidate_fails (validateFault_badProfile h1 h2)
  case matrix =>
    intro h1 h2 h3
    exact exec_uValidate_fails (validateFault_badMatrix h1 h2 h3)
  case addresses =>
    intro h1 h2 h3 h4
    have he : someEqual c.expAddrs = true := by
      by_contra hne
      exact h4 fun d1 d2 h12 h2n heq => hne ((someEqual_expAddrs c).2 ⟨d1, d2, h12, h2n, heq⟩)
    exact exec_uValidate_fails (validateFault_equalAddresses h1 h2 h3 he)
  case invalid =>
    intro h1 h2 h3 h4 k x hk hbad hfirst
    have hx : firstInvalid s.params.pinValid c.slots = some x :=
      firstInvalid_some hk hbad fun m y hm hy => Bool.eq_true_of_not_eq_false (hfirst m y hm hy)
    exact exec_uValidate_fails (hslots h1 h2 h3 h4 (slotFault_invalidPin hx))
  case conflict =>
    intro h1 h2 h3 h4 h5 m y hm hclash hfirst
    have hy : firstConflict [] c.slots = some y := firstConflict_of_clash hm hclash hfirst
    exact exec_uValidate_fails (hslots h1 h2 h3 h4 (slotFault_pinConflict (hvalid h5) hy))

/-! ## U_PININIT (47_host_commands.md R267) -/

theorem decode_uPinInit : decode .uop5 0x02#64 = .ok .uPinInit := by decide

theorem exec_uPinInit (s : State) : exec .uPinInit s = .next (pinInit s) := rfl

/-- The requests for the encoder `k`: its two pins, and its button if it has one. -/
def encPinRequests (c : HostCfg) (k : Byte) : List Request :=
  [.pinMode (c.encPinAAt k) .inputPullup, .pinMode (c.encPinBAt k) .inputPullup] ++
    if c.encPinBtnAt k = 0xFF#8 then [] else [.pinMode (c.encPinBtnAt k) .inputPullup]

/-- The pins of the encoder `k` put in their mode: the body of U_PININIT's last loop. -/
def setEncPins (k : Byte) (t : State) : State :=
  let t2 := pinMode (t.cfg.encPinBAt k) .inputPullup (pinMode (t.cfg.encPinAAt k) .inputPullup t)
  if t.cfg.encPinBtnAt k = 0xFF#8 then t2 else pinMode (t.cfg.encPinBtnAt k) .inputPullup t2

theorem setEncPins_issued (k : Byte) (t : State) :
    Issued (encPinRequests t.cfg k) t (setEncPins k t) ∧ PinsOnly t (setEncPins k t) := by
  have hpair := issued_append (pinMode_issued (t.cfg.encPinAAt k) .inputPullup t)
    (pinMode_issued (t.cfg.encPinBAt k) .inputPullup _)
  unfold encPinRequests setEncPins
  by_cases hbtn : t.cfg.encPinBtnAt k = 0xFF#8
  · rw [if_pos hbtn, if_pos hbtn]
    exact ⟨hpair, rfl⟩
  · rw [if_neg hbtn, if_neg hbtn]
    exact ⟨issued_append hpair (pinMode_issued _ _ _), rfl⟩

/-- The pins of the encoders put in their modes, one encoder after the other. -/
theorem setEncPins_all_issued (s : State) (n : Nat) :
    Issued ((List.range n).flatMap fun e => encPinRequests s.cfg (BitVec.ofNat 8 e)) s
        (forAsc n (fun e t => setEncPins (BitVec.ofNat 8 e) t) s) ∧
      PinsOnly s (forAsc n (fun e t => setEncPins (BitVec.ofNat 8 e) t) s) :=
  forAsc_issued _ (fun e t => setEncPins (BitVec.ofNat 8 e) t)
    (fun k t ht => by simpa only [ht.cfg] using setEncPins_issued (BitVec.ofNat 8 k) t) n

section

variable {as : List Request} {s t : State} (h : Issued as s t ∧ PinsOnly s t)
include h

/-- After requests that touch only the pins the configuration is the same, so a loop over it goes on with them. -/
theorem issued_then_setModes (pinAt : HostCfg → Byte → Byte) (m : PinMode) (n : Nat) :
    Issued (as ++ (List.range n).flatMap fun k => [.pinMode (pinAt s.cfg (BitVec.ofNat 8 k)) m]) s
        (forAsc n (fun k t => pinMode (pinAt t.cfg (BitVec.ofNat 8 k)) m t) t) ∧
      PinsOnly s (forAsc n (fun k t => pinMode (pinAt t.cfg (BitVec.ofNat 8 k)) m t) t) := by
  obtain ⟨hissued, hpins⟩ := setModes_issued t pinAt m n
  rw [h.2.cfg] at hissued
  exact ⟨issued_append h.1 hissued, h.2.trans hpins⟩

theorem issued_then_setEncPins (n : Nat) :
    Issued (as ++ (List.range n).flatMap fun e => encPinRequests s.cfg (BitVec.ofNat 8 e)) s
        (forAsc n (fun e t => setEncPins (BitVec.ofNat 8 e) t) t) ∧
      PinsOnly s (forAsc n (fun e t => setEncPins (BitVec.ofNat 8 e) t) t) := by
  obtain ⟨hissued, hpins⟩ := setEncPins_all_issued t n
  rw [h.2.cfg] at hissued
  exact ⟨issued_append h.1 hissued, h.2.trans hpins⟩

end

/-- The loops of U_PININIT see the counts of the state they start from. -/
theorem pinInit_eq (s : State) :
    pinInit s =
      forAsc s.cfg.numEnc.toNat (fun e t => setEncPins (BitVec.ofNat 8 e) t)
        (forAsc s.cfg.numGpio.toNat (fun k t => pinMode (t.cfg.gpioPinAt (BitVec.ofNat 8 k)) .inputPullup t)
          (forAsc s.cfg.numCols.toNat (fun k t => pinMode (t.cfg.colPinAt (BitVec.ofNat 8 k)) .inputPullup t)
            (forAsc s.cfg.numRows.toNat (fun r t => driveRowInactive t r) s))) := rfl

/-- Settles O33: the requests of the four loops, one loop after the other. -/
theorem pinInitialisation : Obligations.PinInitialisation := by
  refine ⟨decode_uPinInit, fun s => ⟨pinInit s, exec_uPinInit s, ?_⟩⟩
  have hrows := restoreRows_issued s s.cfg.numRows.toNat
  have hcols := issued_then_setModes hrows HostCfg.colPinAt .inputPullup s.cfg.numCols.toNat
  have hgpio := issued_then_setModes hcols HostCfg.gpioPinAt .inputPullup s.cfg.numGpio.toNat
  rw [pinInit_eq]
  exact issued_then_setEncPins hgpio s.cfg.numEnc.toNat

/-! ## U_STATEINIT (47_host_commands.md R268) -/

theorem exec_uStateInit (s : State) : exec .uStateInit s = .next (stateInit s) := rfl

/-- U_STATEINIT before its encoders: the cells, the GPIO lines and the expanders. -/
def linesInit (s : State) : State :=
  let fresh : Line := ⟨false, false, s.tCycle⟩
  let s1 := forAsc s.cfg.numRows.toNat (fun r t =>
    forAsc s.cfg.numCols.toNat (fun c u => setCell (BitVec.ofNat 8 r) (BitVec.ofNat 8 c) fresh u) t) s
  let s2 := forAsc s.cfg.numGpio.toNat (fun i t => setGpioLine (BitVec.ofNat 8 i) fresh t) s1
  forAsc s.cfg.numExp.toNat (fun d t => setExp (BitVec.ofNat 8 d) ⟨0#16, 0#16, Vector.replicate 16 s.tCycle⟩ t) s2

theorem stateInit_eq (s : State) :
    stateInit s = forAsc s.cfg.numEnc.toNat (fun e t => initEnc (BitVec.ofNat 8 e) t) (linesInit s) := rfl

/-- Every line in use is fresh, and nothing but the three arrays is written. -/
theorem linesInit_fresh (s : State) :
    (∀ i j, (linesInit s).cell i j =
      if i.toNat < s.cfg.numRows.toNat ∧ j.toNat < s.cfg.numCols.toNat then ⟨false, false, s.tCycle⟩ else s.cell i j) ∧
    (∀ i, (linesInit s).gpioLine i =
      if i.toNat < s.cfg.numGpio.toNat then ⟨false, false, s.tCycle⟩ else s.gpioLine i) ∧
    (∀ d, (linesInit s).exp d =
      if d.toNat < s.cfg.numExp.toNat then ⟨0#16, 0#16, Vector.replicate 16 s.tCycle⟩ else s.exp d) ∧
    linesInit s = { s with cells := (linesInit s).cells, gpioLines := (linesInit s).gpioLines,
                           exps := (linesInit s).exps } := by
  have hle (n : Byte) : n.toNat ≤ 256 := Nat.le_of_lt n.isLt
  unfold linesInit
  dsimp only
  obtain ⟨hcell, hcells⟩ := setCells_block ⟨false, false, s.tCycle⟩ _ _ (hle s.cfg.numRows) (hle s.cfg.numCols) s
  generalize forAsc s.cfg.numRows.toNat _ s = s1 at *
  obtain ⟨hline, hlines⟩ := setGpioLines_block ⟨false, false, s.tCycle⟩ _ (hle s.cfg.numGpio) s1
  generalize forAsc s.cfg.numGpio.toNat _ s1 = s2 at *
  obtain ⟨hexp, hexps⟩ := setExps_block ⟨0#16, 0#16, Vector.replicate 16 s.tCycle⟩ _ (hle s.cfg.numExp) s2
  generalize forAsc s.cfg.numExp.toNat _ s2 = s3 at *
  have hgpio1 : s1.gpioLines = s.gpioLines := by rw [hcells]
  have hexps1 : s2.exps = s.exps := by rw [hlines, hcells]
  have hcells2 : s3.cells = s1.cells := by rw [hexps, hlines]
  have hgpio3 : s3.gpioLines = s2.gpioLines := by rw [hexps]
  refine ⟨fun i j => ?_, fun i => ?_, fun d => ?_, ?_⟩
  · rw [← hcell, State.cell, hcells2, State.cell]
  · rw [State.gpioLine, hgpio3, ← State.gpioLine, hline, State.gpioLine, hgpio1, State.gpioLine]
  · rw [hexp, State.exp, hexps1, State.exp]
  · rw [hexps, hlines, hcells]

/-- Settles O34: the lines first, then the encoders, each from its two pins. -/
theorem stateInitialisation : Obligations.StateInitialisation := by
  intro s c t0
  obtain ⟨hcell, hline, hexp, hlines⟩ := linesInit_fresh s
  obtain ⟨henc, hissued, -, hframe⟩ := initEncs_block _ (Nat.le_of_lt s.cfg.numEnc.isLt) (linesInit s)
  rw [← stateInit_eq] at henc hissued hframe
  have hcfg : (linesInit s).cfg = s.cfg := by rw [hlines]
  have htime : (linesInit s).tCycle = s.tCycle := by rw [hlines]
  have henv : (linesInit s).env = s.env := by rw [hlines]
  have hencs : (linesInit s).encs = s.encs := by rw [hlines]
  have hout : (linesInit s).out = s.out := by rw [hlines]
  have hcells : (stateInit s).cells = (linesInit s).cells := by rw [hframe]
  have hgpio : (stateInit s).gpioLines = (linesInit s).gpioLines := by rw [hframe]
  have hexps : (stateInit s).exps = (linesInit s).exps := by rw [hframe]
  rw [hcfg] at hissued
  refine ⟨stateInit s, exec_uStateInit s, fun i j => ?cell, fun i => ?gpio, fun d => ?exp, fun e => ?enc, ?issued, ?frame⟩
  case cell => rw [← hcell, State.cell, hcells, State.cell]
  case gpio => rw [← hline, State.gpioLine, hgpio, State.gpioLine]
  case exp => rw [← hexp, State.exp, hexps, State.exp]
  case enc =>
    rw [henc, henv, htime, enc_congr hencs]
    rfl
  case issued =>
    obtain ⟨htrace, hpins⟩ := hissued
    refine ⟨htrace.trans (by rw [hout]), fun p => (hpins p).trans ?_⟩
    rw [State.pin, henv, State.pin]
  case frame => rw [hframe, hlines]

/-! ## The sequence of BEGIN (47_host_commands.md R265, R269, R270) -/

/-- One micro-operation for each item. -/
theorem itemTasks_single (n : Byte) (code : BitVec 5) :
    itemTasks n [code] = (List.range n.toNat).map fun k => uopTask code (some (BitVec.ofNat 8 k)) :=
  List.map_eq_flatMap.symm

/-- The tasks of a BEGIN that passed U_VALIDATE, as words (R269). -/
theorem beginTasks_eq (s : State) :
    beginTasks s = [.op .uop5 0x02#64 none, .op .uop5 0x03#64 none] ++
      (List.range s.cfg.numExp.toNat).map (fun d => .op .uop5 0x04#64 (some (BitVec.ofNat 8 d))) ++ [.beginEnd] := by
  rw [beginTasks, itemTasks_single]
  rfl

/-- The devices of a BEGIN are those of the configuration. -/
theorem beginTasks_congr {s t : State} (hc : t.cfg = s.cfg) : beginTasks t = beginTasks s := by
  rw [beginTasks, hc, beginTasks]

section

variable {s : State}

theorem settleTask_invalid (hv : s.call.valid = false) :
    settleTask .afterValidate s = respond .error 0#32 (goIdle s) := if_neg (by simp [hv])

theorem settleTask_valid (hv : s.call.valid = true) :
    settleTask .afterValidate s = { s with todo := beginTasks s ++ s.todo } := if_pos hv

end

section

variable {s s' : State} {rest : List Task} (hs : EngineTurn s s') (he : s.evt = none)
include hs he

theorem step_invalid (hl : s.todo = .afterValidate :: rest) (hv : s.call.valid = false) :
    step s = .next { s' with todo := rest, busy := false, phase := 0#5, ix := 0#8, jx := 0#8,
                             out := .response .error 0#32 :: s.out } := by
  have hcall : s'.call = s.call := by rw [engineTurn_fields hs]
  have hout : s'.out = s.out := by rw [engineTurn_fields hs]
  rw [step_closing (k := .afterValidate) trivial hs he hl, settleTask_invalid (hcall ▸ hv), ← hout]
  rfl

theorem step_valid (hl : s.todo = .afterValidate :: rest) (hv : s.call.valid = true) :
    step s = .next { s' with todo := beginTasks s ++ rest } := by
  have hcall : s'.call = s.call := by rw [engineTurn_fields hs]
  have hcfg : s'.cfg = s.cfg := turn_cfg hs
  have htasks : beginTasks { s' with todo := rest } = beginTasks s := beginTasks_congr hcfg
  rw [step_closing (k := .afterValidate) trivial hs he hl, settleTask_valid (hcall ▸ hv), htasks]

theorem step_beginEnd (hl : s.todo = .beginEnd :: rest) :
    step s = .next { s' with todo := rest, psMode := false, activity := false, tActivity := s.tCycle,
                             initialized := true, busy := false, phase := 0#5, ix := 0#8, jx := 0#8,
                             out := .response .ok 0#32 :: s.out } := by
  have htime : s'.tCycle = s.tCycle := by rw [engineTurn_fields hs]
  have hout : s'.out = s.out := by rw [engineTurn_fields hs]
  rw [← htime, ← hout]
  exact step_closing (k := .beginEnd) trivial hs he hl

end

/-- Settles O57: the two branches of U_VALIDATE's result, and the end of the command. -/
theorem beginSequence : Obligations.BeginSequence := by
  intro s s' rest hs he
  rw [← beginTasks_eq]
  exact ⟨step_invalid hs he, step_valid hs he, step_beginEnd hs he⟩

end Sys2Proof.HostCommandClaims

/-! SUPPORT. Proofs of the statements about faults, records and acknowledges (60_exceptions.md): RAISE and EMIT as
operations, and the steps that run no word. -/

namespace Sys2Proof.ExceptionClaims

open Sys2Proof.Machine Sys2Proof.Safety

/-! ## RAISE (60_exceptions.md R284 to R286) -/

theorem exec_raise (s : State) : exec .raise s = .next (raiseOp s) := rfl

/-- RAISE as an operation is RAISE called with the operands that `call` already holds (log 7). -/
theorem raiseOp_eq_callRaise (s : State) : raiseOp s = callRaise s.call.kind s.call.src s.call.cause s := rfl

/-- Settles O53: the rule for a called RAISE applies to the operands in `call`. -/
theorem raiseSubOperation : Obligations.RaiseSubOperation := by
  intro s
  refine ⟨raiseOp s, exec_raise s, ?_⟩
  rw [raiseOp_eq_callRaise]
  exact callRaise_raised s.call.kind s.call.src s.call.cause s

/-! ## EMIT (60_exceptions.md R290, 10_state.md R31) -/

section

variable {s : State}

theorem exec_emit : exec .emit s = .next (emitOp s) := rfl

theorem emitOp_of_disabled (h : s.enabled s.call.channel = false) : emitOp s = s :=
  if_neg (Bool.eq_false_iff.1 h)

theorem emitOp_of_enabled (h : s.enabled s.call.channel = true) :
    emitOp s = present (s.recordOf s.call.channel s.call.evA s.call.evB s.call.evV) s := if_pos h

end

/-- Settles O54: the two values of the channel's enable bit. -/
theorem emitSubOperation : Obligations.EmitSubOperation := by
  intro s c p w
  constructor
  · intro hdisabled
    rw [exec_emit, emitOp_of_disabled hdisabled]
  · intro henabled
    rw [exec_emit, emitOp_of_enabled henabled]
    rfl

/-! ## The steps that run no word (60_exceptions.md R290, R292, R295; log 4, 17) -/

section

variable {s : State} {h : List HostAct}

/-- The acknowledge takes the record off the port, whichever bit it carries (R292, R295). -/
theorem step_ack {bit : Bool} (hh : s.host = .ack bit :: h) : step s = .next { s with host := h, evt := none } := by
  rw [step, nextMove, hh]
  rfl

/-- While a record waits the engine's turn passes without a move (R290). -/
theorem step_stalled {s' : State} (hs : EngineTurn s s') (he : s.evt ≠ none) : step s = .next s' := by
  rw [step, nextMove_stalled hs he, runMove_settled]

theorem answersHost_iff : s.answersHost = true ↔ s.evt ≠ none ∨ (s.busy = false ∧ s.updWait = 0) := by
  simp [State.answersHost, Option.isSome_iff_ne_none]

/-- What a host that waits is waiting for ends its wait (log 4). -/
theorem step_await (hh : s.host = .await :: h) (ha : s.answersHost = true) : step s = .next { s with host := h } := by
  rw [step, nextMove, hh]
  dsimp only
  rw [if_pos ha, runMove_settled]

end

/-- Settles O6: the host acknowledges, leaves the turn to a stalled engine (with nothing left to do, or passing), or has
what it waits for. -/
theorem acknowledgeAndStall : Obligations.AcknowledgeAndStall := by
  refine ⟨fun s bit h => ?ack, fun s => ?nothing, fun s h => ?pass, fun s h => ?await⟩
  case ack => exact step_ack
  case nothing =>
    intro hh he
    exact step_stalled (.inl ⟨hh, rfl⟩) he
  case pass =>
    intro hh he
    exact step_stalled (.inr (.inl ⟨h, hh, rfl⟩)) he
  case await =>
    intro hh ha
    exact step_await hh (answersHost_iff.2 ha)

end Sys2Proof.ExceptionClaims
